-- ==== Sys2Proof/Word.lean ====
section
/-! DEFINITION. The word types of 375P2-CORE (R10, R13, R30): 32-bit words, bytes, 5-bit register indices. -/

namespace Sys2Proof

/-- A 32-bit value: a register, an address, an instruction word (R10, R13). -/
abbrev Word := BitVec 32

/-- One byte of the memory (R55, R80). -/
abbrev Byte := BitVec 8

/-- A general register's index, `x0` to `x31`: five bits of an encoding (R30, R131). -/
abbrev Reg := BitVec 5

end Sys2Proof
end

