-- ==== Sys2Proof/Config.lean ====
section
/-! DEFINITION. The constants of the hardware (R10), the shape of a cache configuration (R11), the parameters that
`State.reset` takes (log 1), and the one free value of the model (log 4). -/

namespace Sys2Proof

/-- `{cache_size, block_size, ways, miss_latency}` of one cache (R11, R94). -/
structure CacheConfig where
  cacheSize   : Nat
  blockSize   : Nat
  ways        : Nat
  missLatency : Nat
  deriving DecidableEq, Repr

namespace Config

/-- `RESET_PC`, where the initial fetch is made (R10, R91). -/
def resetPc : Word := 0x00000000#32

/-- `HANDLER`, the exception handler's address (R10, R91). -/
def handler : Word := 0x00008000#32

/-- `NOP_WORD`, the architectural NOP (R10, R264). -/
def nopWord : Word := 0x00000013#32

/-- `HALT_WORD`, the only word that halts (R10, R143). -/
def haltWord : Word := 0xFEEDFEED#32

/-- DESIGN CHOICE (log 1): the `MEMORY_SIZE` of `State.reset`; D0's only value, of its scenario 6. The spec leaves
`MEMORY_SIZE` a model argument (R81), and every state carries its own. -/
def resetMemorySize : Nat := 0x100000

/-- DESIGN CHOICE (log 1): `ICFG` and `DCFG` of `State.reset`, the default configuration of 95_test_vectors.md
section 0. The spec leaves both a model argument (R94), and every state carries its own. -/
def resetCache : CacheConfig := { cacheSize := 64, blockSize := 16, ways := 2, missLatency := 0 }

/-- FREE VALUE (log 4): whether the tick that both commits a halt and raises an exception returns HALT (true) or ERROR
(false): "a draw over {HALT, ERROR}" on which "a proof may rely on neither" (R285, R373). Applied to the number of
draws made before. -/
opaque haltWinsTie : Nat → Bool

end Config
end Sys2Proof
end

