-- ==== Sys2Proof/Syntax.lean ====
section
/-! DEFINITION. The instructions of 375P2-CORE: one constructor per row of spec/opcode_table.json (R154), and the
opcode classes of R38 and R142. -/

namespace Sys2Proof

/-- The opcode class of a word (R38, R142): `none` only for an illegal word. -/
inductive OpClass where
  | load | store | branch | jal | jalr | op | opImm | lui | auipc | system | halt | none
  deriving DecidableEq, Repr

/-- One instruction of the opcode table with its operand fields. Offsets of BRANCH and JAL are byte offsets as the
assembler writes them (R140, R141); `lui` and `auipc` hold the 20 bits of `raw[31:12]` (R193, R194). -/
inductive Instr where
  -- whole words (R260, R264)
  | halt
  | nop
  -- OP (R174 to R183)
  | add   (rd rs1 rs2 : Reg)
  | sub   (rd rs1 rs2 : Reg)
  | sll   (rd rs1 rs2 : Reg)
  | slt   (rd rs1 rs2 : Reg)
  | sltu  (rd rs1 rs2 : Reg)
  | xor   (rd rs1 rs2 : Reg)
  | srl   (rd rs1 rs2 : Reg)
  | sra   (rd rs1 rs2 : Reg)
  | or    (rd rs1 rs2 : Reg)
  | and   (rd rs1 rs2 : Reg)
  -- OP_IMM (R184 to R192)
  | addi  (rd rs1 : Reg) (imm : BitVec 12)
  | slti  (rd rs1 : Reg) (imm : BitVec 12)
  | sltiu (rd rs1 : Reg) (imm : BitVec 12)
  | xori  (rd rs1 : Reg) (imm : BitVec 12)
  | ori   (rd rs1 : Reg) (imm : BitVec 12)
  | andi  (rd rs1 : Reg) (imm : BitVec 12)
  | slli  (rd rs1 : Reg) (shamt : BitVec 5)
  | srli  (rd rs1 : Reg) (shamt : BitVec 5)
  | srai  (rd rs1 : Reg) (shamt : BitVec 5)
  -- upper immediates (R193, R194)
  | lui   (rd : Reg) (imm : BitVec 20)
  | auipc (rd : Reg) (imm : BitVec 20)
  -- control transfer (R225 to R232)
  | jal   (rd : Reg) (offset : BitVec 21)
  | jalr  (rd rs1 : Reg) (imm : BitVec 12)
  | beq   (rs1 rs2 : Reg) (offset : BitVec 13)
  | bne   (rs1 rs2 : Reg) (offset : BitVec 13)
  | blt   (rs1 rs2 : Reg) (offset : BitVec 13)
  | bge   (rs1 rs2 : Reg) (offset : BitVec 13)
  | bltu  (rs1 rs2 : Reg) (offset : BitVec 13)
  | bgeu  (rs1 rs2 : Reg) (offset : BitVec 13)
  -- LOAD (R243 to R247)
  | lb    (rd rs1 : Reg) (imm : BitVec 12)
  | lh    (rd rs1 : Reg) (imm : BitVec 12)
  | lw    (rd rs1 : Reg) (imm : BitVec 12)
  | lbu   (rd rs1 : Reg) (imm : BitVec 12)
  | lhu   (rd rs1 : Reg) (imm : BitVec 12)
  -- STORE (R248 to R250), operands in the assembler's order
  | sb    (rs2 rs1 : Reg) (imm : BitVec 12)
  | sh    (rs2 rs1 : Reg) (imm : BitVec 12)
  | sw    (rs2 rs1 : Reg) (imm : BitVec 12)
  -- every word of the SYSTEM class (R262), with the fields of the table's row
  | system (imm : BitVec 12) (rs1 : Reg) (funct3 : BitVec 3) (rd : Reg)
  deriving DecidableEq, Repr

end Sys2Proof
end

