-- ==== Sys2Proof/Decode.lean ====
section
/-! DEFINITION. Decoding, total on any bytes and rejecting by name (R130 to R154), and after it the encoder. -/

namespace Sys2Proof

/-! ## The fields of a word (R131) -/

def opcodeOf (w : Word) : BitVec 7 := w.extractLsb' 0 7
def rdOf (w : Word) : Reg := w.extractLsb' 7 5
def funct3Of (w : Word) : BitVec 3 := w.extractLsb' 12 3
def rs1Of (w : Word) : Reg := w.extractLsb' 15 5
def rs2Of (w : Word) : Reg := w.extractLsb' 20 5
def funct7Of (w : Word) : BitVec 7 := w.extractLsb' 25 7

/-- The 12 bits of the I-immediate (R133, R137). -/
def iImmOf (w : Word) : BitVec 12 := w.extractLsb' 20 12
/-- The 12 bits of the S-immediate (R134, R139). -/
def sImmOf (w : Word) : BitVec 12 := w.extractLsb' 25 7 ++ w.extractLsb' 7 5
/-- The B-format byte offset, bit 0 zero (R135, R140). -/
def bOffsetOf (w : Word) : BitVec 13 :=
  w.extractLsb' 31 1 ++ w.extractLsb' 7 1 ++ w.extractLsb' 25 6 ++ w.extractLsb' 8 4 ++ 0#1
/-- The upper 20 bits of the U-immediate (R136, R141). -/
def uImmOf (w : Word) : BitVec 20 := w.extractLsb' 12 20
/-- The J-format byte offset, bit 0 zero (R136, R141). -/
def jOffsetOf (w : Word) : BitVec 21 :=
  w.extractLsb' 31 1 ++ w.extractLsb' 12 8 ++ w.extractLsb' 20 1 ++ w.extractLsb' 21 10 ++ 0#1

/-! ## Decoding a word -/

/-- What a word decodes to: an instruction of the table, a word of a listed class whose function fields select no row
(R149), or a word of no listed class (R148). -/
inductive Decoded where
  | instr (i : Instr)
  | reserved (c : OpClass)
  | illegal
  deriving DecidableEq, Repr

/-- The class that the major opcode `raw[6:0]` selects (R142); `none` for any other value. -/
def majorClass (opcode : BitVec 7) : OpClass :=
  match opcode with
  | 0x37#7 => .lui
  | 0x17#7 => .auipc
  | 0x6F#7 => .jal
  | 0x67#7 => .jalr
  | 0x63#7 => .branch
  | 0x03#7 => .load
  | 0x23#7 => .store
  | 0x13#7 => .opImm
  | 0x33#7 => .op
  | 0x73#7 => .system
  | _ => .none

/-- The OP class: `funct7` and `funct3` select (R147). -/
def decodeOp (w : Word) : Decoded :=
  match funct7Of w, funct3Of w with
  | 0b0000000#7, 0b000#3 => .instr (.add (rdOf w) (rs1Of w) (rs2Of w))
  | 0b0000000#7, 0b001#3 => .instr (.sll (rdOf w) (rs1Of w) (rs2Of w))
  | 0b0000000#7, 0b010#3 => .instr (.slt (rdOf w) (rs1Of w) (rs2Of w))
  | 0b0000000#7, 0b011#3 => .instr (.sltu (rdOf w) (rs1Of w) (rs2Of w))
  | 0b0000000#7, 0b100#3 => .instr (.xor (rdOf w) (rs1Of w) (rs2Of w))
  | 0b0000000#7, 0b101#3 => .instr (.srl (rdOf w) (rs1Of w) (rs2Of w))
  | 0b0000000#7, 0b110#3 => .instr (.or (rdOf w) (rs1Of w) (rs2Of w))
  | 0b0000000#7, 0b111#3 => .instr (.and (rdOf w) (rs1Of w) (rs2Of w))
  | 0b0100000#7, 0b000#3 => .instr (.sub (rdOf w) (rs1Of w) (rs2Of w))
  | 0b0100000#7, 0b101#3 => .instr (.sra (rdOf w) (rs1Of w) (rs2Of w))
  | _, _ => .reserved .op

/-- The shift immediates with `funct3 = 101`: `raw[31:25]` selects (R147). -/
def decodeShiftRightImm (w : Word) : Decoded :=
  match funct7Of w with
  | 0b0000000#7 => .instr (.srli (rdOf w) (rs1Of w) (rs2Of w))
  | 0b0100000#7 => .instr (.srai (rdOf w) (rs1Of w) (rs2Of w))
  | _ => .reserved .opImm

/-- The shift immediate with `funct3 = 001`: only `raw[31:25] = 0000000` is assigned (R147, R190). -/
def decodeShiftLeftImm (w : Word) : Decoded :=
  match funct7Of w with
  | 0b0000000#7 => .instr (.slli (rdOf w) (rs1Of w) (rs2Of w))
  | _ => .reserved .opImm

/-- The OP_IMM class (R147), the NOP word taken before it. -/
def decodeOpImm (w : Word) : Decoded :=
  match funct3Of w with
  | 0b000#3 => .instr (.addi (rdOf w) (rs1Of w) (iImmOf w))
  | 0b001#3 => decodeShiftLeftImm w
  | 0b010#3 => .instr (.slti (rdOf w) (rs1Of w) (iImmOf w))
  | 0b011#3 => .instr (.sltiu (rdOf w) (rs1Of w) (iImmOf w))
  | 0b100#3 => .instr (.xori (rdOf w) (rs1Of w) (iImmOf w))
  | 0b101#3 => decodeShiftRightImm w
  | 0b110#3 => .instr (.ori (rdOf w) (rs1Of w) (iImmOf w))
  | _ => .instr (.andi (rdOf w) (rs1Of w) (iImmOf w))

/-- The LOAD class (R147). -/
def decodeLoad (w : Word) : Decoded :=
  match funct3Of w with
  | 0b000#3 => .instr (.lb (rdOf w) (rs1Of w) (iImmOf w))
  | 0b001#3 => .instr (.lh (rdOf w) (rs1Of w) (iImmOf w))
  | 0b010#3 => .instr (.lw (rdOf w) (rs1Of w) (iImmOf w))
  | 0b100#3 => .instr (.lbu (rdOf w) (rs1Of w) (iImmOf w))
  | 0b101#3 => .instr (.lhu (rdOf w) (rs1Of w) (iImmOf w))
  | _ => .reserved .load

/-- The STORE class (R147). -/
def decodeStore (w : Word) : Decoded :=
  match funct3Of w with
  | 0b000#3 => .instr (.sb (rs2Of w) (rs1Of w) (sImmOf w))
  | 0b001#3 => .instr (.sh (rs2Of w) (rs1Of w) (sImmOf w))
  | 0b010#3 => .instr (.sw (rs2Of w) (rs1Of w) (sImmOf w))
  | _ => .reserved .store

/-- The BRANCH class (R147). -/
def decodeBranch (w : Word) : Decoded :=
  match funct3Of w with
  | 0b000#3 => .instr (.beq (rs1Of w) (rs2Of w) (bOffsetOf w))
  | 0b001#3 => .instr (.bne (rs1Of w) (rs2Of w) (bOffsetOf w))
  | 0b100#3 => .instr (.blt (rs1Of w) (rs2Of w) (bOffsetOf w))
  | 0b101#3 => .instr (.bge (rs1Of w) (rs2Of w) (bOffsetOf w))
  | 0b110#3 => .instr (.bltu (rs1Of w) (rs2Of w) (bOffsetOf w))
  | 0b111#3 => .instr (.bgeu (rs1Of w) (rs2Of w) (bOffsetOf w))
  | _ => .reserved .branch

/-- The JALR class: only `funct3 = 000` is assigned (R147). -/
def decodeJalr (w : Word) : Decoded :=
  match funct3Of w with
  | 0b000#3 => .instr (.jalr (rdOf w) (rs1Of w) (iImmOf w))
  | _ => .reserved .jalr

/-- Decodes a word: the HALT and NOP words first (R143, R154), then the class of the major opcode (R142, R148). -/
def decodeWord (w : Word) : Decoded :=
  if w = Config.haltWord then .instr .halt
  else if w = Config.nopWord then .instr .nop
  else match majorClass (opcodeOf w) with
    | .lui => .instr (.lui (rdOf w) (uImmOf w))
    | .auipc => .instr (.auipc (rdOf w) (uImmOf w))
    | .jal => .instr (.jal (rdOf w) (jOffsetOf w))
    | .jalr => decodeJalr w
    | .branch => decodeBranch w
    | .load => decodeLoad w
    | .store => decodeStore w
    | .opImm => decodeOpImm w
    | .op => decodeOp w
    | .system => .instr (.system (iImmOf w) (rs1Of w) (funct3Of w) (rdOf w))
    | .halt | .none => .illegal

/-! ## Decoding bytes -/

/-- Why a list of bytes gives no instruction. -/
inductive Reject where
  /-- Fewer than the four bytes of a word (R130). -/
  | tooShort
  /-- A word of no listed class (R148). -/
  | illegalWord
  /-- A listed class, unassigned function fields (R149). -/
  | reservedEncoding (c : OpClass)
  deriving DecidableEq, Repr

/-- The word that four bytes in memory order are: little-endian (R82). -/
def wordOfBytes (b0 b1 b2 b3 : Byte) : Word := b3 ++ b2 ++ b1 ++ b0

/-- The four bytes of a word in memory order (R82). -/
def bytesOfWord (w : Word) : List Byte :=
  [w.extractLsb' 0 8, w.extractLsb' 8 8, w.extractLsb' 16 8, w.extractLsb' 24 8]

/-- Decodes the instruction at the front of a list of bytes, always four bytes (R130), and gives the rest back. -/
def decodeBytes : List Byte → Except Reject (Instr × List Byte)
  | b0 :: b1 :: b2 :: b3 :: rest =>
    match decodeWord (wordOfBytes b0 b1 b2 b3) with
    | .instr i => .ok (i, rest)
    | .reserved c => .error (.reservedEncoding c)
    | .illegal => .error .illegalWord
  | _ => .error .tooShort

/-- The instruction the decoder reads from a word numbered as spec/opcode_table.json numbers it; bits at and above
`nbits` are 0. The word's bytes are laid out as memory holds them and given to `decodeBytes`. -/
def decodeTableWord (nbits w : Nat) : Option Instr :=
  match decodeBytes (bytesOfWord (BitVec.ofNat 32 (w % 2 ^ nbits))) with
  | .ok (i, _) => some i
  | .error _ => none

/-! ## Encoding -/

/-- R-type, and the I-type variant of the shift immediates with the amount in the place of `rs2` (R132, R133). -/
def encodeR (funct7 : BitVec 7) (rs2 rs1 : Reg) (funct3 : BitVec 3) (rd : Reg) (opcode : BitVec 7) : Word :=
  funct7 ++ rs2 ++ rs1 ++ funct3 ++ rd ++ opcode

/-- I-type (R133). -/
def encodeI (imm : BitVec 12) (rs1 : Reg) (funct3 : BitVec 3) (rd : Reg) (opcode : BitVec 7) : Word :=
  imm ++ rs1 ++ funct3 ++ rd ++ opcode

/-- S-type (R134). -/
def encodeS (imm : BitVec 12) (rs2 rs1 : Reg) (funct3 : BitVec 3) (opcode : BitVec 7) : Word :=
  imm.extractLsb' 5 7 ++ rs2 ++ rs1 ++ funct3 ++ imm.extractLsb' 0 5 ++ opcode

/-- B-type (R135). -/
def encodeB (offset : BitVec 13) (rs2 rs1 : Reg) (funct3 : BitVec 3) (opcode : BitVec 7) : Word :=
  offset.extractLsb' 12 1 ++ offset.extractLsb' 5 6 ++ rs2 ++ rs1 ++ funct3 ++ offset.extractLsb' 1 4 ++
    offset.extractLsb' 11 1 ++ opcode

/-- U-type (R136). -/
def encodeU (imm : BitVec 20) (rd : Reg) (opcode : BitVec 7) : Word := imm ++ rd ++ opcode

/-- J-type (R136). -/
def encodeJ (offset : BitVec 21) (rd : Reg) (opcode : BitVec 7) : Word :=
  offset.extractLsb' 20 1 ++ offset.extractLsb' 1 10 ++ offset.extractLsb' 11 1 ++ offset.extractLsb' 12 8 ++ rd ++
    opcode

/-- The word of a well-formed instruction (R132 to R147). -/
def encode : Instr → Word
  | .halt => Config.haltWord
  | .nop => Config.nopWord
  | .add rd rs1 rs2 => encodeR 0b0000000#7 rs2 rs1 0b000#3 rd 0x33#7
  | .sub rd rs1 rs2 => encodeR 0b0100000#7 rs2 rs1 0b000#3 rd 0x33#7
  | .sll rd rs1 rs2 => encodeR 0b0000000#7 rs2 rs1 0b001#3 rd 0x33#7
  | .slt rd rs1 rs2 => encodeR 0b0000000#7 rs2 rs1 0b010#3 rd 0x33#7
  | .sltu rd rs1 rs2 => encodeR 0b0000000#7 rs2 rs1 0b011#3 rd 0x33#7
  | .xor rd rs1 rs2 => encodeR 0b0000000#7 rs2 rs1 0b100#3 rd 0x33#7
  | .srl rd rs1 rs2 => encodeR 0b0000000#7 rs2 rs1 0b101#3 rd 0x33#7
  | .sra rd rs1 rs2 => encodeR 0b0100000#7 rs2 rs1 0b101#3 rd 0x33#7
  | .or rd rs1 rs2 => encodeR 0b0000000#7 rs2 rs1 0b110#3 rd 0x33#7
  | .and rd rs1 rs2 => encodeR 0b0000000#7 rs2 rs1 0b111#3 rd 0x33#7
  | .addi rd rs1 imm => encodeI imm rs1 0b000#3 rd 0x13#7
  | .slti rd rs1 imm => encodeI imm rs1 0b010#3 rd 0x13#7
  | .sltiu rd rs1 imm => encodeI imm rs1 0b011#3 rd 0x13#7
  | .xori rd rs1 imm => encodeI imm rs1 0b100#3 rd 0x13#7
  | .ori rd rs1 imm => encodeI imm rs1 0b110#3 rd 0x13#7
  | .andi rd rs1 imm => encodeI imm rs1 0b111#3 rd 0x13#7
  | .slli rd rs1 shamt => encodeR 0b0000000#7 shamt rs1 0b001#3 rd 0x13#7
  | .srli rd rs1 shamt => encodeR 0b0000000#7 shamt rs1 0b101#3 rd 0x13#7
  | .srai rd rs1 shamt => encodeR 0b0100000#7 shamt rs1 0b101#3 rd 0x13#7
  | .lui rd imm => encodeU imm rd 0x37#7
  | .auipc rd imm => encodeU imm rd 0x17#7
  | .jal rd offset => encodeJ offset rd 0x6F#7
  | .jalr rd rs1 imm => encodeI imm rs1 0b000#3 rd 0x67#7
  | .beq rs1 rs2 offset => encodeB offset rs2 rs1 0b000#3 0x63#7
  | .bne rs1 rs2 offset => encodeB offset rs2 rs1 0b001#3 0x63#7
  | .blt rs1 rs2 offset => encodeB offset rs2 rs1 0b100#3 0x63#7
  | .bge rs1 rs2 offset => encodeB offset rs2 rs1 0b101#3 0x63#7
  | .bltu rs1 rs2 offset => encodeB offset rs2 rs1 0b110#3 0x63#7
  | .bgeu rs1 rs2 offset => encodeB offset rs2 rs1 0b111#3 0x63#7
  | .lb rd rs1 imm => encodeI imm rs1 0b000#3 rd 0x03#7
  | .lh rd rs1 imm => encodeI imm rs1 0b001#3 rd 0x03#7
  | .lw rd rs1 imm => encodeI imm rs1 0b010#3 rd 0x03#7
  | .lbu rd rs1 imm => encodeI imm rs1 0b100#3 rd 0x03#7
  | .lhu rd rs1 imm => encodeI imm rs1 0b101#3 rd 0x03#7
  | .sb rs2 rs1 imm => encodeS imm rs2 rs1 0b000#3 0x23#7
  | .sh rs2 rs1 imm => encodeS imm rs2 rs1 0b001#3 0x23#7
  | .sw rs2 rs1 imm => encodeS imm rs2 rs1 0b010#3 0x23#7
  | .system imm rs1 funct3 rd => encodeI imm rs1 funct3 rd 0x73#7

/-- The bytes of a well-formed instruction in memory order (R82). -/
def encodeBytes (i : Instr) : List Byte := bytesOfWord (encode i)

/-! ## What an instruction's term says of its latch fields -/

/-- The opcode class of an instruction (R142). -/
def Instr.opClass : Instr → OpClass
  | .halt => .halt
  | .nop => .opImm
  | .add _ _ _ | .sub _ _ _ | .sll _ _ _ | .slt _ _ _ | .sltu _ _ _ => .op
  | .xor _ _ _ | .srl _ _ _ | .sra _ _ _ | .or _ _ _ | .and _ _ _ => .op
  | .addi _ _ _ | .slti _ _ _ | .sltiu _ _ _ | .xori _ _ _ | .ori _ _ _ | .andi _ _ _ => .opImm
  | .slli _ _ _ | .srli _ _ _ | .srai _ _ _ => .opImm
  | .lui _ _ => .lui
  | .auipc _ _ => .auipc
  | .jal _ _ => .jal
  | .jalr _ _ _ => .jalr
  | .beq _ _ _ | .bne _ _ _ | .blt _ _ _ | .bge _ _ _ | .bltu _ _ _ | .bgeu _ _ _ => .branch
  | .lb _ _ _ | .lh _ _ _ | .lw _ _ _ | .lbu _ _ _ | .lhu _ _ _ => .load
  | .sb _ _ _ | .sh _ _ _ | .sw _ _ _ => .store
  | .system _ _ _ _ => .system

/-- The immediate of the instruction's format, extended to 32 bits; 0 where the format has none (R38, R137 to R141,
R144). SYSTEM has the I-type's (R133, log 12). -/
def Instr.imm : Instr → Word
  | .halt | .nop => 0
  | .add _ _ _ | .sub _ _ _ | .sll _ _ _ | .slt _ _ _ | .sltu _ _ _ => 0
  | .xor _ _ _ | .srl _ _ _ | .sra _ _ _ | .or _ _ _ | .and _ _ _ => 0
  | .addi _ _ imm | .slti _ _ imm | .sltiu _ _ imm | .xori _ _ imm | .ori _ _ imm | .andi _ _ imm => imm.signExtend 32
  | .slli _ _ shamt | .srli _ _ shamt | .srai _ _ shamt => shamt.zeroExtend 32
  | .lui _ imm | .auipc _ imm => imm ++ 0#12
  | .jal _ offset => offset.signExtend 32
  | .jalr _ _ imm => imm.signExtend 32
  | .beq _ _ offset | .bne _ _ offset | .blt _ _ offset => offset.signExtend 32
  | .bge _ _ offset | .bltu _ _ offset | .bgeu _ _ offset => offset.signExtend 32
  | .lb _ _ imm | .lh _ _ imm | .lw _ _ imm | .lbu _ _ imm | .lhu _ _ imm => imm.signExtend 32
  | .sb _ _ imm | .sh _ _ imm | .sw _ _ imm => imm.signExtend 32
  | .system imm _ _ _ => imm.signExtend 32

/-- The three register-index fields an instruction's term fixes; `none` where its format has other bits there. -/
structure RegFields where
  rs1 : Option Reg
  rs2 : Option Reg
  rd  : Option Reg
  deriving DecidableEq, Repr

/-- The register fields of each format (R131 to R136). -/
def Instr.regFields : Instr → RegFields
  | .halt | .nop => ⟨none, none, none⟩
  | .add rd rs1 rs2 | .sub rd rs1 rs2 | .sll rd rs1 rs2 | .slt rd rs1 rs2 => ⟨some rs1, some rs2, some rd⟩
  | .sltu rd rs1 rs2 | .xor rd rs1 rs2 | .srl rd rs1 rs2 | .sra rd rs1 rs2 => ⟨some rs1, some rs2, some rd⟩
  | .or rd rs1 rs2 | .and rd rs1 rs2 => ⟨some rs1, some rs2, some rd⟩
  | .addi rd rs1 _ | .slti rd rs1 _ | .sltiu rd rs1 _ | .xori rd rs1 _ => ⟨some rs1, none, some rd⟩
  | .ori rd rs1 _ | .andi rd rs1 _ => ⟨some rs1, none, some rd⟩
  | .slli rd rs1 shamt | .srli rd rs1 shamt | .srai rd rs1 shamt => ⟨some rs1, some shamt, some rd⟩
  | .lui rd _ | .auipc rd _ | .jal rd _ => ⟨none, none, some rd⟩
  | .jalr rd rs1 _ => ⟨some rs1, none, some rd⟩
  | .beq rs1 rs2 _ | .bne rs1 rs2 _ | .blt rs1 rs2 _ => ⟨some rs1, some rs2, none⟩
  | .bge rs1 rs2 _ | .bltu rs1 rs2 _ | .bgeu rs1 rs2 _ => ⟨some rs1, some rs2, none⟩
  | .lb rd rs1 _ | .lh rd rs1 _ | .lw rd rs1 _ | .lbu rd rs1 _ | .lhu rd rs1 _ => ⟨some rs1, none, some rd⟩
  | .sb rs2 rs1 _ | .sh rs2 rs1 _ | .sw rs2 rs1 _ => ⟨some rs1, some rs2, none⟩
  | .system _ rs1 _ rd => ⟨some rs1, none, some rd⟩

/-! ## The opcode table (R154) -/

/-- The name of an instruction in spec/opcode_table.json. -/
def Instr.mnemonic : Instr → String
  | .halt => "HALT"
  | .nop => "NOP"
  | .add _ _ _ => "ADD"
  | .sub _ _ _ => "SUB"
  | .sll _ _ _ => "SLL"
  | .slt _ _ _ => "SLT"
  | .sltu _ _ _ => "SLTU"
  | .xor _ _ _ => "XOR"
  | .srl _ _ _ => "SRL"
  | .sra _ _ _ => "SRA"
  | .or _ _ _ => "OR"
  | .and _ _ _ => "AND"
  | .addi _ _ _ => "ADDI"
  | .slti _ _ _ => "SLTI"
  | .sltiu _ _ _ => "SLTIU"
  | .xori _ _ _ => "XORI"
  | .ori _ _ _ => "ORI"
  | .andi _ _ _ => "ANDI"
  | .slli _ _ _ => "SLLI"
  | .srli _ _ _ => "SRLI"
  | .srai _ _ _ => "SRAI"
  | .lui _ _ => "LUI"
  | .auipc _ _ => "AUIPC"
  | .jal _ _ => "JAL"
  | .jalr _ _ _ => "JALR"
  | .beq _ _ _ => "BEQ"
  | .bne _ _ _ => "BNE"
  | .blt _ _ _ => "BLT"
  | .bge _ _ _ => "BGE"
  | .bltu _ _ _ => "BLTU"
  | .bgeu _ _ _ => "BGEU"
  | .lb _ _ _ => "LB"
  | .lh _ _ _ => "LH"
  | .lw _ _ _ => "LW"
  | .lbu _ _ _ => "LBU"
  | .lhu _ _ _ => "LHU"
  | .sb _ _ _ => "SB"
  | .sh _ _ _ => "SH"
  | .sw _ _ _ => "SW"
  | .system _ _ _ _ => "SYSTEM"

/-- A row of the opcode table: `(raw & mask) == match` selects it (R154). -/
structure OpcodeRow where
  mnemonic : String
  pattern  : Word
  mask     : Word
  deriving DecidableEq, Repr

/-- A row matches a word. -/
def OpcodeRow.selects (r : OpcodeRow) (w : Word) : Bool := w &&& r.mask == r.pattern

/-- The HALT and NOP rows, which "take precedence over every other row" (R154). -/
def wholeWordRows : List OpcodeRow :=
  [⟨"HALT", 0xFEEDFEED#32, 0xFFFFFFFF#32⟩, ⟨"NOP", 0x00000013#32, 0xFFFFFFFF#32⟩]

/-- The OP rows of spec/opcode_table.json. -/
def opRows : List OpcodeRow :=
  [⟨"ADD", 0x00000033#32, 0xFE00707F#32⟩,
   ⟨"SUB", 0x40000033#32, 0xFE00707F#32⟩,
   ⟨"SLL", 0x00001033#32, 0xFE00707F#32⟩,
   ⟨"SLT", 0x00002033#32, 0xFE00707F#32⟩,
   ⟨"SLTU", 0x00003033#32, 0xFE00707F#32⟩,
   ⟨"XOR", 0x00004033#32, 0xFE00707F#32⟩,
   ⟨"SRL", 0x00005033#32, 0xFE00707F#32⟩,
   ⟨"SRA", 0x40005033#32, 0xFE00707F#32⟩,
   ⟨"OR", 0x00006033#32, 0xFE00707F#32⟩,
   ⟨"AND", 0x00007033#32, 0xFE00707F#32⟩]

/-- The OP_IMM, LUI and AUIPC rows of spec/opcode_table.json. -/
def immRows : List OpcodeRow :=
  [⟨"ADDI", 0x00000013#32, 0x0000707F#32⟩,
   ⟨"SLTI", 0x00002013#32, 0x0000707F#32⟩,
   ⟨"SLTIU", 0x00003013#32, 0x0000707F#32⟩,
   ⟨"XORI", 0x00004013#32, 0x0000707F#32⟩,
   ⟨"ORI", 0x00006013#32, 0x0000707F#32⟩,
   ⟨"ANDI", 0x00007013#32, 0x0000707F#32⟩,
   ⟨"SLLI", 0x00001013#32, 0xFE00707F#32⟩,
   ⟨"SRLI", 0x00005013#32, 0xFE00707F#32⟩,
   ⟨"SRAI", 0x40005013#32, 0xFE00707F#32⟩,
   ⟨"LUI", 0x00000037#32, 0x0000007F#32⟩,
   ⟨"AUIPC", 0x00000017#32, 0x0000007F#32⟩]

/-- The control-transfer rows of spec/opcode_table.json. -/
def controlRows : List OpcodeRow :=
  [⟨"JAL", 0x0000006F#32, 0x0000007F#32⟩,
   ⟨"JALR", 0x00000067#32, 0x0000707F#32⟩,
   ⟨"BEQ", 0x00000063#32, 0x0000707F#32⟩,
   ⟨"BNE", 0x00001063#32, 0x0000707F#32⟩,
   ⟨"BLT", 0x00004063#32, 0x0000707F#32⟩,
   ⟨"BGE", 0x00005063#32, 0x0000707F#32⟩,
   ⟨"BLTU", 0x00006063#32, 0x0000707F#32⟩,
   ⟨"BGEU", 0x00007063#32, 0x0000707F#32⟩]

/-- The LOAD, STORE and SYSTEM rows of spec/opcode_table.json. -/
def memoryRows : List OpcodeRow :=
  [⟨"LB", 0x00000003#32, 0x0000707F#32⟩,
   ⟨"LH", 0x00001003#32, 0x0000707F#32⟩,
   ⟨"LW", 0x00002003#32, 0x0000707F#32⟩,
   ⟨"LBU", 0x00004003#32, 0x0000707F#32⟩,
   ⟨"LHU", 0x00005003#32, 0x0000707F#32⟩,
   ⟨"SB", 0x00000023#32, 0x0000707F#32⟩,
   ⟨"SH", 0x00001023#32, 0x0000707F#32⟩,
   ⟨"SW", 0x00002023#32, 0x0000707F#32⟩,
   ⟨"SYSTEM", 0x00000073#32, 0x0000007F#32⟩]

/-- Every row but HALT and NOP. -/
def otherRows : List OpcodeRow := opRows ++ immRows ++ controlRows ++ memoryRows

end Sys2Proof
end

