-- ==== Sys2Proof/Machine/State.lean ====
section
/-! DEFINITION. The state of 375P2-CORE as plain data: everything 10_state.md gives the core, and the values a tick
works with (R329). `State.reset` is the state right after `init` (R61). -/

namespace Sys2Proof.Machine

/-- A latch's status (R40, R41). -/
inductive Status where
  | idle | normal | speculative | squashed | bubble
  deriving DecidableEq, Repr

/-- The exact instruction a latch holds, or RESERVED (R38, R144). -/
inductive Kind where
  | instr (i : Instr)
  | reserved
  deriving DecidableEq, Repr

/-- One stage latch: one instruction value (R38). -/
structure Latch where
  raw       : Word
  pc        : Word
  nextPc    : Word
  opcode    : OpClass
  kind      : Kind
  rs1       : Reg
  rs2       : Reg
  rd        : Reg
  imm       : Word
  readsRs1  : Bool
  readsRs2  : Bool
  writesRd  : Bool
  readsMem  : Bool
  writesMem : Bool
  doesArith : Bool
  op1Val    : Word
  op2Val    : Word
  aluResult : Word
  memAddr   : Word
  memResult : Word
  isNop     : Bool
  isHalt    : Bool
  isLegal   : Bool
  status    : Status
  deriving DecidableEq, Repr

/-- The five stage latches, exactly five (R37). -/
structure Latches where
  IF  : Latch
  ID  : Latch
  EX  : Latch
  MEM : Latch
  WB  : Latch
  deriving DecidableEq, Repr

/-- Whether the core runs, has halted, or stopped with an error (R52). -/
inductive Mode where
  | running | halted | errored
  deriving DecidableEq, Repr

/-- One way of a cache set (R53). The stamp is a natural (R108, log 9). -/
structure Way where
  valid    : Bool
  tag      : BitVec 64
  lruStamp : Nat
  deriving DecidableEq, Repr

/-- A cache: configuration, sets of ways, and its counters; no data bytes (R53, R54). -/
structure Cache where
  config : CacheConfig
  sets   : List (List Way)
  clock  : Nat
  hits   : Nat
  misses : Nat
  deriving DecidableEq, Repr

/-- The memory: `MEMORY_SIZE` bytes (R55). `cells` lists the bytes that are not 0, addresses rising (log 14). -/
structure Memory where
  size  : Nat
  cells : List Host.Cell
  deriving DecidableEq, Repr

/-- The two exceptions (R280). -/
inductive Cause where
  | memoryException
  | illegalInstruction
  deriving DecidableEq, Repr

/-- The observation-only annotation of the ERROR outcome (R287). -/
structure ErrorNote where
  cause   : Cause
  epc     : Word
  badaddr : Option Word
  deriving DecidableEq, Repr

/-- The snapshot record of one tick (R378). -/
structure Snapshot where
  cycle     : Nat
  ifPc      : Word
  ifStatus  : Status
  idInstr   : Word
  idStatus  : Status
  exInstr   : Word
  exStatus  : Status
  memInstr  : Word
  memStatus : Status
  wbInstr   : Word
  wbStatus  : Status
  deriving DecidableEq, Repr

/-- The final statistics record (R379). -/
structure Statistics where
  dynamicInstructions : Nat
  totalCycles : Nat
  icHits      : Nat
  icMisses    : Nat
  dcHits      : Nat
  dcMisses    : Nat
  loadStalls  : Nat
  deriving DecidableEq, Repr

/-- What the core emits to the host's `output_sink` (R320, R378, R379). -/
inductive SinkRecord where
  | snapshot (s : Snapshot)
  | statistics (s : Statistics)
  deriving DecidableEq, Repr

/-- The stage whose work is being done for one instruction (R342): `sim_id`, `sim_ex`, `sim_mem`, `sim_wb`. -/
inductive Stage where
  | decode | execute | memory | writeback
  deriving DecidableEq, Repr

/-- The working values of a tick (R329), the model's own (log 5): `new` holds `nIF` to `nWB`; `taken` holds the target
when a control instruction resolved taken. Between ticks it is `Work.rest`. -/
structure Work where
  stage   : Stage
  new     : Latches
  stall   : Bool
  count   : Nat
  lbeNext : Nat
  dNext   : Nat
  iNext   : Nat
  pcNext  : Word
  taken   : Option Word
  memExc  : Bool
  illegal : Bool
  haltNow : Bool
  deriving DecidableEq, Repr

/-- The whole state of the core (10_state.md). -/
structure State where
  regs                : Vector Word 32
  pc                  : Word
  latches             : Latches
  cycleCount          : Nat
  loadStallCount      : Nat
  iMissRemaining      : Nat
  dMissRemaining      : Nat
  loadBranchExtra     : Nat
  dynamicInstructions : Nat
  mode                : Mode
  ic                  : Cache
  dc                  : Cache
  memory              : Memory
  errorNote           : Option ErrorNote
  /-- What `output_sink` has received, newest first (log 7). -/
  sink                : List SinkRecord
  /-- Whether `finalize` has been called (R376, log 13). -/
  finalized           : Bool
  /-- The model's own: the index of the next draw of `Config.haltWinsTie` (log 4). -/
  drawIndex           : Nat
  /-- The model's own: the tick's working values (log 5). -/
  work                : Work
  deriving DecidableEq, Repr

/-- Faults. The spec has none: its two exceptions are taken (a next state with `mode` ERRORED, R286), and every other
stop is a refusal (R297). So no one raises a fault (log 16). -/
inductive Fault
  deriving DecidableEq, Repr

/-- Refusals: the spec's own points where it "gives the hardware no meaning" (R16, R297). All are safe: the model stops
where the spec claims nothing. -/
inductive Refusal where
  /-- An instruction of the table that has no meaning in this model yet; raised by `exec` alone. Safe. -/
  | notModelled (mnemonic : String)
  /-- A live load or store that passed the bound check is misaligned (R86). Raised by the MEM work of LH, LHU, LW, SH
  and SW. Safe. -/
  | misalignedData
  /-- A taken control instruction's target is not a multiple of 4 (R222, R351). Raised by the EX work of JAL, JALR and
  the branches. Safe. -/
  | misalignedTarget
  /-- A fetch at `a` with `a + 4 > MEMORY_SIZE` (R89). Raised by the IF step. Safe. -/
  | fetchOutOfRange
  /-- A RESERVED word decoded live into ID (R149). Raised by the ID step. Safe. -/
  | reservedEncoding
  /-- A SYSTEM word decoded live into ID (R262). Raised by the ID work of SYSTEM. Safe. -/
  | systemInstruction
  /-- `init` with a configuration, a size or an image it does not admit (R321). Raised by `init`. Safe. -/
  | invalidConfig
  /-- A tick or a host operation on a core that does not run (R377). Raised by `step` and the host operations. Safe. -/
  | notRunning
  deriving DecidableEq, Repr

/-! ## Reset -/

/-- `decode(0x00000013, 0)` with a status, written out: the fields of R43 and R44. -/
def Latch.nopAt0 (status : Status) : Latch :=
  { raw := Config.nopWord, pc := 0, nextPc := 4, opcode := .opImm, kind := .instr .nop,
    rs1 := 0, rs2 := 0, rd := 0, imm := 0,
    readsRs1 := true, readsRs2 := false, writesRd := false, readsMem := false, writesMem := false, doesArith := false,
    op1Val := 0, op2Val := 0, aluResult := 0, memAddr := 0, memResult := 0,
    isNop := true, isHalt := false, isLegal := true, status := status }

/-- `decode(0x00000000, 0)` with status SPECULATIVE, written out: what the initial fetch installs from an all-zero
image (R322); the word 0 is illegal (R148). -/
def Latch.resetFetch : Latch :=
  { raw := 0, pc := 0, nextPc := 4, opcode := .none, kind := .reserved,
    rs1 := 0, rs2 := 0, rd := 0, imm := 0,
    readsRs1 := false, readsRs2 := false, writesRd := false, readsMem := false, writesMem := false, doesArith := false,
    op1Val := 0, op2Val := 0, aluResult := 0, memAddr := 0, memResult := 0,
    isNop := false, isHalt := false, isLegal := false, status := .speculative }

/-- The working values between ticks (log 5). -/
def Work.rest : Work :=
  { stage := .decode,
    new := { IF := .nopAt0 .bubble, ID := .nopAt0 .bubble, EX := .nopAt0 .bubble, MEM := .nopAt0 .bubble,
             WB := .nopAt0 .bubble },
    stall := false, count := 0, lbeNext := 0, dNext := 0, iNext := 0, pcNext := 0, taken := none,
    memExc := false, illegal := false, haltNow := false }

/-- An invalid way as `init` leaves it (R61). -/
def Way.cold : Way := { valid := false, tag := 0, lruStamp := 0 }

/-- The state right after `init` (R61, R322, R323) for the parameters of log 1 and the all-zero image of log 2. -/
def State.reset : State :=
  { regs := Vector.replicate 32 0,
    pc := 4,
    latches := { IF := .resetFetch, ID := .nopAt0 .idle, EX := .nopAt0 .idle, MEM := .nopAt0 .idle,
                 WB := .nopAt0 .idle },
    cycleCount := 0, loadStallCount := 0, iMissRemaining := Config.resetCache.missLatency, dMissRemaining := 0,
    loadBranchExtra := 0, dynamicInstructions := 0,
    mode := .running,
    ic := { config := Config.resetCache,
            sets := [[{ valid := true, tag := 0, lruStamp := 1 }, .cold], [.cold, .cold]],
            clock := 1, hits := 0, misses := 1 },
    dc := { config := Config.resetCache, sets := [[.cold, .cold], [.cold, .cold]], clock := 0, hits := 0, misses := 0 },
    memory := { size := Config.resetMemorySize, cells := [] },
    errorNote := none, sink := [], finalized := false, drawIndex := 0, work := .rest }

end Sys2Proof.Machine
end

