-- ==== Sys2Proof/Machine/Cache.lean ====
section
/-! DEFINITION. The cache model: hit or miss, replacement and invalidation (R94 to R108). -/

namespace Sys2Proof

/-- `num_sets`, by integer division; 0 when there are no ways (R95). -/
def CacheConfig.numSets (c : CacheConfig) : Nat := c.cacheSize / c.blockSize / c.ways

/-- A cache with no sets, whose every access misses without side effect (R95, R105). -/
def CacheConfig.degenerate (c : CacheConfig) : Bool := c.numSets == 0

/-- `offset_bits = log2(block_size)` (R96). -/
def CacheConfig.offsetBits (c : CacheConfig) : Nat := c.blockSize.log2

/-- `index_bits = log2(num_sets)` (R96). -/
def CacheConfig.indexBits (c : CacheConfig) : Nat := c.numSets.log2

/-- A positive power of two. -/
def isPowerOfTwo (n : Nat) : Bool := 2 ^ n.log2 == n

/-- The ranges of R11; any `miss_latency` is admitted. -/
def CacheConfig.valid (c : CacheConfig) : Bool :=
  isPowerOfTwo c.cacheSize && isPowerOfTwo c.blockSize && isPowerOfTwo c.ways

/-- The set an address indexes: `(a >> offset_bits) & (num_sets - 1)` of the address extended to 64 bits (R97). -/
def CacheConfig.indexOf (c : CacheConfig) (a : Word) : Nat :=
  (a.zeroExtend 64 >>> c.offsetBits).toNat &&& (c.numSets - 1)

/-- The tag of an address: `a >> (offset_bits + index_bits)` (R97). -/
def CacheConfig.tagOf (c : CacheConfig) (a : Word) : BitVec 64 := a.zeroExtend 64 >>> (c.offsetBits + c.indexBits)

namespace Machine

/-- What an access answers (R17). -/
inductive CacheResult where
  | hit | miss
  deriving DecidableEq, Repr

/-- The operation of an access (R17). -/
inductive CacheOp where
  | read | write
  deriving DecidableEq, Repr

/-- A way that holds the tag (R100). -/
def Way.matches (w : Way) (tag : BitVec 64) : Bool := w.valid && w.tag == tag

/-- The ways of a set. -/
def Cache.setAt (c : Cache) (index : Nat) : List Way := c.sets.getD index []

/-- The lowest-numbered way with the smallest stamp (R100, R102, log 11). -/
def oldestWay : List Way → Nat
  | [] => 0
  | w :: rest =>
    match rest[oldestWay rest]? with
    | some o => if o.lruStamp < w.lruStamp then oldestWay rest + 1 else 0
    | none => 0

/-- The way a miss installs into: the first invalid way, else the least recently used (R100, R102). -/
def victimWay (ways : List Way) : Nat :=
  match ways.findIdx? (fun w => !w.valid) with
  | some v => v
  | none => oldestWay ways

/-- `C.access(a, op)` (R100, R105). The operation does not matter to placement (R103). -/
def Cache.access (c : Cache) (a : Word) (_op : CacheOp) : CacheResult × Cache :=
  if c.config.degenerate then (.miss, c)
  else
    let index := c.config.indexOf a
    let tag := c.config.tagOf a
    let ways := c.setAt index
    let stamp := c.clock + 1
    match ways.findIdx? (·.matches tag) with
    | some w =>
      (.hit, { c with
        hits := c.hits + 1, clock := stamp,
        sets := c.sets.set index (ways.modify w fun way => { way with lruStamp := stamp }) })
    | none =>
      (.miss, { c with
        misses := c.misses + 1, clock := stamp,
        sets := c.sets.set index (ways.set (victimWay ways) { valid := true, tag := tag, lruStamp := stamp }) })

/-- `C.invalidate(a)`: clears the valid bit of the matching way, if there is one (R104). -/
def Cache.invalidate (c : Cache) (a : Word) : Cache :=
  if c.config.degenerate then c
  else
    let index := c.config.indexOf a
    let ways := c.setAt index
    match ways.findIdx? (·.matches (c.config.tagOf a)) with
    | some w => { c with sets := c.sets.set index (ways.modify w fun way => { way with valid := false }) }
    | none => c

/-- A cache as `init` makes it before the initial fetch (R61). -/
def Cache.cold (config : CacheConfig) : Cache :=
  { config := config, sets := List.replicate config.numSets (List.replicate config.ways .cold),
    clock := 0, hits := 0, misses := 0 }

/-- The shape of a cache's tag array: `num_sets` sets of `ways` ways (R53, R98). -/
def Cache.shaped (c : Cache) : Bool :=
  c.sets.length == c.config.numSets && c.sets.all fun ways => ways.length == c.config.ways

end Machine
end Sys2Proof
end

