-- ==== Sys2Proof/Machine/Flags.lean ====
section
/-! DEFINITION. The controller flags of a latch. The core has no condition codes (R56): the only flags it computes are
these booleans, "derived from the opcode" (R145). -/

namespace Sys2Proof.Machine

/-- The six controller flags of a latch (R38, R145). -/
structure ControlFlags where
  readsRs1  : Bool
  readsRs2  : Bool
  writesRd  : Bool
  readsMem  : Bool
  writesMem : Bool
  doesArith : Bool
  deriving DecidableEq, Repr

/-- The table of R145: the flags of a class; `isNop` picks the second OP_IMM row. -/
def controlFlags (c : OpClass) (isNop : Bool) : ControlFlags :=
  match c with
  | .lui    => ⟨false, false, true, false, false, true⟩
  | .auipc  => ⟨false, false, true, false, false, true⟩
  | .jal    => ⟨false, false, true, false, false, true⟩
  | .jalr   => ⟨true, false, true, false, false, true⟩
  | .branch => ⟨true, true, false, false, false, false⟩
  | .load   => ⟨true, false, true, true, false, false⟩
  | .store  => ⟨true, true, false, false, true, false⟩
  | .opImm  => if isNop then ⟨true, false, false, false, false, false⟩ else ⟨true, false, true, false, false, true⟩
  | .op     => ⟨true, true, true, false, false, true⟩
  | .system => ⟨false, false, false, false, false, false⟩
  | .halt   => ⟨false, false, false, false, false, false⟩
  | .none   => ⟨false, false, false, false, false, false⟩

/-- A latch outside IF is live when its status is NORMAL (R42). -/
def Latch.live (l : Latch) : Bool := l.status == .normal

/-- The IF latch is live when its status is NORMAL or SPECULATIVE (R42). -/
def Latch.liveInFetch (l : Latch) : Bool := l.status == .normal || l.status == .speculative

/-- `is_control(L)`: the opcode is BRANCH, JAL or JALR (R329). -/
def Latch.isControl (l : Latch) : Bool := l.opcode == .branch || l.opcode == .jal || l.opcode == .jalr

end Sys2Proof.Machine
end

