-- ==== Sys2Proof/Machine/Ops.lean ====
section
/-! DEFINITION. The shared operations: registers, memory, making a latch, raising and taking an exception, committing. -/

namespace Sys2Proof.Machine

/-- The outcome of a part of a tick, and of the tick. -/
abbrev Result := Host.Outcome State Fault Refusal

/-- Goes on with the next state, and stops at a fault or a refusal (R16, R327). -/
def andThen (o : Result) (f : State → Result) : Result :=
  match o with
  | .next s => f s
  | .fault r => .fault r
  | .refused r => .refused r

/-! ## Registers (R30, R32) -/

/-- `x[r]`: register 0 reads 0 in every state (R32, log 19). -/
def State.readReg (s : State) (r : Reg) : Word := if r = 0 then 0 else s.regs[r.toNat]

/-- `x[r] <- v`, "with no effect when `i = 0`" (R14, R32). -/
def State.writeReg (s : State) (r : Reg) (v : Word) : State :=
  if r = 0 then s else { s with regs := s.regs.set r.toNat v }

/-! ## Memory (R80 to R85) -/

/-- The byte a list of cells gives an address: the listed byte, or 0 (log 14). -/
def readCell : List Host.Cell → Nat → Byte
  | [], _ => 0
  | (k, b) :: rest, a => if k = a then b else readCell rest a

/-- The list with one byte changed, in canonical form: addresses rising, no byte 0 listed. -/
def writeCell : List Host.Cell → Nat → Byte → List Host.Cell
  | [], a, b => if b = 0 then [] else [(a, b)]
  | (k, x) :: rest, a, b =>
    if a < k then (if b = 0 then (k, x) :: rest else (a, b) :: (k, x) :: rest)
    else if a = k then (if b = 0 then rest else (a, b) :: rest)
    else (k, x) :: writeCell rest a b

/-- Addresses strictly rising, every one at least `low`, and no byte 0 listed. -/
def cellsCanonical (low : Nat) : List Host.Cell → Bool
  | [] => true
  | (k, b) :: rest => decide (low ≤ k) && !(b == 0) && cellsCanonical (k + 1) rest

/-- The canonical form of a memory: `cells` canonical, and every listed address inside memory (R55, R91). -/
def Memory.wf (m : Memory) : Bool := cellsCanonical 0 m.cells && m.cells.all fun c => decide (c.1 < m.size)

/-- `mem[a]`. An address at or above `MEMORY_SIZE` "holds nothing" (R91): every access is checked before it is made, so
the 0 read there reaches no run (log 18). -/
def Memory.byteAt (m : Memory) (a : Nat) : Byte := if a < m.size then readCell m.cells a else 0

/-- `mem[a] <- b`; outside memory nothing is written (R91, log 18). -/
def Memory.setByte (m : Memory) (a : Nat) (b : Byte) : Memory :=
  if a < m.size then { m with cells := writeCell m.cells a b } else m

/-- `MemRead(a, 1)` (R83). -/
def Memory.read8 (m : Memory) (a : Nat) : BitVec 8 := m.byteAt a

/-- `MemRead(a, 2)`, little-endian (R82, R83). -/
def Memory.read16 (m : Memory) (a : Nat) : BitVec 16 := m.byteAt (a + 1) ++ m.byteAt a

/-- `MemRead(a, 4)`, little-endian (R82, R83). -/
def Memory.read32 (m : Memory) (a : Nat) : Word :=
  m.byteAt (a + 3) ++ m.byteAt (a + 2) ++ m.byteAt (a + 1) ++ m.byteAt a

/-- `MemWrite(a, n, v)`: `mem[a+k] <- v[8k+7:8k]` for `k = 0 .. n-1` (R84). -/
def Memory.write (m : Memory) (a : Nat) : Nat → Word → Memory
  | 0, _ => m
  | n + 1, v => (m.write a n v).setByte (a + n) (v.extractLsb' (8 * n) 8)

/-! ## Making latches (R43, R44, R144) -/

/-- The latch of an instruction at an address: the fields R144 sets, flags from R145, value fields 0. The register
fields the instruction's format does not have are the bits of `raw` in their places (R131, log 15). -/
def latchOf (i : Instr) (raw pc : Word) (status : Status) : Latch :=
  let f := controlFlags i.opClass (i == .nop)
  { raw := raw, pc := pc, nextPc := pc + 4, opcode := i.opClass, kind := .instr i,
    rs1 := i.regFields.rs1.getD (rs1Of raw), rs2 := i.regFields.rs2.getD (rs2Of raw),
    rd := i.regFields.rd.getD (rdOf raw), imm := i.imm,
    readsRs1 := f.readsRs1, readsRs2 := f.readsRs2, writesRd := f.writesRd,
    readsMem := f.readsMem, writesMem := f.writesMem, doesArith := f.doesArith,
    op1Val := 0, op2Val := 0, aluResult := 0, memAddr := 0, memResult := 0,
    isNop := i == .nop, isHalt := i == .halt, isLegal := true, status := status }

/-- The latch of a word that is no instruction of the table: of class `c`, kind RESERVED (R149), or illegal (R148;
its kind is log 6). -/
def latchOfNoInstr (c : OpClass) (legal : Bool) (raw pc : Word) (status : Status) : Latch :=
  let f := controlFlags c false
  { raw := raw, pc := pc, nextPc := pc + 4, opcode := c, kind := .reserved,
    rs1 := rs1Of raw, rs2 := rs2Of raw, rd := rdOf raw, imm := 0,
    readsRs1 := f.readsRs1, readsRs2 := f.readsRs2, writesRd := f.writesRd,
    readsMem := f.readsMem, writesMem := f.writesMem, doesArith := f.doesArith,
    op1Val := 0, op2Val := 0, aluResult := 0, memAddr := 0, memResult := 0,
    isNop := false, isHalt := false, isLegal := legal, status := status }

/-- `decode(raw, pc)` with a status: total on every word (R144). -/
def decodeLatch (raw pc : Word) (status : Status) : Latch :=
  match decodeWord raw with
  | .instr i => latchOf i raw pc status
  | .reserved c => latchOfNoInstr c true raw pc status
  | .illegal => latchOfNoInstr .none false raw pc status

/-- `BUBBLE_LATCH` (R43). -/
def bubbleLatch : Latch := decodeLatch Config.nopWord 0 .bubble

/-- `IDLE_LATCH` (R44). -/
def idleLatch : Latch := decodeLatch Config.nopWord 0 .idle

/-- `HANDLER_LATCH`: `decode(0x00000013, 0x8000)` with status SQUASHED (R362). -/
def handlerLatch : Latch := decodeLatch Config.nopWord Config.handler .squashed

/-- A latch with its status made SQUASHED. -/
def Latch.squash (l : Latch) : Latch := { l with status := .squashed }

/-! ## The new latches of a tick -/

def State.setNewIF (s : State) (l : Latch) : State := { s with work := { s.work with new := { s.work.new with IF := l } } }
def State.setNewID (s : State) (l : Latch) : State := { s with work := { s.work with new := { s.work.new with ID := l } } }
def State.setNewEX (s : State) (l : Latch) : State := { s with work := { s.work with new := { s.work.new with EX := l } } }
def State.setNewMEM (s : State) (l : Latch) : State := { s with work := { s.work with new := { s.work.new with MEM := l } } }
def State.setNewWB (s : State) (l : Latch) : State := { s with work := { s.work with new := { s.work.new with WB := l } } }

/-- The state with its work set to a stage. -/
def State.atStage (s : State) (stage : Stage) : State := { s with work := { s.work with stage := stage } }

/-! ## Exceptions (R280 to R288) -/

/-- The load or store entering MEM raises `MemoryException`: it becomes SQUASHED, and no access is made (R281, R329). -/
def raiseMemoryException (s : State) : State :=
  let s := s.setNewMEM s.work.new.MEM.squash
  { s with work := { s.work with memExc := true } }

/-- The word decoded into ID raises `IllegalInstruction` (R282, R329). -/
def raiseIllegalInstruction (s : State) : State := { s with work := { s.work with illegal := true } }

/-- `exc`: this tick raises an exception (R329). -/
def Work.exc (w : Work) : Bool := w.memExc || w.illegal

/-- The annotation of the exception this tick raises (R287): the raising instruction's address, and for
`MemoryException` the address accessed. The older instruction, in MEM, wins (R285, log 8). -/
def Work.note (w : Work) : ErrorNote :=
  if w.memExc then { cause := .memoryException, epc := w.new.MEM.pc, badaddr := some w.new.MEM.memAddr }
  else { cause := .illegalInstruction, epc := w.new.ID.pc, badaddr := none }

/-- Trap entry, the same for both exceptions (R284, R286): the younger stages squashed, the handler latch in IF, `pc` at
the handler, every pending stall cleared. The MEM latch of a `MemoryException` is squashed where it is raised. -/
def takeException (s : State) : State :=
  let w := s.work
  { s with
    errorNote := some w.note
    work := { w with
      new := { w.new with IF := handlerLatch, ID := w.new.ID.squash,
                          EX := if w.memExc then w.new.EX.squash else w.new.EX }
      pcNext := Config.handler, iNext := 0, dNext := 0, lbeNext := 0
      count := if w.memExc then 0 else w.count } }

/-! ## Commit (R331 to R334) -/

/-- The value a latch writes to its register: the load value, or the ALU result or link (R333). -/
def Latch.writeValue (l : Latch) : Word := if l.readsMem then l.memResult else l.aluResult

/-- `sim_wb` and the retirement of the NORMAL latch in WB (R333, R334). -/
def commit (s : State) : State :=
  let l := s.work.new.WB
  let s := if l.writesRd then s.writeReg l.rd l.writeValue else s
  { s with
    dynamicInstructions := s.dynamicInstructions + 1
    work := { s.work with haltNow := l.isHalt } }

end Sys2Proof.Machine
end

