-- ==== Sys2Proof/Machine/Operands.lean ====
section
/-! DEFINITION. Operands: their capture in ID (R357, R358), their forwarding (R346), store-data forwarding (R339), and
the hazards that make a consumer wait (R335 to R337). -/

namespace Sys2Proof.Machine

/-- `capture(L)`: an operand read takes the register's value, an operand not read is 0 (R357). -/
def State.capture (s : State) (l : Latch) : Latch :=
  { l with
    op1Val := if l.readsRs1 then s.readReg l.rs1 else 0
    op2Val := if l.readsRs2 then s.readReg l.rs2 else 0 }

/-! ## Forwarding -/

/-- A live latch that will write register `r`: a source of forwarding when it has the value (R346). -/
def Latch.feeds (l : Latch) (r : Reg) : Bool := l.live && l.writesRd && l.rd == r

/-- One operand after forwarding: the first source that applies, in the order EX→ID, MEM→ID load, MEM→ID ALU (R346). -/
def forwardOperand (reads : Bool) (r : Reg) (captured : Word) (ex mem : Latch) : Word :=
  if reads && r != 0 then
    if ex.feeds r && ex.doesArith then ex.aluResult
    else if mem.feeds r && mem.readsMem then mem.memResult
    else if mem.feeds r && mem.doesArith then mem.aluResult
    else captured
  else captured

/-- `forward(D, EX', MEM')` (R346). -/
def forward (d ex mem : Latch) : Latch :=
  { d with
    op1Val := forwardOperand d.readsRs1 d.rs1 d.op1Val ex mem
    op2Val := forwardOperand d.readsRs2 d.rs2 d.op2Val ex mem }

/-- Store-data forwarding into the store that enters MEM, from the load that moves to WB (R339). -/
def storeDataForward (e mem : Latch) : Latch :=
  if e.live && e.writesMem && !e.readsMem && e.readsRs2 && e.rs2 != 0 && mem.feeds e.rs2 && mem.readsMem then
    { e with op2Val := mem.memResult }
  else e

/-! ## Hazards -/

/-- What hazard detection answers: whether the tick stalls, the next `load_branch_extra`, and the stall count (R329). -/
structure Hazard where
  stall   : Bool
  lbeNext : Nat
  count   : Nat
  deriving DecidableEq, Repr

/-- `ex_writes` (R335). -/
def exWrites (ex : Latch) : Bool := ex.writesRd && ex.rd != 0
/-- `ex_is_load` (R335). -/
def exIsLoad (ex : Latch) : Bool := ex.readsMem && exWrites ex
/-- `ex_is_arith` (R335). -/
def exIsArith (ex : Latch) : Bool := ex.doesArith && exWrites ex
/-- `id_is_branch` (R335). -/
def idIsBranch (id : Latch) : Bool := id.isControl && !id.isNop
/-- `id_is_store` (R335). -/
def idIsStore (id : Latch) : Bool := id.writesMem && !id.readsMem
/-- `haz1` (R335). -/
def haz1 (id ex : Latch) : Bool := id.readsRs1 && id.rs1 == ex.rd
/-- `haz2` (R335). -/
def haz2 (id ex : Latch) : Bool := id.readsRs2 && id.rs2 == ex.rd

/-- The load-branch row's condition (R337). -/
def loadBranchHazard (id ex : Latch) : Bool := exIsLoad ex && idIsBranch id && (haz1 id ex || haz2 id ex)
/-- The load-use row's condition (R337). -/
def loadUseHazard (id ex : Latch) : Bool :=
  exIsLoad ex && !idIsBranch id && (haz1 id ex || (haz2 id ex && !idIsStore id))
/-- The arith-branch row's condition (R337). -/
def arithBranchHazard (id ex : Latch) : Bool := exIsArith ex && idIsBranch id && (haz1 id ex || haz2 id ex)

/-- `hazard(ID', EX', load_branch_extra)`: the second cycle of a load-branch stall (R336), else the first row of the
table that holds between live latches (R335, R337). -/
def hazard (id ex : Latch) (loadBranchExtra : Nat) : Hazard :=
  if loadBranchExtra > 0 then ⟨true, loadBranchExtra - 1, 0⟩
  else if id.live && ex.live then
    if loadBranchHazard id ex then ⟨true, 1, 1⟩
    else if loadUseHazard id ex then ⟨true, loadBranchExtra, 1⟩
    else if arithBranchHazard id ex then ⟨true, loadBranchExtra, 0⟩
    else ⟨false, loadBranchExtra, 0⟩
  else ⟨false, loadBranchExtra, 0⟩

end Sys2Proof.Machine
end

