-- ==== Sys2Proof/Machine/Stages.lean ====
section
/-! DEFINITION. What an instruction does in each stage of a tick, once for each shape of instruction (R240, R170, R220,
R342). A meaning works on the new latch of its stage: `work.new.ID` in decode, `.EX` in execute, `.MEM` in memory,
`.WB` in writeback. -/

namespace Sys2Proof.Machine

/-- `sim_id`: the fetched latch in ID becomes the instruction's latch (R144); if it is live, its operands are captured
from the register file (R357, R359). -/
def enterId (i : Instr) (s : State) : State :=
  let f := s.work.new.ID
  let l := latchOf i f.raw f.pc f.status
  s.setNewID (if l.live then s.capture l else l)

/-- `alu_result <- v` of the latch in EX (R349). -/
def setAluResult (v : Word) (s : State) : State := s.setNewEX { s.work.new.EX with aluResult := v }

/-- `mem_addr <- (op1_val + imm) mod 2^32` of the latch in EX (R241, R349). -/
def setMemAddr (s : State) : State :=
  s.setNewEX { s.work.new.EX with memAddr := s.work.new.EX.op1Val + s.work.new.EX.imm }

/-- Control resolution of the latch in EX with the next pc `resolve(L)` (R222, R350 to R353): suppressed when the tick
raised `MemoryException` (R352); a taken target that is not a multiple of 4 is refused (R351). -/
def resolveTo (nextPc : Word) (s : State) : Result :=
  if s.work.memExc then .next s
  else
    let l := { s.work.new.EX with nextPc := nextPc }
    let s := s.setNewEX l
    if nextPc = l.pc + 4 then .next s
    else if nextPc.toNat % 4 ≠ 0 then .refused .misalignedTarget
    else .next { s with work := { s.work with taken := some nextPc } }

/-- The MEM-stage action of a load or store of width `n` (R242, R254): the bound check, the alignment check, one D-cache
access with its miss, and the memory access `perform` (given the address). -/
def accessMemory (n : Nat) (op : CacheOp) (perform : Nat → State → State) (s : State) : Result :=
  let a := s.work.new.MEM.memAddr
  if s.memory.size ≤ a.toNat then .next (raiseMemoryException s)
  else if a.toNat % n ≠ 0 then .refused .misalignedData
  else
    let r := s.dc.access a op
    let s := perform a.toNat { s with dc := r.2 }
    match r.1 with
    | .hit => .next s
    | .miss => .next { s with work := { s.work with dNext := s.dc.config.missLatency } }

/-- `mem_result <- extend(MemRead(mem_addr, n))` of the latch in MEM (R242). -/
def performLoad (read : Memory → Nat → Word) (a : Nat) (s : State) : State :=
  s.setNewMEM { s.work.new.MEM with memResult := read s.memory a }

/-- `MemWrite(mem_addr, n, s)` with the store data of the latch in MEM (R242, R250). -/
def performStore (n : Nat) (a : Nat) (s : State) : State :=
  { s with memory := s.memory.write a n s.work.new.MEM.op2Val }

/-! ## The shapes of instructions -/

/-- An instruction that computes one value in EX and writes it at WB (R170, R172). -/
def computing (i : Instr) (result : Latch → Word) (s : State) : Result :=
  match s.work.stage with
  | .decode => .next (enterId i s)
  | .execute => .next (setAluResult (result s.work.new.EX) s)
  | .memory => .next s
  | .writeback => .next (commit s)

/-- A jump: it resolves, and its link is its ALU result (R225, R226, R349). -/
def jumping (i : Instr) (target : Latch → Word) (s : State) : Result :=
  match s.work.stage with
  | .decode => .next (enterId i s)
  | .execute => andThen (resolveTo (target s.work.new.EX) s) fun s => .next (setAluResult (s.work.new.EX.pc + 4) s)
  | .memory => .next s
  | .writeback => .next (commit s)

/-- A conditional branch: it resolves to `pc + imm` or `pc + 4` (R221, R227 to R232), and EX changes no other field
(R349). -/
def branching (i : Instr) (condition : Word → Word → Bool) (s : State) : Result :=
  match s.work.stage with
  | .decode => .next (enterId i s)
  | .execute =>
    let l := s.work.new.EX
    resolveTo (if condition l.op1Val l.op2Val then l.pc + l.imm else l.pc + 4) s
  | .memory => .next s
  | .writeback => .next (commit s)

/-- A load of width `n` (R240, R242). -/
def loading (i : Instr) (n : Nat) (read : Memory → Nat → Word) (s : State) : Result :=
  match s.work.stage with
  | .decode => .next (enterId i s)
  | .execute => .next (setMemAddr s)
  | .memory => accessMemory n .read (performLoad read) s
  | .writeback => .next (commit s)

/-- A store of width `n` (R240, R242). -/
def storing (i : Instr) (n : Nat) (s : State) : Result :=
  match s.work.stage with
  | .decode => .next (enterId i s)
  | .execute => .next (setMemAddr s)
  | .memory => accessMemory n .write (performStore n) s
  | .writeback => .next (commit s)

end Sys2Proof.Machine
end

