-- ==== Sys2Proof/Machine/Control.lean ====
section
/-! DEFINITION. The control-transfer instructions (R220 to R238): the comparisons and targets of `resolve(L)` (R221). -/

namespace Sys2Proof.Machine

/-- R225: to `pc + imm`. -/
def execJal (rd : Reg) (offset : BitVec 21) (s : State) : Result :=
  jumping (.jal rd offset) (fun l => l.pc + l.imm) s

/-- R226: to `a + imm` with bit 0 cleared. -/
def execJalr (rd rs1 : Reg) (imm : BitVec 12) (s : State) : Result :=
  jumping (.jalr rd rs1 imm) (fun l => (l.op1Val + l.imm) &&& 0xFFFFFFFE#32) s

/-- R227. -/
def execBeq (rs1 rs2 : Reg) (offset : BitVec 13) (s : State) : Result :=
  branching (.beq rs1 rs2 offset) (fun a b => a == b) s

/-- R228. -/
def execBne (rs1 rs2 : Reg) (offset : BitVec 13) (s : State) : Result :=
  branching (.bne rs1 rs2 offset) (fun a b => a != b) s

/-- R229. -/
def execBlt (rs1 rs2 : Reg) (offset : BitVec 13) (s : State) : Result :=
  branching (.blt rs1 rs2 offset) (fun a b => decide (a.toInt < b.toInt)) s

/-- R230. -/
def execBge (rs1 rs2 : Reg) (offset : BitVec 13) (s : State) : Result :=
  branching (.bge rs1 rs2 offset) (fun a b => decide (a.toInt ≥ b.toInt)) s

/-- R231. -/
def execBltu (rs1 rs2 : Reg) (offset : BitVec 13) (s : State) : Result :=
  branching (.bltu rs1 rs2 offset) (fun a b => decide (a.toNat < b.toNat)) s

/-- R232. -/
def execBgeu (rs1 rs2 : Reg) (offset : BitVec 13) (s : State) : Result :=
  branching (.bgeu rs1 rs2 offset) (fun a b => decide (a.toNat ≥ b.toNat)) s

end Sys2Proof.Machine
end

