-- ==== Sys2Proof/Machine/Integer.lean ====
section
/-! DEFINITION. The integer computational instructions (R170 to R196). In each rule `a` is `op1Val`, `b` is `op2Val`,
`imm` and `pc` are the latch's own (R171). -/

namespace Sys2Proof.Machine

/-- The amount of a shift: the low five bits (R173). -/
def shiftAmount (v : Word) : Nat := (v.extractLsb' 0 5).toNat

/-- 1 if the condition holds, else 0 (R177, R178, R185, R186). -/
def boolWord (b : Bool) : Word := if b then 1 else 0

/-! ## OP (R174 to R183) -/

/-- R174. -/
def execAdd (rd rs1 rs2 : Reg) (s : State) : Result :=
  computing (.add rd rs1 rs2) (fun l => l.op1Val + l.op2Val) s

/-- R175. -/
def execSub (rd rs1 rs2 : Reg) (s : State) : Result :=
  computing (.sub rd rs1 rs2) (fun l => l.op1Val - l.op2Val) s

/-- R176. -/
def execSll (rd rs1 rs2 : Reg) (s : State) : Result :=
  computing (.sll rd rs1 rs2) (fun l => l.op1Val <<< shiftAmount l.op2Val) s

/-- R177. -/
def execSlt (rd rs1 rs2 : Reg) (s : State) : Result :=
  computing (.slt rd rs1 rs2) (fun l => boolWord (decide (l.op1Val.toInt < l.op2Val.toInt))) s

/-- R178. -/
def execSltu (rd rs1 rs2 : Reg) (s : State) : Result :=
  computing (.sltu rd rs1 rs2) (fun l => boolWord (decide (l.op1Val.toNat < l.op2Val.toNat))) s

/-- R179. -/
def execXor (rd rs1 rs2 : Reg) (s : State) : Result :=
  computing (.xor rd rs1 rs2) (fun l => l.op1Val ^^^ l.op2Val) s

/-- R180. -/
def execSrl (rd rs1 rs2 : Reg) (s : State) : Result :=
  computing (.srl rd rs1 rs2) (fun l => l.op1Val >>> shiftAmount l.op2Val) s

/-- R181. -/
def execSra (rd rs1 rs2 : Reg) (s : State) : Result :=
  computing (.sra rd rs1 rs2) (fun l => l.op1Val.sshiftRight (shiftAmount l.op2Val)) s

/-- R182. -/
def execOr (rd rs1 rs2 : Reg) (s : State) : Result :=
  computing (.or rd rs1 rs2) (fun l => l.op1Val ||| l.op2Val) s

/-- R183. -/
def execAnd (rd rs1 rs2 : Reg) (s : State) : Result :=
  computing (.and rd rs1 rs2) (fun l => l.op1Val &&& l.op2Val) s

/-! ## OP_IMM (R184 to R192) -/

/-- R184. -/
def execAddi (rd rs1 : Reg) (imm : BitVec 12) (s : State) : Result :=
  computing (.addi rd rs1 imm) (fun l => l.op1Val + l.imm) s

/-- R185. -/
def execSlti (rd rs1 : Reg) (imm : BitVec 12) (s : State) : Result :=
  computing (.slti rd rs1 imm) (fun l => boolWord (decide (l.op1Val.toInt < l.imm.toInt))) s

/-- R186: the sign-extended immediate is compared as unsigned. -/
def execSltiu (rd rs1 : Reg) (imm : BitVec 12) (s : State) : Result :=
  computing (.sltiu rd rs1 imm) (fun l => boolWord (decide (l.op1Val.toNat < l.imm.toNat))) s

/-- R187. -/
def execXori (rd rs1 : Reg) (imm : BitVec 12) (s : State) : Result :=
  computing (.xori rd rs1 imm) (fun l => l.op1Val ^^^ l.imm) s

/-- R188. -/
def execOri (rd rs1 : Reg) (imm : BitVec 12) (s : State) : Result :=
  computing (.ori rd rs1 imm) (fun l => l.op1Val ||| l.imm) s

/-- R189. -/
def execAndi (rd rs1 : Reg) (imm : BitVec 12) (s : State) : Result :=
  computing (.andi rd rs1 imm) (fun l => l.op1Val &&& l.imm) s

/-- R190. -/
def execSlli (rd rs1 : Reg) (shamt : BitVec 5) (s : State) : Result :=
  computing (.slli rd rs1 shamt) (fun l => l.op1Val <<< shiftAmount l.imm) s

/-- R191. -/
def execSrli (rd rs1 : Reg) (shamt : BitVec 5) (s : State) : Result :=
  computing (.srli rd rs1 shamt) (fun l => l.op1Val >>> shiftAmount l.imm) s

/-- R192. -/
def execSrai (rd rs1 : Reg) (shamt : BitVec 5) (s : State) : Result :=
  computing (.srai rd rs1 shamt) (fun l => l.op1Val.sshiftRight (shiftAmount l.imm)) s

/-! ## Upper immediates (R193, R194) -/

/-- R193. -/
def execLui (rd : Reg) (imm : BitVec 20) (s : State) : Result :=
  computing (.lui rd imm) (fun l => l.imm) s

/-- R194: `pc` is the instruction's own address. -/
def execAuipc (rd : Reg) (imm : BitVec 20) (s : State) : Result :=
  computing (.auipc rd imm) (fun l => l.pc + l.imm) s

end Sys2Proof.Machine
end

