-- ==== Sys2Proof/Machine/LoadStore.lean ====
section
/-! DEFINITION. The load and store instructions (R240 to R255). -/

namespace Sys2Proof.Machine

/-! ## Loads (R243 to R247) -/

/-- R243: `sext_8`. -/
def execLb (rd rs1 : Reg) (imm : BitVec 12) (s : State) : Result :=
  loading (.lb rd rs1 imm) 1 (fun m a => (m.read8 a).signExtend 32) s

/-- R244: `sext_16`. -/
def execLh (rd rs1 : Reg) (imm : BitVec 12) (s : State) : Result :=
  loading (.lh rd rs1 imm) 2 (fun m a => (m.read16 a).signExtend 32) s

/-- R245. -/
def execLw (rd rs1 : Reg) (imm : BitVec 12) (s : State) : Result :=
  loading (.lw rd rs1 imm) 4 (fun m a => m.read32 a) s

/-- R246: `zext_8`. -/
def execLbu (rd rs1 : Reg) (imm : BitVec 12) (s : State) : Result :=
  loading (.lbu rd rs1 imm) 1 (fun m a => (m.read8 a).zeroExtend 32) s

/-- R247: `zext_16`. -/
def execLhu (rd rs1 : Reg) (imm : BitVec 12) (s : State) : Result :=
  loading (.lhu rd rs1 imm) 2 (fun m a => (m.read16 a).zeroExtend 32) s

/-! ## Stores (R248 to R250) -/

/-- R248. -/
def execSb (rs2 rs1 : Reg) (imm : BitVec 12) (s : State) : Result := storing (.sb rs2 rs1 imm) 1 s

/-- R249. -/
def execSh (rs2 rs1 : Reg) (imm : BitVec 12) (s : State) : Result := storing (.sh rs2 rs1 imm) 2 s

/-- R250. -/
def execSw (rs2 rs1 : Reg) (imm : BitVec 12) (s : State) : Result := storing (.sw rs2 rs1 imm) 4 s

end Sys2Proof.Machine
end

