-- ==== Sys2Proof/Machine/System.lean ====
section
/-! DEFINITION. HALT, NOP and SYSTEM (R260 to R264). -/

namespace Sys2Proof.Machine

/-- R260, R261: nothing in EX and MEM; at WB it commits, and its commit halts (`commit` hands `is_halt` on). -/
def execHalt (s : State) : Result :=
  match s.work.stage with
  | .decode => .next (enterId .halt s)
  | .execute => .next s
  | .memory => .next s
  | .writeback => .next (commit s)

/-- R264: `alu_result <- 0` in EX, nothing in MEM, a commit that writes nothing at WB. -/
def execNop (s : State) : Result :=
  match s.work.stage with
  | .decode => .next (enterId .nop s)
  | .execute => .next (setAluResult 0 s)
  | .memory => .next s
  | .writeback => .next (commit s)

/-- R262: a SYSTEM word decoded live is refused; one that is squashed as it enters ID "is never refused" and is only
decoded. No SYSTEM latch is live in a later stage. -/
def execSystem (imm : BitVec 12) (rs1 : Reg) (funct3 : BitVec 3) (rd : Reg) (s : State) : Result :=
  match s.work.stage with
  | .decode =>
    if s.work.new.ID.live then .refused .systemInstruction
    else .next (enterId (.system imm rs1 funct3 rd) s)
  | .execute | .memory | .writeback => .refused .systemInstruction

end Sys2Proof.Machine
end

