-- ==== Sys2Proof/Machine/Pipeline.lean ====
section
/-! DEFINITION. The tick (R326 to R373): its stages in D0's order WB, hazards, MEM, EX, ID, IF, and its end. Every stage
reads the start-of-tick snapshot `s.latches` and makes its part of `s.work`. -/

namespace Sys2Proof.Machine

/-- The work of a live latch's instruction in the present stage. A live latch outside IF is never RESERVED, since R149
refuses it as it is decoded (log 10). -/
def execKind (k : Kind) (s : State) : Result :=
  match k with
  | .instr i => exec i s
  | .reserved => .refused .reservedEncoding

/-- The working values at the start of a tick: nothing raised, nothing taken, `pc` and the I-miss as they stand. -/
def beginTick (s : State) : State :=
  { s with work := { Work.rest with iNext := s.iMissRemaining, pcNext := s.pc } }

/-- WB (R331 to R334): `nWB <- MEM'`, and a NORMAL latch commits. -/
def wbStage (s : State) : Result :=
  let l := s.latches.MEM
  let s := (s.setNewWB l).atStage .writeback
  if l.live then execKind l.kind s else .next s

/-- Hazard detection on the snapshot (R335 to R337). -/
def hazardStage (s : State) : State :=
  let h := hazard s.latches.ID s.latches.EX s.loadBranchExtra
  { s with work := { s.work with stall := h.stall, lbeNext := h.lbeNext, count := h.count } }

/-- MEM (R339 to R341): store-data forwarding, then the live latch's memory work; `nMEM` is its latch. -/
def memStage (s : State) : Result :=
  let e := storeDataForward s.latches.EX s.latches.MEM
  let s := (s.setNewMEM e).atStage .memory
  if e.live then execKind e.kind s else .next s

/-- EX (R344 to R352): a bubble in a stall; else `ID'`, forwarded, resolved and executed when it is live. -/
def exStage (s : State) : Result :=
  let d := s.latches.ID
  if s.work.stall then .next (s.setNewEX bubbleLatch)
  else if d.live then
    execKind d.kind ((s.setNewEX (forward d s.latches.EX s.latches.MEM)).atStage .execute)
  else .next (s.setNewEX d)

/-- The status a decoded latch gets (R359). -/
def decodeStatus (s : State) : Status :=
  if s.latches.IF.status == .squashed || s.work.taken.isSome || s.work.memExc then .squashed else .normal

/-- The decode of `IF'` into ID (R144, R359, R360): an instruction does its ID work; a RESERVED word is refused when
live; an illegal word raises when live. -/
def decodeInto (s : State) : Result :=
  let f := { s.latches.IF with status := decodeStatus s }
  let s := (s.setNewID f).atStage .decode
  match decodeWord f.raw with
  | .instr i => exec i s
  | .reserved c =>
    if f.live then .refused .reservedEncoding else .next (s.setNewID (latchOfNoInstr c true f.raw f.pc f.status))
  | .illegal =>
    let s := s.setNewID (latchOfNoInstr .none false f.raw f.pc f.status)
    .next (if f.live then raiseIllegalInstruction s else s)

/-- ID (R355 to R361): held and recaptured in a stall, a bubble while an I-miss is pending, else the decode of `IF'`. -/
def idStage (s : State) : Result :=
  let d := s.latches.ID
  if s.work.stall then .next (s.setNewID (if d.live then s.capture d else d))
  else if s.iMissRemaining > 0 then
    .next (s.setNewID (if s.work.taken.isSome then bubbleLatch.squash else bubbleLatch))
  else decodeInto s

/-- A taken resolution's end in IF (R353, R368, R369): the outstanding fetch's line is invalidated, the new IF latch is
squashed, the I-miss is cancelled, and the target is next. -/
def redirect (outstanding : Bool) (s : State) : State :=
  match s.work.taken with
  | none => s
  | some target =>
    let l := s.work.new.IF
    let s := s.setNewIF l.squash
    { s with
      ic := if outstanding then s.ic.invalidate l.pc else s.ic
      work := { s.work with iNext := 0, pcNext := target } }

/-- The status of a new fetch: SPECULATIVE exactly when the new ID latch is a live control instruction (R365). -/
def fetchStatus (s : State) : Status :=
  if s.work.new.ID.live && s.work.new.ID.isControl then .speculative else .normal

/-- The fetch at `pc` (R366, R367): refused beyond memory (R89); one I-cache access; the word as memory stands now. -/
def fetchStage (s : State) : Result :=
  if s.memory.size < s.pc.toNat + 4 then .refused .fetchOutOfRange
  else
    let r := s.ic.access s.pc .read
    let l := decodeLatch (s.memory.read32 s.pc.toNat) s.pc (fetchStatus s)
    let s := { s.setNewIF l with ic := r.2 }
    let s := { s with work := { s.work with
      pcNext := s.pc + 4, iNext := if r.1 = .miss then r.2.config.missLatency else s.work.iNext } }
    .next (redirect (r.1 == .miss) s)

/-- The IF step of a stall tick (R364): the latch is held; with no I-miss pending its address is accessed again in the
I-cache, which counts and updates LRU only; an address beyond memory is refused (R89, R297, log 17). -/
def refetchStage (s : State) : Result :=
  let l := s.latches.IF
  let s := s.setNewIF l
  if s.iMissRemaining = 0 then
    if s.memory.size < l.pc.toNat + 4 then .refused .fetchOutOfRange
    else .next { s with ic := (s.ic.access l.pc .read).2 }
  else .next { s with work := { s.work with iNext := s.iMissRemaining - 1 } }

/-- The I-miss wait (R363): the latch is held and the counter decrements. -/
def waitStage (s : State) : State :=
  let s := s.setNewIF s.latches.IF
  redirect true { s with work := { s.work with iNext := s.iMissRemaining - 1 } }

/-- IF (R362 to R369), and trap entry in a tick that raised an exception (R286). -/
def ifStage (s : State) : Result :=
  if s.work.exc then .next (takeException s)
  else if s.work.stall then refetchStage s
  else if s.iMissRemaining > 0 then .next (waitStage s)
  else fetchStage s

/-! ## The end of a tick -/

/-- The snapshot of the latches a tick publishes (R378). -/
def snapshotOf (cycle : Nat) (n : Latches) : Snapshot :=
  { cycle := cycle, ifPc := n.IF.pc, ifStatus := n.IF.status,
    idInstr := n.ID.raw, idStatus := n.ID.status, exInstr := n.EX.raw, exStatus := n.EX.status,
    memInstr := n.MEM.raw, memStatus := n.MEM.status, wbInstr := n.WB.raw, wbStatus := n.WB.status }

/-- The snapshot is emitted, and `cycle_count` grows (R46, R378). -/
def emitSnapshot (s : State) : State :=
  { s with sink := .snapshot (snapshotOf s.cycleCount s.latches) :: s.sink, cycleCount := s.cycleCount + 1 }

/-- The mode after a tick (R373): ERROR if it raised an exception, HALT if a halt committed, a draw if both (log 4). -/
def modeAfter (exc haltNow : Bool) (drawIndex : Nat) : Mode :=
  if exc && haltNow then (if Config.haltWinsTie drawIndex then .halted else .errored)
  else if exc then .errored
  else if haltNow then .halted
  else .running

/-- The end of a non-freeze tick (R372, R373): counters, `pc` and latches are published, then the snapshot. -/
def endTick (s : State) : State :=
  let w := s.work
  emitSnapshot { s with
    loadStallCount := s.loadStallCount + w.count
    loadBranchExtra := w.lbeNext
    iMissRemaining := w.iNext
    dMissRemaining := w.dNext
    pc := w.pcNext
    latches := w.new
    mode := modeAfter w.exc w.haltNow s.drawIndex
    drawIndex := if w.exc && w.haltNow then s.drawIndex + 1 else s.drawIndex
    work := .rest }

/-- The non-freeze tick (R329). -/
def tick (s : State) : Result :=
  andThen (wbStage (beginTick s)) fun s =>
  andThen (memStage (hazardStage s)) fun s =>
  andThen (exStage s) fun s =>
  andThen (idStage s) fun s =>
  andThen (ifStage s) fun s => .next (endTick s)

/-- The freeze tick (R328). -/
def freezeTick (s : State) : State :=
  emitSnapshot { s with
    latches := { s.latches with WB := bubbleLatch }
    dMissRemaining := s.dMissRemaining - 1
    iMissRemaining := s.iMissRemaining - 1
    work := .rest }

/-- One tick of the core: only while it runs (R327, R377), a freeze tick while a D-miss is pending (R328). -/
def advance (s : State) : Result :=
  if s.mode = .running ∧ s.finalized = false then
    if s.dMissRemaining > 0 then .next (freezeTick s) else tick s
  else .refused .notRunning

end Sys2Proof.Machine
end

