-- ==== Sys2Proof/Machine/Step.lean ====
section
/-! DEFINITION. One step of the machine is one tick of the core (R9, R327). -/

namespace Sys2Proof.Machine

/-- One tick (log 5). -/
def step (s : State) : Host.Outcome State Fault Refusal := advance s

/-- `s` with an instruction stored where the next tick takes its next instruction from: the core decodes the word that
its IF latch holds (R329), so the word goes into memory at that latch's address and into the latch, live; no miss or
stall is left pending and the latches before it in the pipe hold bubbles, so that nothing holds the decode up (log 3). -/
def State.withFetchWord (s : State) (nbits w : Nat) : State :=
  let word : Word := BitVec.ofNat 32 (w % 2 ^ nbits)
  let at_ := s.latches.IF.pc
  { s with
    memory := s.memory.write at_.toNat 4 word
    latches := { s.latches with IF := decodeLatch word at_ .speculative, ID := bubbleLatch, EX := bubbleLatch }
    iMissRemaining := 0, dMissRemaining := 0, loadBranchExtra := 0 }

end Sys2Proof.Machine
end

