-- ==== Sys2Proof/Machine/Assembler.lean ====
section
/-! DEFINITION. The assembler's side of the spec: register names (R31), the text of an instruction (R152), and the
pseudo-instructions (R153). The hardware gives none of them a meaning; they name words. -/

namespace Sys2Proof

/-- The RISC-V ABI name of a register (R31); `s0` is also written `fp`. -/
def abiNames : List String :=
  ["zero", "ra", "sp", "gp", "tp", "t0", "t1", "t2", "s0", "s1", "a0", "a1", "a2", "a3", "a4", "a5", "a6", "a7",
   "s2", "s3", "s4", "s5", "s6", "s7", "s8", "s9", "s10", "s11", "t3", "t4", "t5", "t6"]

/-- A register's ABI name. -/
def Reg.abiName (r : Reg) : String := abiNames.getD r.toNat ""

/-- A register as D0 writes it, `r0` to `r31` (R30, R152). -/
def regText (r : Reg) : String := "r" ++ toString r.toNat

/-- The register a name stands for: `rN`, `xN`, an ABI name or `fp` (R30, R31, R152). -/
def regOfText (t : String) : Option Reg :=
  (List.range 32).findSome? fun n =>
    let r : Reg := BitVec.ofNat 5 n
    if t = "r" ++ toString n ∨ t = "x" ++ toString n ∨ t = Reg.abiName r ∨ (t = "fp" ∧ n = 8) then some r else none

/-- A signed number in decimal (R152). -/
def intText {n : Nat} (v : BitVec n) : String := toString v.toInt

/-- `mnemonic a, b, c` in lower case (R152). -/
def asm3 (i : Instr) (a b c : String) : String := i.mnemonic.toLower ++ " " ++ a ++ ", " ++ b ++ ", " ++ c

/-- `mnemonic r, offset(base)` (R152). -/
def asmMem (i : Instr) (r base : Reg) (offset : BitVec 12) : String :=
  i.mnemonic.toLower ++ " " ++ regText r ++ ", " ++ intText offset ++ "(" ++ regText base ++ ")"

/-- The assembler text of an instruction (R152). SYSTEM has no text in the spec, so it is written as its word. -/
def Instr.text (i : Instr) : String :=
  match i with
  | .halt | .nop => i.mnemonic.toLower
  | .add rd a b | .sub rd a b | .sll rd a b | .slt rd a b | .sltu rd a b => asm3 i (regText rd) (regText a) (regText b)
  | .xor rd a b | .srl rd a b | .sra rd a b | .or rd a b | .and rd a b => asm3 i (regText rd) (regText a) (regText b)
  | .addi rd a v | .slti rd a v | .sltiu rd a v => asm3 i (regText rd) (regText a) (intText v)
  | .xori rd a v | .ori rd a v | .andi rd a v => asm3 i (regText rd) (regText a) (intText v)
  | .slli rd a v | .srli rd a v | .srai rd a v => asm3 i (regText rd) (regText a) (toString v.toNat)
  | .lui rd v | .auipc rd v => i.mnemonic.toLower ++ " " ++ regText rd ++ ", " ++ toString v.toNat
  | .jal rd v => i.mnemonic.toLower ++ " " ++ regText rd ++ ", " ++ intText v
  | .beq a b v | .bne a b v | .blt a b v => asm3 i (regText a) (regText b) (intText v)
  | .bge a b v | .bltu a b v | .bgeu a b v => asm3 i (regText a) (regText b) (intText v)
  | .jalr rd base v => asmMem i rd base v
  | .lb rd base v | .lh rd base v | .lw rd base v | .lbu rd base v | .lhu rd base v => asmMem i rd base v
  | .sb r base v | .sh r base v | .sw r base v => asmMem i r base v
  | .system _ _ _ _ => i.mnemonic.toLower ++ " " ++ toString (encode i).toNat

/-- The pseudo-instructions of R153. `li` takes the one-word form when the immediate fits 12 signed bits. -/
inductive Pseudo where
  | halt
  | nop
  | li   (rd : Reg) (imm : Word)
  | mv   (rd rs : Reg)
  | not  (rd rs : Reg)
  | neg  (rd rs : Reg)
  | seqz (rd rs : Reg)
  | snez (rd rs : Reg)
  | beqz (rs : Reg) (offset : BitVec 13)
  | bnez (rs : Reg) (offset : BitVec 13)
  | bgt  (a b : Reg) (offset : BitVec 13)
  | ble  (a b : Reg) (offset : BitVec 13)
  | j    (offset : BitVec 21)
  | jal  (offset : BitVec 21)
  | jr   (rs : Reg)
  | ret
  deriving DecidableEq, Repr

/-- The instructions of a pseudo-instruction (R153). -/
def Pseudo.expand : Pseudo → List Instr
  | .halt => [.halt]
  | .nop => [.nop]
  | .li rd imm =>
    if -2048 ≤ imm.toInt ∧ imm.toInt ≤ 2047 then [.addi rd 0 (imm.extractLsb' 0 12)]
    else [.lui rd ((imm + 0x800#32).extractLsb' 12 20), .addi rd rd (imm.extractLsb' 0 12)]
  | .mv rd rs => [.addi rd rs 0]
  | .not rd rs => [.xori rd rs 0xFFF#12]
  | .neg rd rs => [.sub rd 0 rs]
  | .seqz rd rs => [.sltiu rd rs 1]
  | .snez rd rs => [.sltu rd 0 rs]
  | .beqz rs offset => [.beq rs 0 offset]
  | .bnez rs offset => [.bne rs 0 offset]
  | .bgt a b offset => [.blt b a offset]
  | .ble a b offset => [.bge b a offset]
  | .j offset => [.jal 0 offset]
  | .jal offset => [.jal 1 offset]
  | .jr rs => [.jalr 0 rs 0]
  | .ret => [.jalr 0 1 0]

end Sys2Proof
end

