-- ==== Sys2Proof/Machine/Init.lean ====
section
/-! DEFINITION. `init`, the one reset of the core (R320 to R323). -/

namespace Sys2Proof.Machine

/-- `MEMORY_SIZE` in the range of R81. -/
def memorySizeValid (size : Nat) : Bool := decide (4 ≤ size) && decide (size ≤ 2 ^ 32) && size % 4 == 0

/-- The bytes of an image that are not 0, with their addresses, from an address on. -/
def imageCells : Nat → List Byte → List Host.Cell
  | _, [] => []
  | a, b :: rest => if b = 0 then imageCells (a + 1) rest else (a, b) :: imageCells (a + 1) rest

/-- The memory of a program image: its byte at index `a` is `mem[a]` (R92). -/
def imageMemory (image : List Byte) : Memory := { size := image.length, cells := imageCells 0 image }

/-- The state `init` builds before its fetch (R61): the IF latch is made by `initFetch`. -/
def State.cold (icfg dcfg : CacheConfig) (memory : Memory) : State :=
  { regs := Vector.replicate 32 0, pc := Config.resetPc,
    latches := { IF := idleLatch, ID := idleLatch, EX := idleLatch, MEM := idleLatch, WB := idleLatch },
    cycleCount := 0, loadStallCount := 0, iMissRemaining := 0, dMissRemaining := 0, loadBranchExtra := 0,
    dynamicInstructions := 0, mode := .running, ic := Cache.cold icfg, dc := Cache.cold dcfg, memory := memory,
    errorNote := none, sink := [], finalized := false, drawIndex := 0, work := .rest }

/-- `init_fetch()`: one I-cache access at `RESET_PC`, the word there into IF as SPECULATIVE (R322). -/
def initFetch (s : State) : Result :=
  let a := Config.resetPc
  if s.memory.size < a.toNat + 4 then .refused .fetchOutOfRange
  else
    let r := s.ic.access a .read
    .next { s with
      ic := r.2
      latches := { s.latches with IF := decodeLatch (s.memory.read32 a.toNat) a .speculative }
      iMissRemaining := if r.1 = .miss then r.2.config.missLatency else 0
      pc := a + 4 }

/-- `init(i_cfg, d_cfg, memory, output_sink)` (R320): refused unless both configurations and the size are admitted and
the image has exactly `MEMORY_SIZE` bytes (R321). -/
def init (icfg dcfg : CacheConfig) (memorySize : Nat) (image : List Byte) : Result :=
  if icfg.valid && dcfg.valid && memorySizeValid memorySize && image.length == memorySize then
    initFetch (State.cold icfg dcfg (imageMemory image))
  else .refused .invalidConfig

end Sys2Proof.Machine
end

