-- ==== Sys2Proof/Machine/HostOps.lean ====
section
/-! DEFINITION. The host's operations (R374 to R377) and what it observes (R378, R379). -/

namespace Sys2Proof.Machine

/-- The status a tick returned, as the mode after it records it (R373). -/
inductive TickStatus where
  | success | halt | error
  deriving DecidableEq, Repr

/-- The status of the last tick (R373). -/
def State.status (s : State) : TickStatus :=
  match s.mode with
  | .running => .success
  | .halted => .halt
  | .errored => .error

/-- The final statistics of a state (R379). -/
def State.statistics (s : State) : Statistics :=
  { dynamicInstructions := s.dynamicInstructions, totalCycles := s.cycleCount, icHits := s.ic.hits,
    icMisses := s.ic.misses, dcHits := s.dc.hits, dcMisses := s.dc.misses, loadStalls := s.loadStallCount }

/-- Up to `n` ticks, stopping after the first that returns HALT or ERROR (R375). -/
def runTicks : Nat → State → Result
  | 0, s => .next s
  | n + 1, s => andThen (step s) fun s' => if s'.mode = .running then runTicks n s' else .next s'

/-- `run_cycles(n)` with `n > 0` (R375); refused on a core that is not running or is finalized (R377). -/
def runCycles (n : Nat) (s : State) : Result :=
  if s.mode = .running ∧ s.finalized = false then runTicks n s else .refused .notRunning

/-- `run_cycles(0)`, "until halt or error", under fuel (R375): `none` when the fuel is spent and the core still runs. -/
def runUntilStop (fuel : Nat) (s : State) : Option Result :=
  match runCycles fuel s with
  | .next s' => if s'.mode = .running then none else some (.next s')
  | r => some r

/-- `run_till_halt()`: `run_cycles(1)` again and again while it returns SUCCESS (R375), under fuel. -/
def runTillHalt : Nat → State → Option Result
  | 0, _ => none
  | fuel + 1, s =>
    match runCycles 1 s with
    | .next s' => if s'.status = .success then runTillHalt fuel s' else some (.next s')
    | r => some r

/-- `finalize()`: the final statistics are emitted once, in any mode; a second `finalize` is refused (R376, R377). -/
def finalize (s : State) : Result :=
  if s.finalized then .refused .notRunning
  else .next { s with sink := .statistics s.statistics :: s.sink, finalized := true }

/-- The operations of the host (R374 to R376). -/
inductive HostOp where
  | init (icfg dcfg : CacheConfig) (memorySize : Nat) (image : List Byte)
  | runCycles (n : Nat)
  | runTillHalt
  | finalize
  deriving DecidableEq, Repr

/-- A host operation on a core, `none` before `init` (R377). `init` makes a new core (R325). `fuel` bounds the two
operations that may never return; `none` is answered when it is spent. -/
def hostOp (fuel : Nat) : Option State → HostOp → Option Result
  | _, .init icfg dcfg memorySize image => some (init icfg dcfg memorySize image)
  | none, .runCycles _ | none, .runTillHalt | none, .finalize => some (.refused .notRunning)
  | some s, .runCycles 0 => runUntilStop fuel s
  | some s, .runCycles (n + 1) => some (runCycles (n + 1) s)
  | some s, .runTillHalt => runTillHalt fuel s
  | some s, .finalize => some (finalize s)

end Sys2Proof.Machine
end

