-- ==== Sys2Proof/Machine/Sequential.lean ====
section
/-! DEFINITION. One instruction at a time: an instruction taken alone through its four stages, and the sequential RV32I
execution that R385 compares the pipeline with. -/

namespace Sys2Proof.Machine

/-- An instruction's word in ID, live, at the address `pc`, with nothing else in the pipe. -/
def State.alone (s : State) (raw : Word) : State :=
  { s with work := { Work.rest with
      new := { Work.rest.new with ID := decodeLatch raw s.pc .normal }, stage := .decode } }

/-- The latch in ID moves to EX. -/
def State.toExecute (s : State) : State := (s.setNewEX s.work.new.ID).atStage .execute
/-- The latch in EX moves to MEM. -/
def State.toMemory (s : State) : State := (s.setNewMEM s.work.new.EX).atStage .memory
/-- The latch in MEM moves to WB. -/
def State.toWriteback (s : State) : State := (s.setNewWB s.work.new.MEM).atStage .writeback

/-- An instruction alone through ID, EX, MEM and WB; one that raises `MemoryException` does not reach WB (R281). -/
def runAlone (i : Instr) (raw : Word) (s : State) : Result :=
  andThen (exec i (s.alone raw)) fun s =>
  andThen (exec i s.toExecute) fun s =>
  andThen (exec i s.toMemory) fun s =>
  if s.work.memExc then .next s else exec i s.toWriteback

/-- One step of sequential execution: the word at `pc`, alone, and then its `next_pc`. -/
def seqStep (s : State) : Result :=
  if s.mode ≠ .running then .refused .notRunning
  else if s.memory.size < s.pc.toNat + 4 then .refused .fetchOutOfRange
  else
    let raw := s.memory.read32 s.pc.toNat
    match decodeWord raw with
    | .illegal => .next { s with mode := .errored }
    | .reserved _ => .refused .reservedEncoding
    | .instr i => andThen (runAlone i raw s) fun s =>
      .next { s with
        pc := s.work.new.EX.nextPc
        mode := modeAfter s.work.memExc s.work.haltNow s.drawIndex
        work := .rest }

/-- `n` sequential steps, stopping when the machine no longer runs. -/
def seqRun : Nat → State → Result
  | 0, s => .next s
  | n + 1, s => andThen (seqStep s) fun s' => if s'.mode = .running then seqRun n s' else .next s'

end Sys2Proof.Machine
end

