-- ==== Sys2Proof/Safety.lean ====
section
/-! DEFINITION. The terms in which claims speak of a good state: the invariant of the core, and of its parts. -/

namespace Sys2Proof.Machine

/-! ## Latches -/

/-- A latch with its dynamic fields (R144's value fields and `next_pc`) blanked: what decoding alone decides. -/
def Latch.decoded (l : Latch) : Latch :=
  { l with nextPc := 0, op1Val := 0, op2Val := 0, aluResult := 0, memAddr := 0, memResult := 0 }

/-- The decoded fields of a latch are those of `decode(raw, pc)` (R144). -/
def Latch.coherent (l : Latch) : Prop := l.decoded = (decodeLatch l.raw l.pc l.status).decoded

/-- A latch outside IF: coherent, never SPECULATIVE (R41), and, when live, an instruction of the table that is not
SYSTEM (R360 lets nothing else by). -/
structure Latch.Good (l : Latch) : Prop where
  coherent : l.coherent
  notSpeculative : l.status ≠ .speculative
  executable : l.live = true → l.isLegal = true ∧ l.kind ≠ .reserved ∧ l.opcode ≠ .system

/-- The IF latch: coherent, fetched or squashed (R41), at a multiple of 4 (R87). -/
structure Latch.GoodFetch (l : Latch) : Prop where
  coherent : l.coherent
  status : l.status = .normal ∨ l.status = .speculative ∨ l.status = .squashed
  aligned : l.pc.toNat % 4 = 0

/-! ## Caches (R107) -/

/-- Among the ways of a set: valid ways hold different tags and different stamps (R101, R102), and no stamp is beyond
the clock. -/
def waysGood (clock : Nat) (ways : List Way) : Prop :=
  ways.Pairwise (fun a b => a.valid = true → b.valid = true → a.tag ≠ b.tag ∧ a.lruStamp ≠ b.lruStamp) ∧
    ∀ w ∈ ways, w.lruStamp ≤ clock

/-- A good cache: an admitted configuration (R11), a tag array of its shape (R98), good sets, and `clock = hits +
misses` (R107). -/
structure Cache.Good (c : Cache) : Prop where
  config : c.config.valid = true
  shaped : c.shaped = true
  counts : c.clock = c.hits + c.misses
  sets : ∀ ways ∈ c.sets, waysGood c.clock ways

/-! ## The sink -/

/-- How many snapshots a sink has received. -/
def snapshotCount : List SinkRecord → Nat
  | [] => 0
  | .snapshot _ :: rest => snapshotCount rest + 1
  | .statistics _ :: rest => snapshotCount rest

/-- Every snapshot's `cycle` is the number of snapshots before it (R378, R384); the sink is newest first. -/
def snapshotsNumbered : List SinkRecord → Prop
  | [] => True
  | .snapshot n :: rest => n.cycle = snapshotCount rest ∧ snapshotsNumbered rest
  | .statistics _ :: rest => snapshotsNumbered rest

/-! ## The invariant -/

/-- The invariant of the core between ticks. -/
structure State.Inv (s : State) : Prop where
  memory : s.memory.wf = true ∧ memorySizeValid s.memory.size = true
  zeroRegister : s.regs[0] = 0
  pcAligned : s.pc.toNat % 4 = 0
  fetch : s.latches.IF.GoodFetch
  decode : s.latches.ID.Good
  execute : s.latches.EX.Good
  access : s.latches.MEM.Good
  writeback : s.latches.WB.Good
  icache : s.ic.Good
  dcache : s.dc.Good
  stalls : s.loadBranchExtra ≤ 1 ∧ s.iMissRemaining ≤ s.ic.config.missLatency ∧
    s.dMissRemaining ≤ s.dc.config.missLatency
  commits : s.dynamicInstructions ≤ s.cycleCount
  snapshots : snapshotCount s.sink = s.cycleCount ∧ snapshotsNumbered s.sink
  fetchedInside : s.mode = .running → s.latches.IF.pc.toNat + 4 ≤ s.memory.size
  stopped : s.mode = .errored → s.pc = Config.handler ∧ s.iMissRemaining = 0 ∧ s.dMissRemaining = 0 ∧
    s.loadBranchExtra = 0 ∧ s.errorNote.isSome = true
  resting : s.work = .rest


/-! ## One instruction alone in the pipe -/

/-- The instruction `i`, whose word is `raw`, alone in the pipe at `s.pc`: its ID, EX, MEM and WB work, one after
another, each answer a next state, and the last is `s'`. -/
def ExecAlone (i : Instr) (raw : Word) (s s' : State) : Prop :=
  ∃ s1 s2 s3, exec i (s.alone raw) = .next s1 ∧ exec i s1.toExecute = .next s2 ∧ exec i s2.toMemory = .next s3 ∧
    exec i s3.toWriteback = .next s'

/-- `s'` is `s` after one commit that wrote `v` to `x[rd]` and did nothing else: only the tick's working values may
differ beyond that, and they raise nothing, halt nothing and redirect to `taken`. -/
structure Committed (s s' : State) (rd : Reg) (v : Word) (taken : Option Word) : Prop where
  state : s' = { s.writeReg rd v with dynamicInstructions := s.dynamicInstructions + 1, work := s'.work }
  redirect : s'.work.taken = taken
  quiet : s'.work.memExc = false ∧ s'.work.illegal = false ∧ s'.work.haltNow = false

/-- `i` alone completes, and all it does is to write `v` to `x[rd]`; its `next_pc` stays the next address. -/
def WritesAlone (i : Instr) (raw : Word) (s : State) (rd : Reg) (v : Word) : Prop :=
  ∃ s', ExecAlone i raw s s' ∧ Committed s s' rd v none ∧ s'.work.new.EX.nextPc = s.pc + 4

/-! ## Per-instruction values named by the rules -/

/-- `resolve(L)` (R221). -/
def resolve (l : Latch) : Word :=
  let branch (condition : Prop) [Decidable condition] : Word := if condition then l.pc + l.imm else l.pc + 4
  match l.kind with
  | .instr (.jal _ _) => l.pc + l.imm
  | .instr (.jalr _ _ _) => (l.op1Val + l.imm) &&& 0xFFFFFFFE#32
  | .instr (.beq _ _ _) => branch (l.op1Val = l.op2Val)
  | .instr (.bne _ _ _) => branch (l.op1Val ≠ l.op2Val)
  | .instr (.blt _ _ _) => branch (l.op1Val.toInt < l.op2Val.toInt)
  | .instr (.bge _ _ _) => branch (l.op1Val.toInt ≥ l.op2Val.toInt)
  | .instr (.bltu _ _ _) => branch (l.op1Val.toNat < l.op2Val.toNat)
  | .instr (.bgeu _ _ _) => branch (l.op1Val.toNat ≥ l.op2Val.toNat)
  | _ => l.pc + 4

/-- The ALU result that EX leaves in a live latch: the value of its rule in 40_integer.md (R174 to R194), the link of a
jump (R225, R226), 0 for NOP (R264); the others leave the field as it is (R349). -/
def aluValue (l : Latch) : Word :=
  let a := l.op1Val
  let b := l.op2Val
  let flag (condition : Prop) [Decidable condition] : Word := if condition then 1 else 0
  match l.kind with
  | .instr (.add _ _ _) => a + b
  | .instr (.sub _ _ _) => a - b
  | .instr (.sll _ _ _) => a <<< (b.toNat % 32)
  | .instr (.slt _ _ _) => flag (a.toInt < b.toInt)
  | .instr (.sltu _ _ _) => flag (a.toNat < b.toNat)
  | .instr (.xor _ _ _) => a ^^^ b
  | .instr (.srl _ _ _) => a >>> (b.toNat % 32)
  | .instr (.sra _ _ _) => a.sshiftRight (b.toNat % 32)
  | .instr (.or _ _ _) => a ||| b
  | .instr (.and _ _ _) => a &&& b
  | .instr (.addi _ _ _) => a + l.imm
  | .instr (.slti _ _ _) => flag (a.toInt < l.imm.toInt)
  | .instr (.sltiu _ _ _) => flag (a.toNat < l.imm.toNat)
  | .instr (.xori _ _ _) => a ^^^ l.imm
  | .instr (.ori _ _ _) => a ||| l.imm
  | .instr (.andi _ _ _) => a &&& l.imm
  | .instr (.slli _ _ _) => a <<< (l.imm.toNat % 32)
  | .instr (.srli _ _ _) => a >>> (l.imm.toNat % 32)
  | .instr (.srai _ _ _) => a.sshiftRight (l.imm.toNat % 32)
  | .instr (.lui _ _) => l.imm
  | .instr (.auipc _ _) => l.pc + l.imm
  | .instr (.jal _ _) | .instr (.jalr _ _ _) => l.pc + 4
  | .instr .nop => 0
  | _ => l.aluResult

/-- The width in bytes of a load's or store's access (R85). -/
def accessWidth (k : Kind) : Nat :=
  match k with
  | .instr (.lb _ _ _) | .instr (.lbu _ _ _) | .instr (.sb _ _ _) => 1
  | .instr (.lh _ _ _) | .instr (.lhu _ _ _) | .instr (.sh _ _ _) => 2
  | _ => 4

/-- `extend(MemRead(a, n))` of a load (R243 to R247). -/
def loadValue (k : Kind) (m : Memory) (a : Nat) : Word :=
  match k with
  | .instr (.lb _ _ _) => (m.read8 a).signExtend 32
  | .instr (.lbu _ _ _) => (m.read8 a).zeroExtend 32
  | .instr (.lh _ _ _) => (m.read16 a).signExtend 32
  | .instr (.lhu _ _ _) => (m.read16 a).zeroExtend 32
  | _ => m.read32 a

/-! ## What a non-freeze tick will do, read from the state at its start (R329) -/

/-- `stall`. -/
def State.stalls (s : State) : Bool := (hazard s.latches.ID s.latches.EX s.loadBranchExtra).stall

/-- The instruction entering MEM is a live load or store. -/
def State.accesses (s : State) : Bool := s.latches.EX.live && (s.latches.EX.readsMem || s.latches.EX.writesMem)

/-- `mem_exc`: it is out of bounds (R340). -/
def State.memRaises (s : State) : Bool := s.accesses && decide (s.memory.size ≤ s.latches.EX.memAddr.toNat)

/-- `D`: the instruction entering EX, after forwarding. -/
def State.forwarded (s : State) : Latch := forward s.latches.ID s.latches.EX s.latches.MEM

/-- A control instruction resolves in this tick (R350, R352). -/
def State.resolves (s : State) : Bool := !s.stalls && s.latches.ID.live && s.latches.ID.isControl && !s.memRaises

/-- `taken`. -/
def State.takes (s : State) : Bool := s.resolves && resolve s.forwarded != s.latches.ID.pc + 4

/-- The word in IF' is decoded live into ID (R359). -/
def State.decodesLive (s : State) : Bool :=
  !s.stalls && s.iMissRemaining == 0 && s.latches.IF.status != .squashed && !s.takes && !s.memRaises

/-- `illegal`. -/
def State.illegalRaises (s : State) : Bool := s.decodesLive && decodeWord s.latches.IF.raw == .illegal

/-- `exc`. -/
def State.raises (s : State) : Bool := s.memRaises || s.illegalRaises

/-- `fetched`, if the tick is not refused. -/
def State.fetches (s : State) : Bool := !s.raises && !s.stalls && s.iMissRemaining == 0

/-- The tick's fetch misses. -/
def State.fetchMisses (s : State) : Bool := s.fetches && (s.ic.access s.pc .read).1 == .miss

/-- A halt commits in this tick (R261). -/
def State.halts (s : State) : Bool := s.latches.MEM.live && s.latches.MEM.isHalt

/-! ## Runs -/

/-- The live store that enters MEM in the next tick, if there is one, leaves alone the words already fetched into ID and
IF: it is no store into its own instruction window (R383). -/
def State.storeClear (s : State) : Prop :=
  s.latches.EX.live = true → s.latches.EX.writesMem = true →
    (s.latches.ID.live = true → s.latches.EX.memAddr.toNat / 4 ≠ s.latches.ID.pc.toNat / 4) ∧
    (s.latches.IF.liveInFetch = true → s.latches.EX.memAddr.toNat / 4 ≠ s.latches.IF.pc.toNat / 4)

/-- `n` ticks lead from `s` to `s'`, each of them from a running state with no store into its window. -/
def ClearRun : Nat → State → State → Prop
  | 0, s, s' => s' = s
  | n + 1, s, s' => ∃ u, ClearRun n s u ∧ u.storeClear ∧ step u = .next s'

end Sys2Proof.Machine
end

