-- ==== Sys2Proof/Certificates/Slice0/Obligations.lean ====
section
/-! DEFINITION. The statements about 375P2-CORE, for the provers. Each docstring names the rule it formalises, or says
what of it is the model's own. -/

open Sys2Proof Sys2Proof.Machine

/-! ## Encoding (30_encoding.md) -/

/-- Decoding an encoded well-formed instruction gives it back, with every operand at every value, whatever bytes
follow. -/
def Obligations.DecodeOfEncodeIsTheInstruction : Prop :=
  ∀ (i : Instr) (rest : List Byte), i.WF →
    decodeWord (encode i) = .instr i ∧ decodeBytes (encodeBytes i ++ rest) = .ok (i, rest)

/-- Encoding what a word decodes to gives the word back: each word has one meaning, and it is well formed. -/
def Obligations.EncodeOfDecodeIsTheWord : Prop :=
  ∀ (w : Word) (i : Instr), decodeWord w = .instr i → i.WF ∧ encode i = w

/-- R154: the row that the opcode table selects for a word, the HALT and NOP rows first, is the row of the instruction
that the word decodes to; no row is selected exactly when the word decodes to none; and of the other rows at most one is
selected. -/
def Obligations.OpcodeTableRowsSelectWhatDecodes : Prop :=
  ∀ w : Word,
    ((wholeWordRows ++ otherRows).find? (·.selects w)).map (·.mnemonic) =
      (match decodeWord w with
       | .instr i => some i.mnemonic
       | _ => none) ∧
    (otherRows.filter (·.selects w)).length ≤ 1

/-- R142, R143, R148, R149: a word is illegal exactly when it is not HALT_WORD and its major opcode is none of the ten;
and it is RESERVED exactly when its major opcode is one of the ten and no row of the opcode table selects it. -/
def Obligations.IllegalAndReservedWords : Prop :=
  ∀ w : Word,
    let listed : Prop := opcodeOf w ∈ [0x37#7, 0x17#7, 0x6F#7, 0x67#7, 0x63#7, 0x03#7, 0x23#7, 0x13#7, 0x33#7, 0x73#7]
    (decodeWord w = .illegal ↔ w ≠ 0xFEEDFEED#32 ∧ ¬ listed) ∧
    ((∃ c, decodeWord w = .reserved c) ↔ listed ∧ ∀ r ∈ otherRows, r.selects w = false) ∧
    (w ≠ 0xFEEDFEED#32 → w.extractLsb' 0 2 ≠ 0b11#2 → decodeWord w = .illegal)

/-- Words of the spec's examples, one or more of each family, decode to the instructions they stand for. -/
def Obligations.ExampleWordsDecode : Prop :=
  decodeWord 0xFEEDFEED#32 = .instr .halt ∧ decodeWord 0x00000013#32 = .instr .nop ∧
  decodeWord 0x402081B3#32 = .instr (.sub 3 1 2) ∧ decodeWord 0xFFF08193#32 = .instr (.addi 3 1 0xFFF#12) ∧
  decodeWord 0x4040D193#32 = .instr (.srai 3 1 4) ∧ decodeWord 0x123451B7#32 = .instr (.lui 3 0x12345#20) ∧
  decodeWord 0x00C000EF#32 = .instr (.jal 1 12) ∧ decodeWord 0xFE209CE3#32 = .instr (.bne 1 2 (-8)) ∧
  decodeWord 0xFFC0A183#32 = .instr (.lw 3 1 (-4)) ∧ decodeWord 0xFE20AE23#32 = .instr (.sw 2 1 (-4)) ∧
  decodeWord 0x00100073#32 = .instr (.system 1 0 0 0) ∧ decodeWord 0xFFFFFFFF#32 = .illegal

/-- R131, R144, R146: on every word, `decode` takes the register fields from their places, makes `next_pc` the address
after, knows the NOP and HALT words, calls legal what is not illegal, and leaves every value field 0. -/
def Obligations.DecodeSetsTheLatchFields : Prop :=
  ∀ (raw pc : Word) (st : Status),
    let l := decodeLatch raw pc st
    l.raw = raw ∧ l.pc = pc ∧ l.nextPc = pc + 4 ∧ l.status = st ∧
    l.rs1 = raw.extractLsb' 15 5 ∧ l.rs2 = raw.extractLsb' 20 5 ∧ l.rd = raw.extractLsb' 7 5 ∧
    (l.isNop = true ↔ raw = 0x00000013#32) ∧ (l.isHalt = true ↔ raw = 0xFEEDFEED#32) ∧
    (l.isLegal = false ↔ decodeWord raw = .illegal) ∧
    l.opcode = (if raw = 0xFEEDFEED#32 then .halt else majorClass (opcodeOf raw)) ∧
    l.op1Val = 0 ∧ l.op2Val = 0 ∧ l.aluResult = 0 ∧ l.memAddr = 0 ∧ l.memResult = 0

/-- R145: the six controller flags of a latch, from its class, in the words of the table's columns. -/
def Obligations.ControllerFlagsOfEveryClass : Prop :=
  ∀ (raw pc : Word) (st : Status),
    let l := decodeLatch raw pc st
    (l.readsRs1 = true ↔ l.opcode ∈ [.jalr, .branch, .load, .store, .opImm, .op]) ∧
    (l.readsRs2 = true ↔ l.opcode ∈ [.branch, .store, .op]) ∧
    (l.writesRd = true ↔ l.opcode ∈ [.lui, .auipc, .jal, .jalr, .load, .opImm, .op] ∧ raw ≠ 0x00000013#32) ∧
    (l.readsMem = true ↔ l.opcode = .load) ∧
    (l.writesMem = true ↔ l.opcode = .store) ∧
    (l.doesArith = true ↔ l.opcode ∈ [.lui, .auipc, .jal, .jalr, .opImm, .op] ∧ raw ≠ 0x00000013#32)

/-- R137 to R141, R144: the bits of the immediate of each format, for every word. SYSTEM has the immediate of its format,
the I-type (R133; log 12); a format without an immediate, and a word that is no instruction of the table, give 0. -/
def Obligations.ImmediatesOfEveryFormat : Prop :=
  ∀ (raw pc : Word) (st : Status),
    let imm := (decodeLatch raw pc st).imm
    ((∀ i, decodeWord raw ≠ .instr i) → imm = 0) ∧
    ∀ i : Instr, decodeWord raw = .instr i →
    let sign := raw.getLsbD 31
    let shift : Prop := i.opClass = .opImm ∧ (funct3Of raw = 0b001#3 ∨ funct3Of raw = 0b101#3)
    ((i.opClass = .opImm ∧ ¬ shift ∨ i.opClass = .load ∨ i.opClass = .jalr ∨ i.opClass = .system) →
      ∀ k < 32, imm.getLsbD k = if k < 11 then raw.getLsbD (k + 20) else sign) ∧
    (shift → imm.toNat = raw.toNat / 2 ^ 20 % 32) ∧
    (i.opClass = .store →
      ∀ k < 32, imm.getLsbD k = if k < 5 then raw.getLsbD (k + 7) else if k < 11 then raw.getLsbD (k + 20) else sign) ∧
    (i.opClass = .branch →
      ∀ k < 32, imm.getLsbD k =
        if k = 0 then false else if k < 5 then raw.getLsbD (k + 7) else if k < 11 then raw.getLsbD (k + 20)
        else if k = 11 then raw.getLsbD 7 else sign) ∧
    ((i.opClass = .lui ∨ i.opClass = .auipc) → imm.toNat = raw.toNat / 2 ^ 12 * 2 ^ 12) ∧
    (i.opClass = .jal →
      ∀ k < 32, imm.getLsbD k =
        if k = 0 then false else if k < 11 then raw.getLsbD (k + 20) else if k = 11 then raw.getLsbD 20
        else if k < 20 then raw.getLsbD k else sign) ∧
    ((i.opClass = .op ∨ i.opClass = .halt) → imm = 0)

/-! ## Integer instructions (40_integer.md) -/

/-- R174 to R183: each OP instruction alone completes and writes its result, in exact arithmetic, to `x[rd]`, and does
nothing else (`rd = 0` writes nothing, R172). -/
def Obligations.RegisterRegisterResults : Prop :=
  ∀ (raw : Word) (rd rs1 rs2 : Reg) (s : State),
    let a := s.readReg rs1
    let b := s.readReg rs2
    let n := b.toNat % 32
    (decodeWord raw = .instr (.add rd rs1 rs2) →
      WritesAlone (.add rd rs1 rs2) raw s rd (BitVec.ofNat 32 (a.toNat + b.toNat))) ∧
    (decodeWord raw = .instr (.sub rd rs1 rs2) →
      WritesAlone (.sub rd rs1 rs2) raw s rd (BitVec.ofInt 32 ((a.toNat : Int) - (b.toNat : Int)))) ∧
    (decodeWord raw = .instr (.sll rd rs1 rs2) →
      WritesAlone (.sll rd rs1 rs2) raw s rd (BitVec.ofNat 32 (a.toNat * 2 ^ n))) ∧
    (decodeWord raw = .instr (.slt rd rs1 rs2) →
      WritesAlone (.slt rd rs1 rs2) raw s rd (if a.toInt < b.toInt then 1 else 0)) ∧
    (decodeWord raw = .instr (.sltu rd rs1 rs2) →
      WritesAlone (.sltu rd rs1 rs2) raw s rd (if a.toNat < b.toNat then 1 else 0)) ∧
    (decodeWord raw = .instr (.xor rd rs1 rs2) →
      WritesAlone (.xor rd rs1 rs2) raw s rd (BitVec.ofNat 32 (a.toNat ^^^ b.toNat))) ∧
    (decodeWord raw = .instr (.srl rd rs1 rs2) →
      WritesAlone (.srl rd rs1 rs2) raw s rd (BitVec.ofNat 32 (a.toNat / 2 ^ n))) ∧
    (decodeWord raw = .instr (.sra rd rs1 rs2) →
      WritesAlone (.sra rd rs1 rs2) raw s rd (BitVec.ofInt 32 (a.toInt / 2 ^ n))) ∧
    (decodeWord raw = .instr (.or rd rs1 rs2) →
      WritesAlone (.or rd rs1 rs2) raw s rd (BitVec.ofNat 32 (a.toNat ||| b.toNat))) ∧
    (decodeWord raw = .instr (.and rd rs1 rs2) →
      WritesAlone (.and rd rs1 rs2) raw s rd (BitVec.ofNat 32 (a.toNat &&& b.toNat)))

/-- R184 to R192: each OP_IMM instruction alone completes and writes its result, in exact arithmetic on the immediate's
signed value, to `x[rd]`, and does nothing else. -/
def Obligations.RegisterImmediateResults : Prop :=
  ∀ (raw : Word) (rd rs1 shamt : Reg) (imm : BitVec 12) (s : State),
    let a := s.readReg rs1
    let b : Word := BitVec.ofInt 32 imm.toInt
    let n := shamt.toNat
    (decodeWord raw = .instr (.addi rd rs1 imm) →
      WritesAlone (.addi rd rs1 imm) raw s rd (BitVec.ofInt 32 ((a.toNat : Int) + imm.toInt))) ∧
    (decodeWord raw = .instr (.slti rd rs1 imm) →
      WritesAlone (.slti rd rs1 imm) raw s rd (if a.toInt < imm.toInt then 1 else 0)) ∧
    (decodeWord raw = .instr (.sltiu rd rs1 imm) →
      WritesAlone (.sltiu rd rs1 imm) raw s rd (if a.toNat < b.toNat then 1 else 0)) ∧
    (decodeWord raw = .instr (.xori rd rs1 imm) →
      WritesAlone (.xori rd rs1 imm) raw s rd (BitVec.ofNat 32 (a.toNat ^^^ b.toNat))) ∧
    (decodeWord raw = .instr (.ori rd rs1 imm) →
      WritesAlone (.ori rd rs1 imm) raw s rd (BitVec.ofNat 32 (a.toNat ||| b.toNat))) ∧
    (decodeWord raw = .instr (.andi rd rs1 imm) →
      WritesAlone (.andi rd rs1 imm) raw s rd (BitVec.ofNat 32 (a.toNat &&& b.toNat))) ∧
    (decodeWord raw = .instr (.slli rd rs1 shamt) →
      WritesAlone (.slli rd rs1 shamt) raw s rd (BitVec.ofNat 32 (a.toNat * 2 ^ n))) ∧
    (decodeWord raw = .instr (.srli rd rs1 shamt) →
      WritesAlone (.srli rd rs1 shamt) raw s rd (BitVec.ofNat 32 (a.toNat / 2 ^ n))) ∧
    (decodeWord raw = .instr (.srai rd rs1 shamt) →
      WritesAlone (.srai rd rs1 shamt) raw s rd (BitVec.ofInt 32 (a.toInt / 2 ^ n)))

/-- R193, R194: LUI and AUIPC alone complete and write the upper immediate, and its sum with the instruction's own
address, to `x[rd]`, and do nothing else. -/
def Obligations.UpperImmediateResults : Prop :=
  ∀ (raw : Word) (rd : Reg) (imm : BitVec 20) (s : State),
    (decodeWord raw = .instr (.lui rd imm) →
      WritesAlone (.lui rd imm) raw s rd (BitVec.ofNat 32 (imm.toNat * 2 ^ 12))) ∧
    (decodeWord raw = .instr (.auipc rd imm) →
      WritesAlone (.auipc rd imm) raw s rd (BitVec.ofNat 32 (s.pc.toNat + imm.toNat * 2 ^ 12)))

/-- R153: `li rd, imm` expands to one or two well-formed instructions that, run alone one after the other, complete and
leave `imm` in `x[rd]` and every other register as it was; with `rd = 0` they complete and leave every register. -/
def Obligations.LoadImmediatePseudoLoadsItsValue : Prop :=
  ∀ (rd : Reg) (imm : Word) (s : State),
    (rd ≠ 0 →
      (∃ i, (Pseudo.li rd imm).expand = [i] ∧ i.WF ∧ WritesAlone i (encode i) s rd imm) ∨
      (∃ i j s', (Pseudo.li rd imm).expand = [i, j] ∧ i.WF ∧ j.WF ∧ ExecAlone i (encode i) s s' ∧
        WritesAlone j (encode j) s' rd imm ∧ ∀ r, r ≠ rd → s'.readReg r = s.readReg r)) ∧
    (rd = 0 → ∀ i ∈ (Pseudo.li rd imm).expand, ∃ s', ExecAlone i (encode i) s s' ∧ ∀ r, s'.readReg r = s.readReg r)

/-! ## Control transfer (41_control.md) -/

/-- R225, R226: JAL and JALR alone complete, unless taken to an address that is not a multiple of 4: they write the link
to `x[rd]`, and they redirect to their target exactly when it is not the next instruction. -/
def Obligations.JumpsLinkAndRedirect : Prop :=
  ∀ (raw : Word) (rd rs1 : Reg) (offset : BitVec 21) (imm : BitVec 12) (s : State),
    let completes := fun (i : Instr) (target : Word) => target = s.pc + 4 ∨ target.toNat % 4 = 0 →
      ∃ s', ExecAlone i raw s s' ∧
        Committed s s' rd (s.pc + 4) (if target = s.pc + 4 then none else some target) ∧
        s'.work.new.EX.nextPc = target
    (decodeWord raw = .instr (.jal rd offset) →
      completes (.jal rd offset) (BitVec.ofInt 32 ((s.pc.toNat : Int) + offset.toInt))) ∧
    (decodeWord raw = .instr (.jalr rd rs1 imm) →
      completes (.jalr rd rs1 imm)
        (BitVec.ofNat 32 ((BitVec.ofInt 32 (((s.readReg rs1).toNat : Int) + imm.toInt)).toNat / 2 * 2)))

/-- R227 to R232: each branch alone completes, unless it is taken to an address that is not a multiple of 4: it writes no
register, and it redirects to its target exactly when its comparison holds and the target is not the next instruction. -/
def Obligations.BranchesRedirectOnTheirComparison : Prop :=
  ∀ (raw : Word) (rs1 rs2 : Reg) (offset : BitVec 13) (s : State),
    let a := s.readReg rs1
    let b := s.readReg rs2
    let target : Word := BitVec.ofInt 32 ((s.pc.toNat : Int) + offset.toInt)
    let completes := fun (i : Instr) (condition : Prop) => decodeWord raw = .instr i →
      (¬ condition → ∃ s', ExecAlone i raw s s' ∧ Committed s s' 0 0 none ∧ s'.work.new.EX.nextPc = s.pc + 4) ∧
      (condition → target = s.pc + 4 ∨ target.toNat % 4 = 0 →
        ∃ s', ExecAlone i raw s s' ∧
          Committed s s' 0 0 (if target = s.pc + 4 then none else some target) ∧ s'.work.new.EX.nextPc = target)
    completes (.beq rs1 rs2 offset) (a = b) ∧
    completes (.bne rs1 rs2 offset) (a ≠ b) ∧
    completes (.blt rs1 rs2 offset) (a.toInt < b.toInt) ∧
    completes (.bge rs1 rs2 offset) (b.toInt ≤ a.toInt) ∧
    completes (.bltu rs1 rs2 offset) (a.toNat < b.toNat) ∧
    completes (.bgeu rs1 rs2 offset) (b.toNat ≤ a.toNat)

/-- R221, R222, R351, R352: in EX, for every latch that holds the instruction, a control instruction is refused exactly
when its resolution is not suppressed, is taken, and goes to an address that is not a multiple of 4; else it completes,
its `next_pc` is `resolve(L)`, and it redirects exactly when that is not `pc + 4`. -/
def Obligations.ControlResolutionInExecute : Prop :=
  ∀ (i : Instr) (s : State), (i.opClass = .jal ∨ i.opClass = .jalr ∨ i.opClass = .branch) →
    s.work.stage = .execute → s.work.new.EX.kind = .instr i →
    let l := s.work.new.EX
    let target := resolve l
    (exec i s = .refused .misalignedTarget ↔
      s.work.memExc = false ∧ target ≠ l.pc + 4 ∧ target.toNat % 4 ≠ 0) ∧
    (s.work.memExc = false → (target = l.pc + 4 ∨ target.toNat % 4 = 0) →
      ∃ s', exec i s = .next s' ∧ s'.work.new.EX.nextPc = target ∧
        s'.work.taken = if target = l.pc + 4 then s.work.taken else some target) ∧
    (s.work.memExc = true →
      ∃ s', exec i s = .next s' ∧ s'.work.new.EX.nextPc = l.nextPc ∧ s'.work.taken = s.work.taken)

/-! ## Loads and stores (42_loadstore.md) -/

/-- R241 to R247: each load alone, in bounds and aligned, completes: it reads its bytes, the lowest address the least
significant, extends them and writes `x[rd]`; it makes one D-cache read, which on a miss starts the miss latency; and it
does nothing else. -/
def Obligations.LoadsReadExtendAndWrite : Prop :=
  ∀ (raw : Word) (rd rs1 : Reg) (imm : BitVec 12) (s : State),
    let address : Word := BitVec.ofInt 32 (((s.readReg rs1).toNat : Int) + imm.toInt)
    let a := address.toNat
    let byte : Nat → Nat := fun k => (s.memory.byteAt (a + k)).toNat
    let half : Nat := byte 0 + 2 ^ 8 * byte 1
    let completes := fun (i : Instr) (n : Nat) (value : Word) =>
      decodeWord raw = .instr i → a < s.memory.size → a % n = 0 →
      ∃ s', ExecAlone i raw s s' ∧ Committed { s with dc := (s.dc.access address .read).2 } s' rd value none ∧
        s'.work.dNext = if (s.dc.access address .read).1 = .miss then s.dc.config.missLatency else 0
    completes (.lb rd rs1 imm) 1 (BitVec.ofInt 32 (if byte 0 < 2 ^ 7 then (byte 0 : Int) else (byte 0 : Int) - 2 ^ 8)) ∧
    completes (.lh rd rs1 imm) 2 (BitVec.ofInt 32 (if half < 2 ^ 15 then (half : Int) else (half : Int) - 2 ^ 16)) ∧
    completes (.lw rd rs1 imm) 4 (BitVec.ofNat 32 (half + 2 ^ 16 * byte 2 + 2 ^ 24 * byte 3)) ∧
    completes (.lbu rd rs1 imm) 1 (BitVec.ofNat 32 (byte 0)) ∧
    completes (.lhu rd rs1 imm) 2 (BitVec.ofNat 32 half)

/-- R241, R242, R248 to R250: each store alone, in bounds and aligned, in a canonical memory of an admitted size,
completes: the bytes at its address become the low bytes of `x[rs2]`, every byte outside them reads as before, and the
memory stays canonical; it makes one D-cache write, which on a miss starts the miss latency; it writes no register and
does nothing else. -/
def Obligations.StoresWriteTheirBytes : Prop :=
  ∀ (raw : Word) (rs2 rs1 : Reg) (imm : BitVec 12) (s : State),
    let address : Word := BitVec.ofInt 32 (((s.readReg rs1).toNat : Int) + imm.toInt)
    let a := address.toNat
    let completes := fun (i : Instr) (n : Nat) =>
      decodeWord raw = .instr i → a < s.memory.size → a % n = 0 → s.memory.wf = true → memorySizeValid s.memory.size →
      ∃ s' m, ExecAlone i raw s s' ∧
        Committed { s with dc := (s.dc.access address .write).2, memory := m } s' 0 0 none ∧
        (∀ k < n, (m.byteAt (a + k)).toNat = (s.readReg rs2).toNat / 2 ^ (8 * k) % 2 ^ 8) ∧
        (∀ other, other < a ∨ a + n ≤ other → m.byteAt other = s.memory.byteAt other) ∧
        m.wf = true ∧ m.size = s.memory.size ∧
        s'.work.dNext = if (s.dc.access address .write).1 = .miss then s.dc.config.missLatency else 0
    completes (.sb rs2 rs1 imm) 1 ∧ completes (.sh rs2 rs1 imm) 2 ∧ completes (.sw rs2 rs1 imm) 4

/-- R242, R254, R281: in MEM, for every latch, the bound check of a load or store comes first: out of bounds, it raises
`MemoryException`, its latch becomes SQUASHED, and nothing else changes, so no cache and no memory is touched; in bounds
and misaligned, it is refused; else it completes. -/
def Obligations.MemoryChecksComeInOrder : Prop :=
  ∀ (i : Instr) (s : State), (i.opClass = .load ∨ i.opClass = .store) → s.work.stage = .memory →
    let l := s.work.new.MEM
    let n := accessWidth (.instr i)
    (s.memory.size ≤ l.memAddr.toNat →
      ∃ s', exec i s = .next s' ∧ s'.work.memExc = true ∧ s'.work.new.MEM = { l with status := .squashed } ∧
        s' = { s with work := s'.work } ∧ s'.work.dNext = s.work.dNext) ∧
    (l.memAddr.toNat < s.memory.size → l.memAddr.toNat % n ≠ 0 → exec i s = .refused .misalignedData) ∧
    (l.memAddr.toNat < s.memory.size → l.memAddr.toNat % n = 0 → ∃ s', exec i s = .next s' ∧ s'.work.memExc = s.work.memExc)

/-! ## HALT, NOP, SYSTEM (43_system_halt.md) -/

/-- R260, R261, R264: HALT and NOP alone complete with a commit that writes nothing; only HALT's commit halts. -/
def Obligations.HaltAndNopOnlyCommit : Prop :=
  ∀ s : State,
    (∃ s', ExecAlone .halt 0xFEEDFEED#32 s s' ∧
      s' = { s with dynamicInstructions := s.dynamicInstructions + 1, work := s'.work } ∧ s'.work.haltNow = true ∧
      s'.work.memExc = false ∧ s'.work.taken = none) ∧
    (∃ s', ExecAlone .nop 0x00000013#32 s s' ∧ Committed s s' 0 0 none)

/-- R262: every word of the major opcode 0x73 decodes as SYSTEM, legal, with no flag set; decoded live into ID it is
refused; not live as it enters ID, it completes: it is only decoded, and nothing else changes. -/
def Obligations.SystemIsRefusedOnlyWhenLive : Prop :=
  ∀ raw : Word, opcodeOf raw = 0x73#7 → ∃ imm rs1 f3 rd, decodeWord raw = .instr (.system imm rs1 f3 rd) ∧
    (∀ pc st, let l := decodeLatch raw pc st
      l.opcode = .system ∧ l.kind = .instr (.system imm rs1 f3 rd) ∧ l.isLegal = true ∧ l.isNop = false ∧
      l.isHalt = false ∧ l.readsRs1 = false ∧ l.readsRs2 = false ∧ l.writesRd = false ∧ l.readsMem = false ∧
      l.writesMem = false ∧ l.doesArith = false) ∧
    ∀ s : State, s.work.stage = .decode → s.work.new.ID.raw = raw →
      (s.work.new.ID.status = .normal → exec (.system imm rs1 f3 rd) s = .refused .systemInstruction) ∧
      (s.work.new.ID.status ≠ .normal →
        exec (.system imm rs1 f3 rd) s =
          .next (s.setNewID (decodeLatch raw s.work.new.ID.pc s.work.new.ID.status)))

/-- The frame of the EX stage, for all instructions (R343, R349): whatever the state, EX work changes only its own latch
and the taken target: no register, memory, cache, counter, other latch or exception. -/
def Obligations.ExecuteChangesOnlyItsLatch : Prop :=
  ∀ (i : Instr) (s s' : State), s.work.stage = .execute → exec i s = .next s' →
    ∃ l t, s' = { s with work := { s.work with taken := t, new := { s.work.new with EX := l } } } ∧
      l.decoded = s.work.new.EX.decoded

/-! ## The step -/

/-- A step runs the decoded instructions (R329, R342): in a non-freeze step of a running core whose IF latch holds the
word of `i`, with no stall and no I-miss pending, ID does the work of `i`; and the live latches entering WB, MEM and EX
do that of their instructions. What the step adds around them is the model's stage functions. -/
def Obligations.StepRunsTheDecodedInstructions : Prop :=
  ∀ (s : State), s.mode = .running → s.finalized = false → s.dMissRemaining = 0 →
    step s =
      (andThen (wbStage (beginTick s)) fun s1 => andThen (memStage (hazardStage s1)) fun s2 =>
        andThen (exStage s2) fun s3 => andThen (idStage s3) fun s4 => andThen (ifStage s4) fun s5 =>
        .next (endTick s5)) ∧
    (∀ i, s.latches.MEM.live = true → s.latches.MEM.kind = .instr i →
      wbStage s = exec i ((s.setNewWB s.latches.MEM).atStage .writeback)) ∧
    (∀ i, s.latches.EX.live = true → s.latches.EX.kind = .instr i →
      memStage s = exec i ((s.setNewMEM (storeDataForward s.latches.EX s.latches.MEM)).atStage .memory)) ∧
    (∀ i, s.work.stall = false → s.latches.ID.live = true → s.latches.ID.kind = .instr i →
      exStage s = exec i ((s.setNewEX (forward s.latches.ID s.latches.EX s.latches.MEM)).atStage .execute)) ∧
    (∀ i, s.work.stall = false → s.iMissRemaining = 0 → decodeWord s.latches.IF.raw = .instr i →
      idStage s = exec i ((s.setNewID { s.latches.IF with status := decodeStatus s }).atStage .decode))

/-- The host's interface: an instruction placed by `withFetchWord` stands in memory at the address of the IF latch, and
that latch holds it live with nothing pending before it. -/
def Obligations.FetchWordIsPlaced : Prop :=
  ∀ (s : State) (w : Word), s.memory.wf = true → s.latches.IF.pc.toNat + 4 ≤ s.memory.size →
    let t := s.withFetchWord 32 w.toNat
    t.memory.read32 s.latches.IF.pc.toNat = w ∧ t.latches.IF = decodeLatch w s.latches.IF.pc .speculative ∧
    t.stalls = false ∧ t.iMissRemaining = 0 ∧ t.dMissRemaining = 0 ∧
    (∀ a, a < s.latches.IF.pc.toNat ∨ s.latches.IF.pc.toNat + 4 ≤ a → t.memory.byteAt a = s.memory.byteAt a)

/-- R328, R341: a freeze tick republishes IF, ID, EX and MEM, puts a bubble in WB, counts down the two misses, emits its
snapshot, returns SUCCESS, and has no other effect; and a D-miss of `k` ticks makes exactly `k` freeze ticks, after which
the machine is as it was but for the bubble in WB, the counters and the `k` snapshots. -/
def Obligations.FreezeTicksHaveNoOtherEffect : Prop :=
  (∀ s : State, s.mode = .running → s.finalized = false → 0 < s.dMissRemaining →
    step s = .next { s with
      latches := { s.latches with WB := bubbleLatch }
      dMissRemaining := s.dMissRemaining - 1
      iMissRemaining := s.iMissRemaining - 1
      cycleCount := s.cycleCount + 1
      sink := .snapshot (snapshotOf s.cycleCount { s.latches with WB := bubbleLatch }) :: s.sink
      work := .rest }) ∧
  (∀ (k : Nat) (s : State), s.mode = .running → s.finalized = false → s.dMissRemaining = k → 0 < k →
    ∃ s', Sys2Proof.core.run k s = .next s' ∧
      s' = { s with
        latches := { s.latches with WB := bubbleLatch }
        dMissRemaining := 0
        iMissRemaining := s.iMissRemaining - k
        cycleCount := s.cycleCount + k
        sink := s'.sink
        work := .rest } ∧
      snapshotCount s'.sink = snapshotCount s.sink + k)

/-- R377: a step is refused with `NotRunning` exactly when the core does not run or is finalized. -/
def Obligations.StepIsRefusedUnlessRunning : Prop :=
  ∀ s : State, step s = .refused .notRunning ↔ s.mode ≠ .running ∨ s.finalized = true

/-- R297, R360, R86, R222, R89: in a running core between ticks, a non-freeze tick is refused exactly in the cases the
spec names, each with its reason, the first in the tick's order; in every other case it completes. -/
def Obligations.TickCompletesUnlessRefused : Prop :=
  ∀ s : State, s.Inv → s.mode = .running → s.finalized = false → s.dMissRemaining = 0 →
    let misalignedData : Prop := s.accesses = true ∧ s.memRaises = false ∧
      s.latches.EX.memAddr.toNat % accessWidth s.latches.EX.kind ≠ 0
    let misalignedTarget : Prop := s.takes = true ∧ (resolve s.forwarded).toNat % 4 ≠ 0
    let reserved : Prop := s.decodesLive = true ∧ ∃ c, decodeWord s.latches.IF.raw = .reserved c
    let system : Prop := s.decodesLive = true ∧
      ∃ imm rs1 f3 rd, decodeWord s.latches.IF.raw = .instr (.system imm rs1 f3 rd)
    let fetchOut : Prop := s.fetches = true ∧ s.memory.size < s.pc.toNat + 4
    (misalignedData → step s = .refused .misalignedData) ∧
    (¬ misalignedData → misalignedTarget → step s = .refused .misalignedTarget) ∧
    (¬ misalignedData → ¬ misalignedTarget → reserved → step s = .refused .reservedEncoding) ∧
    (¬ misalignedData → ¬ misalignedTarget → system → step s = .refused .systemInstruction) ∧
    (¬ misalignedData → ¬ misalignedTarget → ¬ reserved → ¬ system → fetchOut → step s = .refused .fetchOutOfRange) ∧
    (¬ misalignedData → ¬ misalignedTarget → ¬ reserved → ¬ system → ¬ fetchOut → ∃ s', step s = .next s')

/-- R33, R331 to R334: in a non-freeze tick the latch leaving MEM enters WB whatever its status; when it is NORMAL it
commits, writing its load value or else its ALU result to its register, unless that is `x0`; no other register changes. -/
def Obligations.WritebackCommitsTheNormalLatch : Prop :=
  ∀ s s' : State, s.dMissRemaining = 0 → step s = .next s' →
    s'.latches.WB = s.latches.MEM ∧
    s'.dynamicInstructions = s.dynamicInstructions + (if s.latches.MEM.status = .normal then 1 else 0) ∧
    (∀ r : Reg, s'.readReg r =
      if s.latches.MEM.status = .normal ∧ s.latches.MEM.writesRd = true ∧ s.latches.MEM.rd ≠ 0 ∧ r = s.latches.MEM.rd
      then (if s.latches.MEM.readsMem then s.latches.MEM.memResult else s.latches.MEM.aluResult)
      else s.readReg r)

/-- R339: store-data forwarding, with each of its conditions; and it is made before the MEM step: the latch that the MEM
work of the instruction in `EX'` finds is the forwarded one. -/
def Obligations.StoreDataForwarding : Prop :=
  (∀ e m : Latch,
    storeDataForward e m =
      if e.status = .normal ∧ e.writesMem = true ∧ e.readsMem = false ∧ e.readsRs2 = true ∧ e.rs2 ≠ 0 ∧
        m.status = .normal ∧ m.readsMem = true ∧ m.writesRd = true ∧ m.rd = e.rs2
      then { e with op2Val := m.memResult } else e) ∧
  ∀ (s : State) (i : Instr), s.latches.EX.live = true → s.latches.EX.kind = .instr i →
    memStage s = exec i ((s.setNewMEM (storeDataForward s.latches.EX s.latches.MEM)).atStage .memory)

/-- R339 to R341, R110, R103: what the MEM step of a non-freeze tick does: nothing but forwarding unless a live load or
store enters; out of bounds, a squash alone; else one D-cache access, the load's value or the store's bytes, and on a
miss the freeze (which an exception of the same tick cancels, R286). -/
def Obligations.MemoryStepOfATick : Prop :=
  ∀ s s' : State, s.Inv → s.dMissRemaining = 0 → step s = .next s' →
    let e := storeDataForward s.latches.EX s.latches.MEM
    let access := s.dc.access e.memAddr (if e.readsMem then .read else .write)
    if s.accesses = false then
      s'.latches.MEM = e ∧ s'.memory = s.memory ∧ s'.dc = s.dc ∧ s'.dMissRemaining = 0
    else if s.memRaises = true then
      s'.latches.MEM = { e with status := .squashed } ∧ s'.memory = s.memory ∧ s'.dc = s.dc ∧ s'.dMissRemaining = 0
    else
      s'.dc = access.2 ∧
      s'.dMissRemaining = (if access.1 = .miss ∧ s.raises = false then s.dc.config.missLatency else 0) ∧
      s'.latches.MEM = (if e.readsMem then { e with memResult := loadValue e.kind s.memory e.memAddr.toNat } else e) ∧
      s'.memory = if e.writesMem then s.memory.write e.memAddr.toNat (accessWidth e.kind) e.op2Val else s.memory

/-- R346: the operand of a live consumer, from the first source that applies. -/
def Obligations.ForwardingPriorities : Prop :=
  ∀ d ex mem : Latch,
    let operand := fun (reads : Bool) (r : Reg) (captured : Word) =>
      if reads = false ∨ r = 0 then captured
      else if ex.status = .normal ∧ ex.writesRd = true ∧ ex.rd = r ∧ ex.doesArith = true then ex.aluResult
      else if mem.status = .normal ∧ mem.writesRd = true ∧ mem.rd = r ∧ mem.readsMem = true then mem.memResult
      else if mem.status = .normal ∧ mem.writesRd = true ∧ mem.rd = r ∧ mem.doesArith = true then mem.aluResult
      else captured
    forward d ex mem =
      { d with op1Val := operand d.readsRs1 d.rs1 d.op1Val, op2Val := operand d.readsRs2 d.rs2 d.op2Val }

/-- R344, R345, R349, R350, R284: what EX publishes: a bubble in a stall; a latch that is not live unchanged; else ID'
with its operands forwarded, its `next_pc` resolved if it is a control instruction that resolves, its address computed if
it is a load or store, and its ALU result: the value of its rule in 40_integer.md on the forwarded operands, the link of a
jump, 0 for NOP, else as it was; squashed when the tick raises `MemoryException`. -/
def Obligations.ExecuteStepOfATick : Prop :=
  ∀ s s' : State, s.Inv → s.dMissRemaining = 0 → step s = .next s' →
    let d := s.forwarded
    let squashed := fun l : Latch => if s.memRaises then { l with status := .squashed } else l
    if s.stalls = true then s'.latches.EX = squashed bubbleLatch
    else if s.latches.ID.live = false then s'.latches.EX = squashed s.latches.ID
    else s'.latches.EX = squashed { d with
      nextPc := if s.resolves then resolve d else d.nextPc
      memAddr := if d.readsMem ∨ d.writesMem then d.op1Val + d.imm else d.memAddr
      aluResult := aluValue d }

/-- R355 to R359, R284: what ID publishes: in a stall the held latch, its operands captured again when it is live; a
bubble while an I-miss is pending; else the decode of IF' with the status of R359, its operands captured after this
tick's register write; squashed when the tick raises an exception. -/
def Obligations.DecodeStepOfATick : Prop :=
  ∀ s s' : State, s.Inv → s.dMissRemaining = 0 → step s = .next s' →
    let captured := fun l : Latch => if l.status = .normal then
      { l with op1Val := if l.readsRs1 then s'.readReg l.rs1 else 0, op2Val := if l.readsRs2 then s'.readReg l.rs2 else 0 }
      else l
    let squashedIf := fun (b : Bool) (l : Latch) => if b then { l with status := .squashed } else l
    s'.latches.ID = squashedIf s.raises
      (if s.stalls then captured s.latches.ID
       else if 0 < s.iMissRemaining then squashedIf s.takes bubbleLatch
       else captured (decodeLatch s.latches.IF.raw s.latches.IF.pc
         (if s.latches.IF.status = .squashed ∨ s.takes = true ∨ s.memRaises = true then .squashed else .normal)))

/-- R362 to R369, R109, R113, R384 item 3: what IF publishes, what it does to the I-cache, and the I-miss it leaves: the
handler latch in an exception tick; the held latch with one re-access in a stall; the held latch while an I-miss is
pending; else one access and the word at `pc` as memory stands after this tick's store. A taken resolution squashes the
latch, invalidates the line of an outstanding fetch, and cancels the miss. -/
def Obligations.FetchStepOfATick : Prop :=
  ∀ s s' : State, s.Inv → s.dMissRemaining = 0 → step s = .next s' →
    let held := s.latches.IF
    let new := decodeLatch (s'.memory.read32 s.pc.toNat) s.pc
      (if s'.latches.ID.live = true ∧ s'.latches.ID.isControl = true then .speculative else .normal)
    let access := s.ic.access s.pc .read
    if s.raises = true then
      s'.latches.IF = decodeLatch 0x00000013#32 0x00008000#32 .squashed ∧ s'.ic = s.ic ∧ s'.iMissRemaining = 0
    else if s.stalls = true then
      s'.latches.IF = held ∧
      s'.ic = (if s.iMissRemaining = 0 then (s.ic.access held.pc .read).2 else s.ic) ∧
      s'.iMissRemaining = s.iMissRemaining - 1
    else if 0 < s.iMissRemaining then
      if s.takes = true then
        s'.latches.IF = { held with status := .squashed } ∧ s'.ic = s.ic.invalidate held.pc ∧ s'.iMissRemaining = 0
      else s'.latches.IF = held ∧ s'.ic = s.ic ∧ s'.iMissRemaining = s.iMissRemaining - 1
    else if s.takes = true then
      s'.latches.IF = { new with status := .squashed } ∧
      s'.ic = (if access.1 = .miss then access.2.invalidate s.pc else access.2) ∧ s'.iMissRemaining = 0
    else
      s'.latches.IF = new ∧ s'.ic = access.2 ∧
      s'.iMissRemaining = if access.1 = .miss then s.ic.config.missLatency else 0

/-- R35, R371: `pc` after a tick is decided by the first that applies. -/
def Obligations.ProgramCounterAfterATick : Prop :=
  ∀ s s' : State, s.Inv → step s = .next s' →
    s'.pc =
      if 0 < s.dMissRemaining then s.pc
      else if s.raises = true then 0x00008000#32
      else if s.takes = true then resolve s.forwarded
      else if s.fetches = true then s.pc + 4
      else s.pc

/-- R335 to R337: whether a non-freeze tick stalls, written out; and what it does to `load_branch_extra` and
`load_stall_count` (R372, R286). -/
def Obligations.HazardTableOfATick : Prop :=
  ∀ s s' : State, s.Inv → s.dMissRemaining = 0 → step s = .next s' →
    let d := s.latches.ID
    let e := s.latches.EX
    let both : Prop := d.status = .normal ∧ e.status = .normal
    let control : Prop := d.opcode = .branch ∨ d.opcode = .jal ∨ d.opcode = .jalr
    let haz1 : Prop := d.readsRs1 = true ∧ d.rs1 = e.rd
    let haz2 : Prop := d.readsRs2 = true ∧ d.rs2 = e.rd
    let loads : Prop := e.readsMem = true ∧ e.writesRd = true ∧ e.rd ≠ 0
    let computes : Prop := e.doesArith = true ∧ e.writesRd = true ∧ e.rd ≠ 0
    let loadBranch : Prop := both ∧ loads ∧ control ∧ (haz1 ∨ haz2)
    let loadUse : Prop := both ∧ loads ∧ ¬ control ∧ (haz1 ∨ haz2 ∧ d.writesMem = false)
    let arithBranch : Prop := both ∧ computes ∧ control ∧ (haz1 ∨ haz2)
    (s.stalls = true ↔ 0 < s.loadBranchExtra ∨ loadBranch ∨ loadUse ∨ arithBranch) ∧
    (s.raises = true ∨ 0 < s.loadBranchExtra ∨ ¬ loadBranch → s'.loadBranchExtra = 0) ∧
    (s.raises = false → s.loadBranchExtra = 0 → loadBranch → s'.loadBranchExtra = 1) ∧
    (s.memRaises = false → s.loadBranchExtra = 0 → loadBranch ∨ loadUse →
      s'.loadStallCount = s.loadStallCount + 1) ∧
    (s.memRaises = true ∨ 0 < s.loadBranchExtra ∨ ¬ (loadBranch ∨ loadUse) → s'.loadStallCount = s.loadStallCount)

/-- R387, R338: after a stall tick no live instruction is in EX, and the next non-freeze tick stalls only as the second
cycle of a load-branch stall, so a hazard stall lasts at most two ticks; a freeze tick between changes nothing of it. -/
def Obligations.HazardStallLastsAtMostTwoTicks : Prop :=
  ∀ s s' : State, s.Inv → step s = .next s' →
    (0 < s.dMissRemaining → s'.stalls = s.stalls ∧ s'.loadBranchExtra = s.loadBranchExtra) ∧
    (s.dMissRemaining = 0 → s.stalls = true →
      s'.latches.EX.live = false ∧ (s'.stalls = true → s.loadBranchExtra = 0 ∧ s'.loadBranchExtra = 1))

/-- R261, R373, R52: the mode after a non-freeze tick. When a halt commits in a tick that raises an exception the core
stops, in one of the two ways; the free draw that decides (log 4) is named nowhere here. -/
def Obligations.ModeAfterATick : Prop :=
  ∀ s s' : State, s.Inv → s.dMissRemaining = 0 → step s = .next s' →
    (s.raises = true → s.halts = false → s'.mode = .errored) ∧
    (s.raises = false → s.halts = true → s'.mode = .halted) ∧
    (s.raises = true → s.halts = true → s'.mode = .errored ∨ s'.mode = .halted) ∧
    (s.raises = false → s.halts = false → s'.mode = .running)

/-- R46, R378: every tick emits one snapshot of the latches it publishes, with the cycle count before it, and counts. -/
def Obligations.EveryTickEmitsItsSnapshot : Prop :=
  ∀ s s' : State, step s = .next s' →
    s'.cycleCount = s.cycleCount + 1 ∧
    s'.sink = .snapshot
      { cycle := s.cycleCount, ifPc := s'.latches.IF.pc, ifStatus := s'.latches.IF.status,
        idInstr := s'.latches.ID.raw, idStatus := s'.latches.ID.status,
        exInstr := s'.latches.EX.raw, exStatus := s'.latches.EX.status,
        memInstr := s'.latches.MEM.raw, memStatus := s'.latches.MEM.status,
        wbInstr := s'.latches.WB.raw, wbStatus := s'.latches.WB.status } :: s.sink

/-- What no tick changes: the size of memory, the cache configurations, and whether the core is finalized (R11, R55, R60,
R94, R376). -/
def Obligations.NoTickChangesTheConfiguration : Prop :=
  ∀ s s' : State, step s = .next s' →
    s'.memory.size = s.memory.size ∧ s'.ic.config = s.ic.config ∧ s'.dc.config = s.dc.config ∧
    s'.finalized = false

/-! ## Exceptions (60_exceptions.md) -/

/-- R284, R286, R362: trap entry. A tick that raises an exception squashes the raising instruction and every younger one,
puts the handler latch in IF, sets `pc` to the handler, clears every pending stall, and stops the core (with ERROR,
unless a halt commits in it); the `MEM'` latch commits as in any tick. When no halt commits in the tick, the annotation of
the ERROR outcome (R287) names the cause, the older instruction first. -/
def Obligations.TrapEntry : Prop :=
  ∀ s s' : State, s.Inv → s.dMissRemaining = 0 → step s = .next s' → s.raises = true →
    s'.pc = 0x00008000#32 ∧ s'.latches.IF = decodeLatch 0x00000013#32 0x00008000#32 .squashed ∧
    s'.latches.ID.status = .squashed ∧
    s'.iMissRemaining = 0 ∧ s'.dMissRemaining = 0 ∧ s'.loadBranchExtra = 0 ∧
    s'.mode ≠ .running ∧ (s.halts = false → s'.mode = .errored) ∧ s'.ic = s.ic ∧ s'.latches.WB = s.latches.MEM ∧
    (s.latches.MEM.status = .normal → s'.dynamicInstructions = s.dynamicInstructions + 1) ∧
    (s.memRaises = true → s'.loadStallCount = s.loadStallCount) ∧
    (s.memRaises = true →
      s'.latches.MEM.status = .squashed ∧ s'.latches.EX.status = .squashed ∧
      (s.halts = false →
        s'.errorNote = some { cause := .memoryException, epc := s.latches.EX.pc, badaddr := some s.latches.EX.memAddr })) ∧
    (s.memRaises = false →
      s'.latches.MEM.status = s.latches.EX.status ∧
      s'.latches.EX.status = s.latches.ID.status ∧
      (s.halts = false →
        s'.errorNote = some { cause := .illegalInstruction, epc := s.latches.IF.pc, badaddr := none }))

/-- R288, R281: `MemoryException` is precise: only the older instruction's commit changes a register, and memory and
both caches are as they were. -/
def Obligations.MemoryExceptionIsPrecise : Prop :=
  ∀ s s' : State, s.Inv → s.dMissRemaining = 0 → step s = .next s' → s.memRaises = true →
    s'.memory = s.memory ∧ s'.dc = s.dc ∧ s'.ic = s.ic ∧ s'.loadStallCount = s.loadStallCount ∧
    (∀ r : Reg, s'.readReg r ≠ s.readReg r → s.latches.MEM.status = .normal ∧ s.latches.MEM.rd = r)

/-- R285, R298: after the WB, MEM, EX and ID work of a tick at most one of the two exceptions is raised, and each exactly
when its condition held at the start of the tick; a tick that raised one completes, and it is the last: no tick follows
it. -/
def Obligations.ExceptionTickIsTheLast : Prop :=
  ∀ s s1 s2 s3 s4 : State, s.Inv → s.dMissRemaining = 0 →
    wbStage (beginTick s) = .next s1 → memStage (hazardStage s1) = .next s2 → exStage s2 = .next s3 →
    idStage s3 = .next s4 →
    ¬ (s4.work.memExc = true ∧ s4.work.illegal = true) ∧
    s4.work.memExc = s.memRaises ∧ s4.work.illegal = s.illegalRaises ∧
    (s4.work.exc = true → s.mode = .running → s.finalized = false →
      ∃ s', step s = .next s' ∧ s'.mode ≠ .running ∧ step s' = .refused .notRunning)

/-! ## Caches (20_memory.md) -/

/-- R100, R101: a good cache that has sets hits when a way of the indexed set holds the tag: that way is stamped with the
new clock, `hits` and `clock` grow by 1, and no other way, counter or setting changes. -/
def Obligations.CacheHit : Prop :=
  ∀ (c : Cache) (a : Word) (op : CacheOp) (w : Nat) (way : Way), c.Good → c.config.degenerate = false →
    (c.setAt (c.config.indexOf a))[w]? = some way → way.valid = true → way.tag = c.config.tagOf a →
    ∃ c', c.access a op = (.hit, c') ∧
      c' = { c with hits := c.hits + 1, clock := c.clock + 1, sets := c'.sets } ∧
      ∀ i j, (c'.setAt i)[j]? =
        if i = c.config.indexOf a ∧ j = w then some { way with lruStamp := c.clock + 1 } else (c.setAt i)[j]?

/-- R100, R102, R103: a good cache that has sets misses when no valid way of the indexed set holds the tag: the block
goes, marked valid and stamped with the new clock, into the first invalid way, or, when there is none, into the way with
the smallest stamp; `misses` and `clock` grow by 1, and no other way, counter or setting changes. -/
def Obligations.CacheMiss : Prop :=
  ∀ (c : Cache) (a : Word) (op : CacheOp), c.Good → c.config.degenerate = false →
    let set : List Way := c.setAt (c.config.indexOf a)
    (∀ way ∈ set, way.valid = true → way.tag ≠ c.config.tagOf a) →
    ∃ (c' : Cache) (v : Nat) (old : Way), c.access a op = (.miss, c') ∧
      c' = { c with misses := c.misses + 1, clock := c.clock + 1, sets := c'.sets } ∧
      set[v]? = some old ∧
      (old.valid = false ∧ (∀ j way, j < v → set[j]? = some way → way.valid = true) ∨
       (∀ way ∈ set, way.valid = true) ∧
         ∀ j way, j ≠ v → set[j]? = some way → old.lruStamp < way.lruStamp) ∧
      ∀ i j, (c'.setAt i)[j]? =
        if i = c.config.indexOf a ∧ j = v
        then some { valid := true, tag := c.config.tagOf a, lruStamp := c.clock + 1 } else (c.setAt i)[j]?

/-- R95, R105: a cache with no sets or no ways answers every access with a miss and changes nothing, and an invalidation
does nothing to it. -/
def Obligations.DegenerateCacheAlwaysMisses : Prop :=
  ∀ (c : Cache) (a : Word) (op : CacheOp),
    c.config.ways = 0 ∨ c.config.cacheSize / c.config.blockSize / c.config.ways = 0 →
    c.access a op = (.miss, c) ∧ c.invalidate a = c

/-- R104, R107: an invalidation clears the valid bit of the way of the indexed set that holds the tag, if a valid one
does, keeps that way's tag and stamp, and changes no other way, no counter and no setting (on a cache that has no sets,
nothing); an access to the same address after it misses, and adds 1 to the misses of a cache that has sets. An access to
an address just accessed hits (R102: the miss installs the block at once). -/
def Obligations.InvalidatedMissesAndInstalledHits : Prop :=
  ∀ (c : Cache) (a : Word) (op op' : CacheOp), c.Good →
    c.invalidate a = { c with sets := (c.invalidate a).sets } ∧
    (c.config.degenerate = true → c.invalidate a = c) ∧
    (∀ i j : Nat, ((c.invalidate a).setAt i)[j]? =
      ((c.setAt i)[j]?).map fun way : Way =>
        if i = c.config.indexOf a ∧ way.valid = true ∧ way.tag = c.config.tagOf a then { way with valid := false }
        else way) ∧
    ((c.invalidate a).access a op).1 = .miss ∧
    (c.config.degenerate = false →
      ((c.invalidate a).access a op).2.misses = c.misses + 1 ∧
      ((c.access a op).2.access a op').1 = .hit)

/-! ## Memory and registers -/

/-- R82 to R84: in a canonical memory, `MemWrite` changes exactly its bytes, the least significant at the lowest address,
and `MemRead` of each width gives back what was written. -/
def Obligations.MemoryIsLittleEndian : Prop :=
  ∀ (m : Memory) (a n : Nat) (v : Word), m.wf = true → a + n ≤ m.size → n ≤ 4 →
    (∀ k < n, ((m.write a n v).byteAt (a + k)).toNat = v.toNat / 2 ^ (8 * k) % 2 ^ 8) ∧
    (∀ other, other < a ∨ a + n ≤ other → (m.write a n v).byteAt other = m.byteAt other) ∧
    (m.write a n v).wf = true ∧
    (n = 1 → ((m.write a n v).read8 a).toNat = v.toNat % 2 ^ 8) ∧
    (n = 2 → ((m.write a n v).read16 a).toNat = v.toNat % 2 ^ 16) ∧
    (n = 4 → (m.write a n v).read32 a = v) ∧
    (m.read32 a).toNat = (m.byteAt a).toNat + 2 ^ 8 * (m.byteAt (a + 1)).toNat +
      2 ^ 16 * (m.byteAt (a + 2)).toNat + 2 ^ 24 * (m.byteAt (a + 3)).toNat

/-- The canonical form of memory (log 14, the model's own): canonical memories of one size that read alike are equal, so
equal memories are equal data. -/
def Obligations.CanonicalMemoriesThatReadAlikeAreEqual : Prop :=
  ∀ m m' : Memory, m.wf = true → m'.wf = true → m.size = m'.size → (∀ a, m.byteAt a = m'.byteAt a) → m = m'

/-- R32, R14: register 0 reads 0 in every state and a write to it has no effect; a write to another register changes that
one alone. -/
def Obligations.RegisterZeroIsHardwired : Prop :=
  ∀ (s : State) (r r' : Reg) (v : Word),
    s.readReg 0 = 0 ∧ s.writeReg 0 v = s ∧
    (r ≠ 0 → (s.writeReg r v).readReg r = v) ∧ (r' ≠ r → (s.writeReg r v).readReg r' = s.readReg r') ∧
    s.writeReg r v = { s with regs := (s.writeReg r v).regs }

/-! ## The invariant -/

/-- Every step keeps the invariant of the core: the memory canonical, `x0` at 0, `pc` and the fetch aligned (R36, R87),
the latches decoded from their words and of a legal status (R40, R41), the caches good (R107), the counters in their
ranges (R50), the snapshots numbered (R384), and an errored core at the handler with nothing pending (R298). -/
def Obligations.EveryStepKeepsTheInvariant : Prop :=
  ∀ s s' : State, s.Inv → step s = .next s' → s'.Inv

/-- Reset is the `init` of the parameters and the image that the model chose (log 1, log 2), and the invariant holds
right after it. -/
def Obligations.ResetHasTheInvariant : Prop :=
  init Config.resetCache Config.resetCache Config.resetMemorySize (List.replicate Config.resetMemorySize 0) =
      .next State.reset ∧ State.reset.Inv

/-- The invariant holds after every `init` that is not refused, so in every state a run reaches. -/
def Obligations.InitEstablishesTheInvariant : Prop :=
  ∀ (icfg dcfg : CacheConfig) (size : Nat) (image : List Byte) (s : State),
    init icfg dcfg size image = .next s → s.Inv

/-! ## Reset and the host's operations (70_reset_and_hazards.md) -/

/-- R61, R322, R323: `init` with admitted arguments completes with every register 0, `pc` 4, the word at 0 in IF as
SPECULATIVE, the other latches idle NOPs, every counter 0 but the I-cache's cold miss, and in both caches every way
invalid with tag and stamp 0, but for way 0 of set 0 of an I-cache that has sets, into which the initial fetch installs
the block of address 0 with stamp 1. -/
def Obligations.InitGivesTheResetTable : Prop :=
  ∀ (icfg dcfg : CacheConfig) (size : Nat) (image : List Byte),
    icfg.valid = true → dcfg.valid = true → memorySizeValid size = true → image.length = size →
    ∃ s, init icfg dcfg size image = .next s ∧
      (∀ r, s.readReg r = 0) ∧ s.pc = 4 ∧
      s.latches.IF = decodeLatch (s.memory.read32 0) 0 .speculative ∧
      s.latches.ID = decodeLatch 0x00000013#32 0 .idle ∧ s.latches.EX = s.latches.ID ∧ s.latches.MEM = s.latches.ID ∧
      s.latches.WB = s.latches.ID ∧
      s.cycleCount = 0 ∧ s.loadStallCount = 0 ∧ s.iMissRemaining = icfg.missLatency ∧ s.dMissRemaining = 0 ∧
      s.loadBranchExtra = 0 ∧ s.dynamicInstructions = 0 ∧ s.mode = .running ∧ s.errorNote = none ∧ s.sink = [] ∧
      s.finalized = false ∧
      s.ic.config = icfg ∧ s.dc.config = dcfg ∧ s.ic.hits = 0 ∧ s.dc.hits = 0 ∧ s.dc.misses = 0 ∧ s.dc.clock = 0 ∧
      s.ic.misses = (if icfg.degenerate then 0 else 1) ∧ s.ic.clock = s.ic.misses ∧
      s.dc.sets = List.replicate dcfg.numSets
        (List.replicate dcfg.ways { valid := false, tag := 0, lruStamp := 0 }) ∧
      s.ic.sets.length = icfg.numSets ∧ (∀ ways ∈ s.ic.sets, ways.length = icfg.ways) ∧
      (∀ i j, i < icfg.numSets → j < icfg.ways → (s.ic.setAt i)[j]? =
        some (if i = 0 ∧ j = 0 then { valid := true, tag := 0, lruStamp := 1 }
          else { valid := false, tag := 0, lruStamp := 0 })) ∧
      s.memory.size = size

/-- R92, R55: the memory after `init` is the program image: it has exactly the image's bytes, each at its address. -/
def Obligations.InitLoadsTheImage : Prop :=
  ∀ (icfg dcfg : CacheConfig) (size : Nat) (image : List Byte) (s : State),
    init icfg dcfg size image = .next s →
    image.length = size ∧ s.memory.size = size ∧ ∀ a, a < size → image[a]? = some (s.memory.byteAt a)

/-- R321, R11, R81: `init` is refused with `InvalidConfig` exactly when a cache size, block size or number of ways is not
a power of two, the memory size is not a multiple of 4 from 4 to 2^32, or the image has not exactly that many bytes; it
never ends otherwise without a core. -/
def Obligations.InitRefusesInvalidConfigurations : Prop :=
  ∀ (icfg dcfg : CacheConfig) (size : Nat) (image : List Byte),
    let power := fun n : Nat => ∃ k, n = 2 ^ k
    let admitted := fun c : CacheConfig => power c.cacheSize ∧ power c.blockSize ∧ power c.ways
    let good : Prop := admitted icfg ∧ admitted dcfg ∧ 4 ≤ size ∧ size ≤ 2 ^ 32 ∧ size % 4 = 0 ∧
      image.length = size
    (¬ good → init icfg dcfg size image = .refused .invalidConfig) ∧
    (good → ∃ s, init icfg dcfg size image = .next s)

/-- R375: `run_till_halt`, a loop over `run_cycles(1)`, is `run_cycles(0)`, for every fuel. -/
def Obligations.RunTillHaltIsRunUntilStop : Prop :=
  ∀ (fuel : Nat) (s : State), s.mode = .running → s.finalized = false → runTillHalt fuel s = runUntilStop fuel s

/-- R375: `run_cycles(n)` that returns runs at least one and at most `n` ticks, and fewer than `n` only when the core has
halted or failed; every tick emits one snapshot. -/
def Obligations.RunCyclesRunsUpToItsBudget : Prop :=
  ∀ (n : Nat) (s s' : State), 0 < n → runCycles n s = .next s' →
    s.cycleCount < s'.cycleCount ∧ s'.cycleCount ≤ s.cycleCount + n ∧
    (s'.mode = .running → s'.cycleCount = s.cycleCount + n) ∧
    s'.sink.length + s.cycleCount = s.sink.length + s'.cycleCount

/-- R376, R377, R379: `finalize` emits the statistics once, in any mode, and changes nothing else; after it every
operation on the core is refused with `NotRunning`, as is `run_cycles` on a core that does not run, and any operation but
`init` before a core is made. -/
def Obligations.FinalizeEndsTheCore : Prop :=
  ∀ (fuel : Nat) (s : State), s.finalized = false →
    (s.mode ≠ .running → step s = .refused .notRunning ∧
      ∀ n, hostOp fuel (some s) (.runCycles n) = some (.refused .notRunning)) ∧
    ∃ s', finalize s = .next s' ∧
      s' = { s with
        sink := .statistics
          { dynamicInstructions := s.dynamicInstructions, totalCycles := s.cycleCount, icHits := s.ic.hits,
            icMisses := s.ic.misses, dcHits := s.dc.hits, dcMisses := s.dc.misses, loadStalls := s.loadStallCount }
          :: s.sink
        finalized := true } ∧
      step s' = .refused .notRunning ∧ finalize s' = .refused .notRunning ∧
      (∀ n, hostOp fuel (some s') (.runCycles n) = some (.refused .notRunning)) ∧
      hostOp (fuel + 1) (some s') .runTillHalt = some (.refused .notRunning) ∧
      (∀ n, hostOp fuel none (.runCycles n) = some (.refused .notRunning)) ∧
      hostOp fuel none .runTillHalt = some (.refused .notRunning) ∧
      hostOp fuel none .finalize = some (.refused .notRunning)

/-! ## The pipeline and sequential execution -/

/-- R385: a run that ends with HALT, with no exception and no store into its own instruction window, leaves the registers
of the sequential execution of the same image from address 0 up to and including the halt, and, before the tick in which
the halt commits, its memory; the store that may stand at `h+4` is the only thing that tick can add. -/
def Obligations.SequentialEquivalence : Prop :=
  ∀ (icfg dcfg : CacheConfig) (size : Nat) (image : List Byte) (n : Nat) (s0 u s' : State),
    init icfg dcfg size image = .next s0 → ClearRun n s0 u → u.storeClear → step u = .next s' →
    s'.mode = .halted → s'.errorNote = none →
    ∃ k t, seqRun k { s0 with pc := 0 } = .next t ∧ t.mode = .halted ∧ t.regs = s'.regs ∧ t.memory = u.memory ∧
      (¬ (u.latches.EX.live = true ∧ u.latches.EX.writesMem = true) → t.memory = s'.memory)

/-- R287 and log 8 (the model's own): the annotation after a tick. A freeze tick, and a tick that raises no exception,
leave it as it was; one that raises an exception writes its cause, the raising instruction's address and, for
`MemoryException`, the address accessed: by log 8 also when a halt commits in the same tick. -/
def Obligations.AnnotationAfterATick : Prop :=
  ∀ s s' : State, s.Inv → step s = .next s' →
    s'.errorNote =
      if 0 < s.dMissRemaining ∨ s.raises = false then s.errorNote
      else if s.memRaises = true then
        some { cause := .memoryException, epc := s.latches.EX.pc, badaddr := some s.latches.EX.memAddr }
      else some { cause := .illegalInstruction, epc := s.latches.IF.pc, badaddr := none }
end

