-- ==== Sys2Proof/Laws/Cache.lean ====
section
/-! SUPPORT. The laws of a cache: what an access and an invalidation keep (R94 to R108). -/

namespace Sys2Proof.Machine

/-! ## Sets -/

/-- The index of an address lies below the number of sets (R97). -/
theorem indexOf_lt (c : CacheConfig) (h : c.degenerate = false) (a : Word) : c.indexOf a < c.numSets := by
  have h0 : c.numSets ≠ 0 := by simpa [CacheConfig.degenerate] using h
  have := Nat.and_le_right (n := (a.zeroExtend 64 >>> c.offsetBits).toNat) (m := c.numSets - 1)
  unfold CacheConfig.indexOf
  omega

/-- The shape of a tag array (R53, R98). -/
theorem Cache.shaped_iff (c : Cache) :
    c.shaped = true ↔ c.sets.length = c.config.numSets ∧ ∀ ways ∈ c.sets, ways.length = c.config.ways := by
  simp [Cache.shaped]

/-- The set an address indexes is one of the cache's sets. -/
theorem Cache.setAt_mem {c : Cache} (hs : c.shaped = true) (hd : c.config.degenerate = false) (a : Word) :
    c.setAt (c.config.indexOf a) ∈ c.sets := by
  have hl := (c.shaped_iff.mp hs).1
  have hi := indexOf_lt c.config hd a
  have hlt : c.config.indexOf a < c.sets.length := by omega
  simp only [Cache.setAt, List.getD_eq_getElem?_getD, List.getElem?_eq_getElem hlt, Option.getD_some]
  exact List.getElem_mem hlt

/-- A cache that has sets has ways. -/
theorem ways_pos {c : CacheConfig} (h : c.degenerate = false) : 0 < c.ways := by
  rcases Nat.eq_zero_or_pos c.ways with h0 | h0
  · simp [CacheConfig.degenerate, CacheConfig.numSets, h0] at h
  · exact h0

/-! ## Replacement -/

/-- The oldest way is a way of the set. -/
theorem oldestWay_lt {ways : List Way} (h : ways ≠ []) : oldestWay ways < ways.length := by
  induction ways with
  | nil => exact absurd rfl h
  | cons w rest ih =>
    simp only [oldestWay]
    split
    · rename_i o ho
      have : oldestWay rest < rest.length := by
        by_contra hge
        rw [List.getElem?_eq_none (by omega)] at ho
        exact absurd ho (by simp)
      split <;> simp; omega
    · simp

/-- No way of the set is older than the oldest. -/
theorem oldestWay_le {ways : List Way} {o : Way} (ho : ways[oldestWay ways]? = some o) :
    ∀ w ∈ ways, o.lruStamp ≤ w.lruStamp := by
  induction ways generalizing o with
  | nil => intro w hw; simp at hw
  | cons v rest ih =>
    intro w hw
    simp only [oldestWay] at ho
    split at ho
    · rename_i p hp
      have ihp := ih hp
      split at ho
      · rename_i hlt
        simp only [List.getElem?_cons_succ, hp, Option.some.injEq] at ho
        subst ho
        rcases List.mem_cons.mp hw with rfl | hw
        · omega
        · exact ihp w hw
      · simp only [List.getElem?_cons_zero, Option.some.injEq] at ho
        subst ho
        rcases List.mem_cons.mp hw with rfl | hw
        · omega
        · have := ihp w hw; omega
    · rename_i hn
      simp only [List.getElem?_cons_zero, Option.some.injEq] at ho
      subst ho
      rcases List.mem_cons.mp hw with rfl | hw
      · omega
      · have := oldestWay_lt (List.ne_nil_of_mem hw)
        rw [List.getElem?_eq_getElem this] at hn
        exact absurd hn (by simp)

/-- The victim is a way of the set. -/
theorem victimWay_lt {ways : List Way} (h : ways ≠ []) : victimWay ways < ways.length := by
  unfold victimWay
  split
  · rename_i v hv
    exact (List.findIdx?_eq_some_iff_findIdx_eq.mp hv).1
  · exact oldestWay_lt h

/-! ## What an access and an invalidation keep -/

@[simp] theorem Cache.config_access (c : Cache) (a : Word) (op : CacheOp) : (c.access a op).2.config = c.config := by
  unfold Cache.access; split
  · rfl
  · dsimp only; split <;> rfl

@[simp] theorem Cache.config_invalidate (c : Cache) (a : Word) : (c.invalidate a).config = c.config := by
  unfold Cache.invalidate; split
  · rfl
  · dsimp only; split <;> rfl

@[simp] theorem Cache.clock_invalidate (c : Cache) (a : Word) : (c.invalidate a).clock = c.clock := by
  unfold Cache.invalidate; split
  · rfl
  · dsimp only; split <;> rfl

@[simp] theorem Cache.hits_invalidate (c : Cache) (a : Word) : (c.invalidate a).hits = c.hits := by
  unfold Cache.invalidate; split
  · rfl
  · dsimp only; split <;> rfl

@[simp] theorem Cache.misses_invalidate (c : Cache) (a : Word) : (c.invalidate a).misses = c.misses := by
  unfold Cache.invalidate; split
  · rfl
  · dsimp only; split <;> rfl

/-- A degenerate cache's access is a miss without side effect (R105). -/
theorem Cache.access_of_degenerate {c : Cache} (h : c.config.degenerate = true) (a : Word) (op : CacheOp) :
    c.access a op = (.miss, c) := by
  simp [Cache.access, h]

/-- The two outcomes of an access to a cache that has sets (R100). -/
theorem Cache.access_cases {c : Cache} (h : c.config.degenerate = false) (a : Word) (op : CacheOp) :
    (∃ w, (c.setAt (c.config.indexOf a)).findIdx? (·.matches (c.config.tagOf a)) = some w ∧
      c.access a op = (.hit, { c with hits := c.hits + 1, clock := c.clock + 1, sets := c.sets.set (c.config.indexOf a) ((c.setAt (c.config.indexOf a)).modify w fun way => { way with lruStamp := c.clock + 1 }) })) ∨
    ((c.setAt (c.config.indexOf a)).findIdx? (·.matches (c.config.tagOf a)) = none ∧
      c.access a op = (.miss, { c with misses := c.misses + 1, clock := c.clock + 1, sets := c.sets.set (c.config.indexOf a) ((c.setAt (c.config.indexOf a)).set (victimWay (c.setAt (c.config.indexOf a))) { valid := true, tag := c.config.tagOf a, lruStamp := c.clock + 1 }) })) := by
  cases hf : (c.setAt (c.config.indexOf a)).findIdx? (·.matches (c.config.tagOf a)) with
  | none => right; simp [Cache.access, h, hf]
  | some w => left; exact ⟨w, rfl, by simp [Cache.access, h, hf]⟩

/-- A good set after one of its ways is replaced by a way with a new stamp and a tag that no other valid way holds. -/
theorem waysGood_set {clock : Nat} {ways : List Way} (h : waysGood clock ways) {v : Nat} {tag : BitVec 64} {b : Bool}
    (ht : ∀ i w, ways[i]? = some w → i ≠ v → w.valid = true → w.tag ≠ tag) :
    waysGood (clock + 1) (ways.set v { valid := b, tag := tag, lruStamp := clock + 1 }) := by
  obtain ⟨hp, hc⟩ := h
  constructor
  · rw [List.pairwise_iff_getElem] at hp ⊢
    intro i j hi hj hij
    simp only [List.length_set] at hi hj
    have hp := hp i j hi hj hij
    have hci := hc _ (List.getElem_mem hi)
    have hcj := hc _ (List.getElem_mem hj)
    have hti := ht i _ (List.getElem?_eq_getElem hi)
    have htj := ht j _ (List.getElem?_eq_getElem hj)
    simp only [List.getElem_set]
    grind
  · intro w hw
    rcases List.mem_or_eq_of_mem_set hw with hw | hw
    · have := hc w hw; omega
    · subst hw; simp

/-- A good set stays good when the clock grows. -/
theorem waysGood_mono {clock clock' : Nat} {ways : List Way} (h : waysGood clock ways) (hl : clock ≤ clock') :
    waysGood clock' ways := ⟨h.1, fun w hw => Nat.le_trans (h.2 w hw) hl⟩

/-- A good set stays good when one of its ways becomes invalid. -/
theorem waysGood_invalidate {clock : Nat} {ways : List Way} (h : waysGood clock ways) (v : Nat) :
    waysGood clock (ways.modify v fun way => { way with valid := false }) := by
  obtain ⟨hp, hc⟩ := h
  constructor
  · rw [List.pairwise_iff_getElem] at hp ⊢
    intro i j hi hj hij
    simp only [List.length_modify] at hi hj
    have hp := hp i j hi hj hij
    simp only [List.getElem_modify]
    grind
  · intro w hw
    obtain ⟨i, hi, rfl⟩ := List.mem_iff_getElem.mp hw
    simp only [List.length_modify] at hi
    have := hc _ (List.getElem_mem hi)
    simp only [List.getElem_modify]
    split <;> simpa using this

/-- An access keeps a cache good (R107). -/
theorem Cache.good_access {c : Cache} (h : c.Good) (a : Word) (op : CacheOp) : (c.access a op).2.Good := by
  cases hd : c.config.degenerate with
  | true => rw [Cache.access_of_degenerate hd]; exact h
  | false =>
    have hmem := Cache.setAt_mem h.shaped hd a
    have hg := h.sets _ hmem
    have hl := c.shaped_iff.mp h.shaped
    have hcount := h.counts
    have set_good : ∀ ways, waysGood (c.clock + 1) ways → ∀ ws ∈ c.sets.set (c.config.indexOf a) ways,
        waysGood (c.clock + 1) ws := by
      intro ways hw ws hws
      rcases List.mem_or_eq_of_mem_set hws with hws | rfl
      · exact waysGood_mono (h.sets ws hws) (by omega)
      · exact hw
    have shape : ∀ ways : List Way, ways.length = c.config.ways →
        (c.sets.set (c.config.indexOf a) ways).length = c.config.numSets ∧
          ∀ ws ∈ c.sets.set (c.config.indexOf a) ways, ws.length = c.config.ways := by
      intro ways hw
      refine ⟨by rw [List.length_set]; exact hl.1, fun ws hws => ?_⟩
      rcases List.mem_or_eq_of_mem_set hws with hws | rfl
      · exact hl.2 ws hws
      · exact hw
    rcases Cache.access_cases hd a op with ⟨w, hf, he⟩ | ⟨hf, he⟩ <;> rw [he]
    · have hw := List.findIdx?_eq_some_iff_getElem.mp hf
      obtain ⟨hwl, hm, -⟩ := hw
      refine ⟨h.config, ?_, by simp only; omega, ?_⟩
      · rw [Cache.shaped_iff]
        exact shape _ (by rw [List.length_modify]; exact hl.2 _ hmem)
      · apply set_good
        have e : (c.setAt (c.config.indexOf a)).modify w (fun way => { way with lruStamp := c.clock + 1 }) =
            (c.setAt (c.config.indexOf a)).set w
              { valid := (c.setAt (c.config.indexOf a))[w].valid, tag := (c.setAt (c.config.indexOf a))[w].tag,
                lruStamp := c.clock + 1 } := by
          rw [List.modify_eq_set_getElem?, List.getElem?_eq_getElem hwl]; rfl
        rw [e]
        apply waysGood_set hg
        intro i w' hi hne hv htag
        obtain ⟨hil, rfl⟩ := List.getElem?_eq_some_iff.mp hi
        simp only [Way.matches, Bool.and_eq_true] at hm
        have hp := List.pairwise_iff_getElem.mp hg.1
        rcases Nat.lt_or_gt_of_ne hne with hlt | hgt
        · exact (hp i w hil hwl hlt hv hm.1).1 htag
        · exact (hp w i hwl hil hgt hm.1 hv).1 htag.symm
    · refine ⟨h.config, ?_, by simp only; omega, ?_⟩
      · rw [Cache.shaped_iff]
        exact shape _ (by rw [List.length_set]; exact hl.2 _ hmem)
      · apply set_good
        apply waysGood_set hg
        intro i w hi hne hv htag
        obtain ⟨hil, rfl⟩ := List.getElem?_eq_some_iff.mp hi
        have := List.findIdx?_eq_none_iff.mp hf _ (List.getElem_mem hil)
        simp [Way.matches, hv, htag] at this

/-- An invalidation keeps a cache good (R104, R107). -/
theorem Cache.good_invalidate {c : Cache} (h : c.Good) (a : Word) : (c.invalidate a).Good := by
  unfold Cache.invalidate
  split
  · exact h
  · rename_i hd
    have hd : c.config.degenerate = false := by simpa using hd
    have hmem := Cache.setAt_mem h.shaped hd a
    have hl := c.shaped_iff.mp h.shaped
    dsimp only
    split
    · rename_i w hf
      refine ⟨h.config, ?_, h.counts, ?_⟩
      · rw [Cache.shaped_iff]
        refine ⟨by rw [List.length_set]; exact hl.1, fun ws hws => ?_⟩
        rcases List.mem_or_eq_of_mem_set hws with hws | rfl
        · exact hl.2 ws hws
        · rw [List.length_modify]; exact hl.2 _ hmem
      · intro ws hws
        rcases List.mem_or_eq_of_mem_set hws with hws | rfl
        · exact h.sets ws hws
        · exact waysGood_invalidate (h.sets _ hmem) w
    · exact h

/-- A cache as `init` makes it is good. -/
theorem Cache.good_cold {config : CacheConfig} (h : config.valid = true) : (Cache.cold config).Good := by
  refine ⟨h, ?_, rfl, ?_⟩
  · rw [Cache.shaped_iff]
    simp only [Cache.cold, List.length_replicate, true_and]
    intro ways hw
    rw [(List.mem_replicate.mp hw).2, List.length_replicate]
  · intro ways hw
    rw [(List.mem_replicate.mp hw).2]
    refine ⟨?_, fun w hw => ?_⟩
    · rw [List.pairwise_replicate]
      right
      intro hv
      simp [Way.cold] at hv
    · rw [(List.mem_replicate.mp hw).2]; exact Nat.le_refl 0

end Sys2Proof.Machine
end

