-- ==== Sys2Proof/Laws/Encoding.lean ====
section
/-! SUPPORT. The bits of an encoded word and of a decoded field: what each format puts where, read back by each field. -/

namespace Sys2Proof

/-! ## The bits of each format -/

theorem getLsbD_encodeR (f7 : BitVec 7) (r2 r1 : Reg) (f3 : BitVec 3) (rd : Reg) (op : BitVec 7) (k : Nat) :
    (encodeR f7 r2 r1 f3 rd op).getLsbD k =
      if k < 7 then op.getLsbD k else if k < 12 then rd.getLsbD (k - 7) else if k < 15 then f3.getLsbD (k - 12)
      else if k < 20 then r1.getLsbD (k - 15) else if k < 25 then r2.getLsbD (k - 20) else f7.getLsbD (k - 25) := by
  show BitVec.getLsbD (f7 ++ r2 ++ r1 ++ f3 ++ rd ++ op) k = _
  simp only [BitVec.getLsbD_append]
  grind

theorem getLsbD_encodeI (imm : BitVec 12) (r1 : Reg) (f3 : BitVec 3) (rd : Reg) (op : BitVec 7) (k : Nat) :
    (encodeI imm r1 f3 rd op).getLsbD k =
      if k < 7 then op.getLsbD k else if k < 12 then rd.getLsbD (k - 7) else if k < 15 then f3.getLsbD (k - 12)
      else if k < 20 then r1.getLsbD (k - 15) else imm.getLsbD (k - 20) := by
  show BitVec.getLsbD (imm ++ r1 ++ f3 ++ rd ++ op) k = _
  simp only [BitVec.getLsbD_append]
  grind

theorem getLsbD_encodeS (imm : BitVec 12) (r2 r1 : Reg) (f3 : BitVec 3) (op : BitVec 7) (k : Nat) :
    (encodeS imm r2 r1 f3 op).getLsbD k =
      if k < 7 then op.getLsbD k else if k < 12 then imm.getLsbD (k - 7) else if k < 15 then f3.getLsbD (k - 12)
      else if k < 20 then r1.getLsbD (k - 15) else if k < 25 then r2.getLsbD (k - 20) else imm.getLsbD (k - 20) := by
  show BitVec.getLsbD (imm.extractLsb' 5 7 ++ r2 ++ r1 ++ f3 ++ imm.extractLsb' 0 5 ++ op) k = _
  simp only [BitVec.getLsbD_append, BitVec.getLsbD_extractLsb']
  grind

theorem getLsbD_encodeB (off : BitVec 13) (r2 r1 : Reg) (f3 : BitVec 3) (op : BitVec 7) (k : Nat) :
    (encodeB off r2 r1 f3 op).getLsbD k =
      if k < 7 then op.getLsbD k else if k < 8 then off.getLsbD 11 else if k < 12 then off.getLsbD (k - 7)
      else if k < 15 then f3.getLsbD (k - 12) else if k < 20 then r1.getLsbD (k - 15)
      else if k < 25 then r2.getLsbD (k - 20) else if k < 31 then off.getLsbD (k - 20)
      else if k < 32 then off.getLsbD 12 else false := by
  show BitVec.getLsbD (off.extractLsb' 12 1 ++ off.extractLsb' 5 6 ++ r2 ++ r1 ++ f3 ++ off.extractLsb' 1 4 ++
    off.extractLsb' 11 1 ++ op) k = _
  simp only [BitVec.getLsbD_append, BitVec.getLsbD_extractLsb']
  grind

theorem getLsbD_encodeU (imm : BitVec 20) (rd : Reg) (op : BitVec 7) (k : Nat) :
    (encodeU imm rd op).getLsbD k =
      if k < 7 then op.getLsbD k else if k < 12 then rd.getLsbD (k - 7) else imm.getLsbD (k - 12) := by
  show BitVec.getLsbD (imm ++ rd ++ op) k = _
  simp only [BitVec.getLsbD_append]
  grind

theorem getLsbD_encodeJ (off : BitVec 21) (rd : Reg) (op : BitVec 7) (k : Nat) :
    (encodeJ off rd op).getLsbD k =
      if k < 7 then op.getLsbD k else if k < 12 then rd.getLsbD (k - 7) else if k < 20 then off.getLsbD k
      else if k < 21 then off.getLsbD 11 else if k < 31 then off.getLsbD (k - 20)
      else if k < 32 then off.getLsbD 20 else false := by
  show BitVec.getLsbD (off.extractLsb' 20 1 ++ off.extractLsb' 1 10 ++ off.extractLsb' 11 1 ++
    off.extractLsb' 12 8 ++ rd ++ op) k = _
  simp only [BitVec.getLsbD_append, BitVec.getLsbD_extractLsb']
  grind

/-! ## The bits of the scattered immediates -/

theorem getLsbD_sImmOf (w : Word) (k : Nat) :
    (sImmOf w).getLsbD k = if k < 5 then w.getLsbD (k + 7) else if k < 12 then w.getLsbD (k + 20) else false := by
  show BitVec.getLsbD (w.extractLsb' 25 7 ++ w.extractLsb' 7 5) k = _
  simp only [BitVec.getLsbD_append, BitVec.getLsbD_extractLsb']
  grind

theorem getLsbD_bOffsetOf (w : Word) (k : Nat) :
    (bOffsetOf w).getLsbD k =
      if k < 1 then false else if k < 5 then w.getLsbD (k + 7) else if k < 11 then w.getLsbD (k + 20)
      else if k < 12 then w.getLsbD 7 else if k < 13 then w.getLsbD 31 else false := by
  show BitVec.getLsbD (w.extractLsb' 31 1 ++ w.extractLsb' 7 1 ++ w.extractLsb' 25 6 ++ w.extractLsb' 8 4 ++ 0#1) k = _
  simp only [BitVec.getLsbD_append, BitVec.getLsbD_extractLsb']
  grind

theorem getLsbD_jOffsetOf (w : Word) (k : Nat) :
    (jOffsetOf w).getLsbD k =
      if k < 1 then false else if k < 11 then w.getLsbD (k + 20) else if k < 12 then w.getLsbD 20
      else if k < 20 then w.getLsbD k else if k < 21 then w.getLsbD 31 else false := by
  show BitVec.getLsbD (w.extractLsb' 31 1 ++ w.extractLsb' 12 8 ++ w.extractLsb' 20 1 ++ w.extractLsb' 21 10 ++ 0#1) k = _
  simp only [BitVec.getLsbD_append, BitVec.getLsbD_extractLsb']
  grind

/-! ## A field of an encoded word -/

section fields
variable (f7 : BitVec 7) (r2 r1 rd : Reg) (f3 : BitVec 3) (op : BitVec 7) (imm : BitVec 12) (uimm : BitVec 20)
  (boff : BitVec 13) (joff : BitVec 21)

@[simp] theorem opcodeOf_encodeR : opcodeOf (encodeR f7 r2 r1 f3 rd op) = op := by
  apply BitVec.eq_of_getLsbD_eq
  intro i hi
  simp only [opcodeOf, BitVec.getLsbD_extractLsb', getLsbD_encodeR]
  grind

@[simp] theorem rdOf_encodeR : rdOf (encodeR f7 r2 r1 f3 rd op) = rd := by
  apply BitVec.eq_of_getLsbD_eq
  intro i hi
  simp only [rdOf, BitVec.getLsbD_extractLsb', getLsbD_encodeR]
  grind

@[simp] theorem funct3Of_encodeR : funct3Of (encodeR f7 r2 r1 f3 rd op) = f3 := by
  apply BitVec.eq_of_getLsbD_eq
  intro i hi
  simp only [funct3Of, BitVec.getLsbD_extractLsb', getLsbD_encodeR]
  grind

@[simp] theorem rs1Of_encodeR : rs1Of (encodeR f7 r2 r1 f3 rd op) = r1 := by
  apply BitVec.eq_of_getLsbD_eq
  intro i hi
  simp only [rs1Of, BitVec.getLsbD_extractLsb', getLsbD_encodeR]
  grind

@[simp] theorem rs2Of_encodeR : rs2Of (encodeR f7 r2 r1 f3 rd op) = r2 := by
  apply BitVec.eq_of_getLsbD_eq
  intro i hi
  simp only [rs2Of, BitVec.getLsbD_extractLsb', getLsbD_encodeR]
  grind

@[simp] theorem funct7Of_encodeR : funct7Of (encodeR f7 r2 r1 f3 rd op) = f7 := by
  apply BitVec.eq_of_getLsbD_eq
  intro i hi
  simp only [funct7Of, BitVec.getLsbD_extractLsb', getLsbD_encodeR]
  grind

@[simp] theorem opcodeOf_encodeI : opcodeOf (encodeI imm r1 f3 rd op) = op := by
  apply BitVec.eq_of_getLsbD_eq
  intro i hi
  simp only [opcodeOf, BitVec.getLsbD_extractLsb', getLsbD_encodeI]
  grind

@[simp] theorem rdOf_encodeI : rdOf (encodeI imm r1 f3 rd op) = rd := by
  apply BitVec.eq_of_getLsbD_eq
  intro i hi
  simp only [rdOf, BitVec.getLsbD_extractLsb', getLsbD_encodeI]
  grind

@[simp] theorem funct3Of_encodeI : funct3Of (encodeI imm r1 f3 rd op) = f3 := by
  apply BitVec.eq_of_getLsbD_eq
  intro i hi
  simp only [funct3Of, BitVec.getLsbD_extractLsb', getLsbD_encodeI]
  grind

@[simp] theorem rs1Of_encodeI : rs1Of (encodeI imm r1 f3 rd op) = r1 := by
  apply BitVec.eq_of_getLsbD_eq
  intro i hi
  simp only [rs1Of, BitVec.getLsbD_extractLsb', getLsbD_encodeI]
  grind

@[simp] theorem iImmOf_encodeI : iImmOf (encodeI imm r1 f3 rd op) = imm := by
  apply BitVec.eq_of_getLsbD_eq
  intro i hi
  simp only [iImmOf, BitVec.getLsbD_extractLsb', getLsbD_encodeI]
  grind

@[simp] theorem opcodeOf_encodeS : opcodeOf (encodeS imm r2 r1 f3 op) = op := by
  apply BitVec.eq_of_getLsbD_eq
  intro i hi
  simp only [opcodeOf, BitVec.getLsbD_extractLsb', getLsbD_encodeS]
  grind

@[simp] theorem funct3Of_encodeS : funct3Of (encodeS imm r2 r1 f3 op) = f3 := by
  apply BitVec.eq_of_getLsbD_eq
  intro i hi
  simp only [funct3Of, BitVec.getLsbD_extractLsb', getLsbD_encodeS]
  grind

@[simp] theorem rs1Of_encodeS : rs1Of (encodeS imm r2 r1 f3 op) = r1 := by
  apply BitVec.eq_of_getLsbD_eq
  intro i hi
  simp only [rs1Of, BitVec.getLsbD_extractLsb', getLsbD_encodeS]
  grind

@[simp] theorem rs2Of_encodeS : rs2Of (encodeS imm r2 r1 f3 op) = r2 := by
  apply BitVec.eq_of_getLsbD_eq
  intro i hi
  simp only [rs2Of, BitVec.getLsbD_extractLsb', getLsbD_encodeS]
  grind

@[simp] theorem sImmOf_encodeS : sImmOf (encodeS imm r2 r1 f3 op) = imm := by
  apply BitVec.eq_of_getLsbD_eq
  intro i hi
  rw [getLsbD_sImmOf]
  simp only [getLsbD_encodeS]
  grind

@[simp] theorem opcodeOf_encodeB : opcodeOf (encodeB boff r2 r1 f3 op) = op := by
  apply BitVec.eq_of_getLsbD_eq
  intro i hi
  simp only [opcodeOf, BitVec.getLsbD_extractLsb', getLsbD_encodeB]
  grind

@[simp] theorem funct3Of_encodeB : funct3Of (encodeB boff r2 r1 f3 op) = f3 := by
  apply BitVec.eq_of_getLsbD_eq
  intro i hi
  simp only [funct3Of, BitVec.getLsbD_extractLsb', getLsbD_encodeB]
  grind

@[simp] theorem rs1Of_encodeB : rs1Of (encodeB boff r2 r1 f3 op) = r1 := by
  apply BitVec.eq_of_getLsbD_eq
  intro i hi
  simp only [rs1Of, BitVec.getLsbD_extractLsb', getLsbD_encodeB]
  grind

@[simp] theorem rs2Of_encodeB : rs2Of (encodeB boff r2 r1 f3 op) = r2 := by
  apply BitVec.eq_of_getLsbD_eq
  intro i hi
  simp only [rs2Of, BitVec.getLsbD_extractLsb', getLsbD_encodeB]
  grind

@[simp] theorem opcodeOf_encodeU : opcodeOf (encodeU uimm rd op) = op := by
  apply BitVec.eq_of_getLsbD_eq
  intro i hi
  simp only [opcodeOf, BitVec.getLsbD_extractLsb', getLsbD_encodeU]
  grind

@[simp] theorem rdOf_encodeU : rdOf (encodeU uimm rd op) = rd := by
  apply BitVec.eq_of_getLsbD_eq
  intro i hi
  simp only [rdOf, BitVec.getLsbD_extractLsb', getLsbD_encodeU]
  grind

@[simp] theorem uImmOf_encodeU : uImmOf (encodeU uimm rd op) = uimm := by
  apply BitVec.eq_of_getLsbD_eq
  intro i hi
  simp only [uImmOf, BitVec.getLsbD_extractLsb', getLsbD_encodeU]
  grind

@[simp] theorem opcodeOf_encodeJ : opcodeOf (encodeJ joff rd op) = op := by
  apply BitVec.eq_of_getLsbD_eq
  intro i hi
  simp only [opcodeOf, BitVec.getLsbD_extractLsb', getLsbD_encodeJ]
  grind

@[simp] theorem rdOf_encodeJ : rdOf (encodeJ joff rd op) = rd := by
  apply BitVec.eq_of_getLsbD_eq
  intro i hi
  simp only [rdOf, BitVec.getLsbD_extractLsb', getLsbD_encodeJ]
  grind

/-- An even offset comes back from the B format. -/
theorem bOffsetOf_encodeB (h : boff.getLsbD 0 = false) : bOffsetOf (encodeB boff r2 r1 f3 op) = boff := by
  apply BitVec.eq_of_getLsbD_eq
  intro i hi
  rw [getLsbD_bOffsetOf]
  simp only [getLsbD_encodeB]
  grind

/-- An even offset comes back from the J format. -/
theorem jOffsetOf_encodeJ (h : joff.getLsbD 0 = false) : jOffsetOf (encodeJ joff rd op) = joff := by
  apply BitVec.eq_of_getLsbD_eq
  intro i hi
  rw [getLsbD_jOffsetOf]
  simp only [getLsbD_encodeJ]
  grind

end fields

/-! ## A word put together again from its fields -/

theorem encodeR_fields (w : Word) : encodeR (funct7Of w) (rs2Of w) (rs1Of w) (funct3Of w) (rdOf w) (opcodeOf w) = w := by
  apply BitVec.eq_of_getLsbD_eq
  intro i hi
  simp only [getLsbD_encodeR, funct7Of, rs2Of, rs1Of, funct3Of, rdOf, opcodeOf, BitVec.getLsbD_extractLsb']
  grind

theorem encodeI_fields (w : Word) : encodeI (iImmOf w) (rs1Of w) (funct3Of w) (rdOf w) (opcodeOf w) = w := by
  apply BitVec.eq_of_getLsbD_eq
  intro i hi
  simp only [getLsbD_encodeI, iImmOf, rs1Of, funct3Of, rdOf, opcodeOf, BitVec.getLsbD_extractLsb']
  grind

theorem encodeS_fields (w : Word) : encodeS (sImmOf w) (rs2Of w) (rs1Of w) (funct3Of w) (opcodeOf w) = w := by
  apply BitVec.eq_of_getLsbD_eq
  intro i hi
  simp only [getLsbD_encodeS, getLsbD_sImmOf, rs2Of, rs1Of, funct3Of, opcodeOf, BitVec.getLsbD_extractLsb']
  grind

theorem encodeB_fields (w : Word) : encodeB (bOffsetOf w) (rs2Of w) (rs1Of w) (funct3Of w) (opcodeOf w) = w := by
  apply BitVec.eq_of_getLsbD_eq
  intro i hi
  simp only [getLsbD_encodeB, getLsbD_bOffsetOf, rs2Of, rs1Of, funct3Of, opcodeOf, BitVec.getLsbD_extractLsb']
  grind

theorem encodeU_fields (w : Word) : encodeU (uImmOf w) (rdOf w) (opcodeOf w) = w := by
  apply BitVec.eq_of_getLsbD_eq
  intro i hi
  simp only [getLsbD_encodeU, uImmOf, rdOf, opcodeOf, BitVec.getLsbD_extractLsb']
  grind

theorem encodeJ_fields (w : Word) : encodeJ (jOffsetOf w) (rdOf w) (opcodeOf w) = w := by
  apply BitVec.eq_of_getLsbD_eq
  intro i hi
  simp only [getLsbD_encodeJ, getLsbD_jOffsetOf, rdOf, opcodeOf, BitVec.getLsbD_extractLsb']
  grind

/-! ## Bytes -/

/-- The four bytes of a word, put together again (R82). -/
@[simp] theorem wordOfBytes_extract (w : Word) :
    wordOfBytes (w.extractLsb' 0 8) (w.extractLsb' 8 8) (w.extractLsb' 16 8) (w.extractLsb' 24 8) = w := by
  apply BitVec.eq_of_getLsbD_eq
  intro i hi
  show BitVec.getLsbD (w.extractLsb' 24 8 ++ w.extractLsb' 16 8 ++ w.extractLsb' 8 8 ++ w.extractLsb' 0 8) i = _
  simp only [BitVec.getLsbD_append, BitVec.getLsbD_extractLsb']
  grind

/-- `decodeBytes` on a word's bytes is `decodeWord` on the word. -/
theorem decodeBytes_bytesOfWord (w : Word) (rest : List Byte) :
    decodeBytes (bytesOfWord w ++ rest) =
      match decodeWord w with
      | .instr i => .ok (i, rest)
      | .reserved c => .error (.reservedEncoding c)
      | .illegal => .error .illegalWord := by
  cases h : decodeWord w <;> simp [bytesOfWord, decodeBytes, h]

/-! ## The two whole words -/

/-- The HALT word is of no listed class, so it is no other instruction's word (R143). -/
theorem majorClass_haltWord : majorClass (opcodeOf Config.haltWord) = .none := by decide

/-- The fields of the NOP word (R146). -/
theorem nopWord_fields : opcodeOf Config.nopWord = 0x13#7 ∧ funct3Of Config.nopWord = 0#3 ∧ rdOf Config.nopWord = 0 ∧
    rs1Of Config.nopWord = 0 ∧ iImmOf Config.nopWord = 0 ∧ funct7Of Config.nopWord = 0 := by decide

/-- A word with the fields of `addi x0, x0, 0` is the NOP word (R146). -/
theorem eq_nopWord_of_fields {w : Word} (ho : opcodeOf w = 0x13#7) (h3 : funct3Of w = 0#3) (hd : rdOf w = 0)
    (h1 : rs1Of w = 0) (hi : iImmOf w = 0) : w = Config.nopWord := by
  rw [← encodeI_fields w, ho, h3, hd, h1, hi]; decide

end Sys2Proof
end

