-- ==== Sys2Proof/Laws/State.lean ====
section
/-! SUPPORT. What each update of the state's record does to each field. Every proof over `State` rests on these, and
unfolds no record update. -/

namespace Sys2Proof.Machine

/-! ## The new latches of a tick -/

@[simp] theorem regs_setNewIF (s : State) (l : Latch) : (s.setNewIF l).regs = s.regs := rfl
@[simp] theorem pc_setNewIF (s : State) (l : Latch) : (s.setNewIF l).pc = s.pc := rfl
@[simp] theorem latches_setNewIF (s : State) (l : Latch) : (s.setNewIF l).latches = s.latches := rfl
@[simp] theorem cycleCount_setNewIF (s : State) (l : Latch) : (s.setNewIF l).cycleCount = s.cycleCount := rfl
@[simp] theorem loadStallCount_setNewIF (s : State) (l : Latch) : (s.setNewIF l).loadStallCount = s.loadStallCount := rfl
@[simp] theorem iMissRemaining_setNewIF (s : State) (l : Latch) : (s.setNewIF l).iMissRemaining = s.iMissRemaining := rfl
@[simp] theorem dMissRemaining_setNewIF (s : State) (l : Latch) : (s.setNewIF l).dMissRemaining = s.dMissRemaining := rfl
@[simp] theorem loadBranchExtra_setNewIF (s : State) (l : Latch) : (s.setNewIF l).loadBranchExtra = s.loadBranchExtra := rfl
@[simp] theorem dynamicInstructions_setNewIF (s : State) (l : Latch) : (s.setNewIF l).dynamicInstructions = s.dynamicInstructions := rfl
@[simp] theorem mode_setNewIF (s : State) (l : Latch) : (s.setNewIF l).mode = s.mode := rfl
@[simp] theorem ic_setNewIF (s : State) (l : Latch) : (s.setNewIF l).ic = s.ic := rfl
@[simp] theorem dc_setNewIF (s : State) (l : Latch) : (s.setNewIF l).dc = s.dc := rfl
@[simp] theorem memory_setNewIF (s : State) (l : Latch) : (s.setNewIF l).memory = s.memory := rfl
@[simp] theorem errorNote_setNewIF (s : State) (l : Latch) : (s.setNewIF l).errorNote = s.errorNote := rfl
@[simp] theorem sink_setNewIF (s : State) (l : Latch) : (s.setNewIF l).sink = s.sink := rfl
@[simp] theorem finalized_setNewIF (s : State) (l : Latch) : (s.setNewIF l).finalized = s.finalized := rfl
@[simp] theorem drawIndex_setNewIF (s : State) (l : Latch) : (s.setNewIF l).drawIndex = s.drawIndex := rfl
@[simp] theorem stage_setNewIF (s : State) (l : Latch) : (s.setNewIF l).work.stage = s.work.stage := rfl
@[simp] theorem stall_setNewIF (s : State) (l : Latch) : (s.setNewIF l).work.stall = s.work.stall := rfl
@[simp] theorem count_setNewIF (s : State) (l : Latch) : (s.setNewIF l).work.count = s.work.count := rfl
@[simp] theorem lbeNext_setNewIF (s : State) (l : Latch) : (s.setNewIF l).work.lbeNext = s.work.lbeNext := rfl
@[simp] theorem dNext_setNewIF (s : State) (l : Latch) : (s.setNewIF l).work.dNext = s.work.dNext := rfl
@[simp] theorem iNext_setNewIF (s : State) (l : Latch) : (s.setNewIF l).work.iNext = s.work.iNext := rfl
@[simp] theorem pcNext_setNewIF (s : State) (l : Latch) : (s.setNewIF l).work.pcNext = s.work.pcNext := rfl
@[simp] theorem taken_setNewIF (s : State) (l : Latch) : (s.setNewIF l).work.taken = s.work.taken := rfl
@[simp] theorem memExc_setNewIF (s : State) (l : Latch) : (s.setNewIF l).work.memExc = s.work.memExc := rfl
@[simp] theorem illegal_setNewIF (s : State) (l : Latch) : (s.setNewIF l).work.illegal = s.work.illegal := rfl
@[simp] theorem haltNow_setNewIF (s : State) (l : Latch) : (s.setNewIF l).work.haltNow = s.work.haltNow := rfl
@[simp] theorem newIF_setNewIF (s : State) (l : Latch) : (s.setNewIF l).work.new.IF = l := rfl
@[simp] theorem newID_setNewIF (s : State) (l : Latch) : (s.setNewIF l).work.new.ID = s.work.new.ID := rfl
@[simp] theorem newEX_setNewIF (s : State) (l : Latch) : (s.setNewIF l).work.new.EX = s.work.new.EX := rfl
@[simp] theorem newMEM_setNewIF (s : State) (l : Latch) : (s.setNewIF l).work.new.MEM = s.work.new.MEM := rfl
@[simp] theorem newWB_setNewIF (s : State) (l : Latch) : (s.setNewIF l).work.new.WB = s.work.new.WB := rfl

@[simp] theorem regs_setNewID (s : State) (l : Latch) : (s.setNewID l).regs = s.regs := rfl
@[simp] theorem pc_setNewID (s : State) (l : Latch) : (s.setNewID l).pc = s.pc := rfl
@[simp] theorem latches_setNewID (s : State) (l : Latch) : (s.setNewID l).latches = s.latches := rfl
@[simp] theorem cycleCount_setNewID (s : State) (l : Latch) : (s.setNewID l).cycleCount = s.cycleCount := rfl
@[simp] theorem loadStallCount_setNewID (s : State) (l : Latch) : (s.setNewID l).loadStallCount = s.loadStallCount := rfl
@[simp] theorem iMissRemaining_setNewID (s : State) (l : Latch) : (s.setNewID l).iMissRemaining = s.iMissRemaining := rfl
@[simp] theorem dMissRemaining_setNewID (s : State) (l : Latch) : (s.setNewID l).dMissRemaining = s.dMissRemaining := rfl
@[simp] theorem loadBranchExtra_setNewID (s : State) (l : Latch) : (s.setNewID l).loadBranchExtra = s.loadBranchExtra := rfl
@[simp] theorem dynamicInstructions_setNewID (s : State) (l : Latch) : (s.setNewID l).dynamicInstructions = s.dynamicInstructions := rfl
@[simp] theorem mode_setNewID (s : State) (l : Latch) : (s.setNewID l).mode = s.mode := rfl
@[simp] theorem ic_setNewID (s : State) (l : Latch) : (s.setNewID l).ic = s.ic := rfl
@[simp] theorem dc_setNewID (s : State) (l : Latch) : (s.setNewID l).dc = s.dc := rfl
@[simp] theorem memory_setNewID (s : State) (l : Latch) : (s.setNewID l).memory = s.memory := rfl
@[simp] theorem errorNote_setNewID (s : State) (l : Latch) : (s.setNewID l).errorNote = s.errorNote := rfl
@[simp] theorem sink_setNewID (s : State) (l : Latch) : (s.setNewID l).sink = s.sink := rfl
@[simp] theorem finalized_setNewID (s : State) (l : Latch) : (s.setNewID l).finalized = s.finalized := rfl
@[simp] theorem drawIndex_setNewID (s : State) (l : Latch) : (s.setNewID l).drawIndex = s.drawIndex := rfl
@[simp] theorem stage_setNewID (s : State) (l : Latch) : (s.setNewID l).work.stage = s.work.stage := rfl
@[simp] theorem stall_setNewID (s : State) (l : Latch) : (s.setNewID l).work.stall = s.work.stall := rfl
@[simp] theorem count_setNewID (s : State) (l : Latch) : (s.setNewID l).work.count = s.work.count := rfl
@[simp] theorem lbeNext_setNewID (s : State) (l : Latch) : (s.setNewID l).work.lbeNext = s.work.lbeNext := rfl
@[simp] theorem dNext_setNewID (s : State) (l : Latch) : (s.setNewID l).work.dNext = s.work.dNext := rfl
@[simp] theorem iNext_setNewID (s : State) (l : Latch) : (s.setNewID l).work.iNext = s.work.iNext := rfl
@[simp] theorem pcNext_setNewID (s : State) (l : Latch) : (s.setNewID l).work.pcNext = s.work.pcNext := rfl
@[simp] theorem taken_setNewID (s : State) (l : Latch) : (s.setNewID l).work.taken = s.work.taken := rfl
@[simp] theorem memExc_setNewID (s : State) (l : Latch) : (s.setNewID l).work.memExc = s.work.memExc := rfl
@[simp] theorem illegal_setNewID (s : State) (l : Latch) : (s.setNewID l).work.illegal = s.work.illegal := rfl
@[simp] theorem haltNow_setNewID (s : State) (l : Latch) : (s.setNewID l).work.haltNow = s.work.haltNow := rfl
@[simp] theorem newIF_setNewID (s : State) (l : Latch) : (s.setNewID l).work.new.IF = s.work.new.IF := rfl
@[simp] theorem newID_setNewID (s : State) (l : Latch) : (s.setNewID l).work.new.ID = l := rfl
@[simp] theorem newEX_setNewID (s : State) (l : Latch) : (s.setNewID l).work.new.EX = s.work.new.EX := rfl
@[simp] theorem newMEM_setNewID (s : State) (l : Latch) : (s.setNewID l).work.new.MEM = s.work.new.MEM := rfl
@[simp] theorem newWB_setNewID (s : State) (l : Latch) : (s.setNewID l).work.new.WB = s.work.new.WB := rfl

@[simp] theorem regs_setNewEX (s : State) (l : Latch) : (s.setNewEX l).regs = s.regs := rfl
@[simp] theorem pc_setNewEX (s : State) (l : Latch) : (s.setNewEX l).pc = s.pc := rfl
@[simp] theorem latches_setNewEX (s : State) (l : Latch) : (s.setNewEX l).latches = s.latches := rfl
@[simp] theorem cycleCount_setNewEX (s : State) (l : Latch) : (s.setNewEX l).cycleCount = s.cycleCount := rfl
@[simp] theorem loadStallCount_setNewEX (s : State) (l : Latch) : (s.setNewEX l).loadStallCount = s.loadStallCount := rfl
@[simp] theorem iMissRemaining_setNewEX (s : State) (l : Latch) : (s.setNewEX l).iMissRemaining = s.iMissRemaining := rfl
@[simp] theorem dMissRemaining_setNewEX (s : State) (l : Latch) : (s.setNewEX l).dMissRemaining = s.dMissRemaining := rfl
@[simp] theorem loadBranchExtra_setNewEX (s : State) (l : Latch) : (s.setNewEX l).loadBranchExtra = s.loadBranchExtra := rfl
@[simp] theorem dynamicInstructions_setNewEX (s : State) (l : Latch) : (s.setNewEX l).dynamicInstructions = s.dynamicInstructions := rfl
@[simp] theorem mode_setNewEX (s : State) (l : Latch) : (s.setNewEX l).mode = s.mode := rfl
@[simp] theorem ic_setNewEX (s : State) (l : Latch) : (s.setNewEX l).ic = s.ic := rfl
@[simp] theorem dc_setNewEX (s : State) (l : Latch) : (s.setNewEX l).dc = s.dc := rfl
@[simp] theorem memory_setNewEX (s : State) (l : Latch) : (s.setNewEX l).memory = s.memory := rfl
@[simp] theorem errorNote_setNewEX (s : State) (l : Latch) : (s.setNewEX l).errorNote = s.errorNote := rfl
@[simp] theorem sink_setNewEX (s : State) (l : Latch) : (s.setNewEX l).sink = s.sink := rfl
@[simp] theorem finalized_setNewEX (s : State) (l : Latch) : (s.setNewEX l).finalized = s.finalized := rfl
@[simp] theorem drawIndex_setNewEX (s : State) (l : Latch) : (s.setNewEX l).drawIndex = s.drawIndex := rfl
@[simp] theorem stage_setNewEX (s : State) (l : Latch) : (s.setNewEX l).work.stage = s.work.stage := rfl
@[simp] theorem stall_setNewEX (s : State) (l : Latch) : (s.setNewEX l).work.stall = s.work.stall := rfl
@[simp] theorem count_setNewEX (s : State) (l : Latch) : (s.setNewEX l).work.count = s.work.count := rfl
@[simp] theorem lbeNext_setNewEX (s : State) (l : Latch) : (s.setNewEX l).work.lbeNext = s.work.lbeNext := rfl
@[simp] theorem dNext_setNewEX (s : State) (l : Latch) : (s.setNewEX l).work.dNext = s.work.dNext := rfl
@[simp] theorem iNext_setNewEX (s : State) (l : Latch) : (s.setNewEX l).work.iNext = s.work.iNext := rfl
@[simp] theorem pcNext_setNewEX (s : State) (l : Latch) : (s.setNewEX l).work.pcNext = s.work.pcNext := rfl
@[simp] theorem taken_setNewEX (s : State) (l : Latch) : (s.setNewEX l).work.taken = s.work.taken := rfl
@[simp] theorem memExc_setNewEX (s : State) (l : Latch) : (s.setNewEX l).work.memExc = s.work.memExc := rfl
@[simp] theorem illegal_setNewEX (s : State) (l : Latch) : (s.setNewEX l).work.illegal = s.work.illegal := rfl
@[simp] theorem haltNow_setNewEX (s : State) (l : Latch) : (s.setNewEX l).work.haltNow = s.work.haltNow := rfl
@[simp] theorem newIF_setNewEX (s : State) (l : Latch) : (s.setNewEX l).work.new.IF = s.work.new.IF := rfl
@[simp] theorem newID_setNewEX (s : State) (l : Latch) : (s.setNewEX l).work.new.ID = s.work.new.ID := rfl
@[simp] theorem newEX_setNewEX (s : State) (l : Latch) : (s.setNewEX l).work.new.EX = l := rfl
@[simp] theorem newMEM_setNewEX (s : State) (l : Latch) : (s.setNewEX l).work.new.MEM = s.work.new.MEM := rfl
@[simp] theorem newWB_setNewEX (s : State) (l : Latch) : (s.setNewEX l).work.new.WB = s.work.new.WB := rfl

@[simp] theorem regs_setNewMEM (s : State) (l : Latch) : (s.setNewMEM l).regs = s.regs := rfl
@[simp] theorem pc_setNewMEM (s : State) (l : Latch) : (s.setNewMEM l).pc = s.pc := rfl
@[simp] theorem latches_setNewMEM (s : State) (l : Latch) : (s.setNewMEM l).latches = s.latches := rfl
@[simp] theorem cycleCount_setNewMEM (s : State) (l : Latch) : (s.setNewMEM l).cycleCount = s.cycleCount := rfl
@[simp] theorem loadStallCount_setNewMEM (s : State) (l : Latch) : (s.setNewMEM l).loadStallCount = s.loadStallCount := rfl
@[simp] theorem iMissRemaining_setNewMEM (s : State) (l : Latch) : (s.setNewMEM l).iMissRemaining = s.iMissRemaining := rfl
@[simp] theorem dMissRemaining_setNewMEM (s : State) (l : Latch) : (s.setNewMEM l).dMissRemaining = s.dMissRemaining := rfl
@[simp] theorem loadBranchExtra_setNewMEM (s : State) (l : Latch) : (s.setNewMEM l).loadBranchExtra = s.loadBranchExtra := rfl
@[simp] theorem dynamicInstructions_setNewMEM (s : State) (l : Latch) : (s.setNewMEM l).dynamicInstructions = s.dynamicInstructions := rfl
@[simp] theorem mode_setNewMEM (s : State) (l : Latch) : (s.setNewMEM l).mode = s.mode := rfl
@[simp] theorem ic_setNewMEM (s : State) (l : Latch) : (s.setNewMEM l).ic = s.ic := rfl
@[simp] theorem dc_setNewMEM (s : State) (l : Latch) : (s.setNewMEM l).dc = s.dc := rfl
@[simp] theorem memory_setNewMEM (s : State) (l : Latch) : (s.setNewMEM l).memory = s.memory := rfl
@[simp] theorem errorNote_setNewMEM (s : State) (l : Latch) : (s.setNewMEM l).errorNote = s.errorNote := rfl
@[simp] theorem sink_setNewMEM (s : State) (l : Latch) : (s.setNewMEM l).sink = s.sink := rfl
@[simp] theorem finalized_setNewMEM (s : State) (l : Latch) : (s.setNewMEM l).finalized = s.finalized := rfl
@[simp] theorem drawIndex_setNewMEM (s : State) (l : Latch) : (s.setNewMEM l).drawIndex = s.drawIndex := rfl
@[simp] theorem stage_setNewMEM (s : State) (l : Latch) : (s.setNewMEM l).work.stage = s.work.stage := rfl
@[simp] theorem stall_setNewMEM (s : State) (l : Latch) : (s.setNewMEM l).work.stall = s.work.stall := rfl
@[simp] theorem count_setNewMEM (s : State) (l : Latch) : (s.setNewMEM l).work.count = s.work.count := rfl
@[simp] theorem lbeNext_setNewMEM (s : State) (l : Latch) : (s.setNewMEM l).work.lbeNext = s.work.lbeNext := rfl
@[simp] theorem dNext_setNewMEM (s : State) (l : Latch) : (s.setNewMEM l).work.dNext = s.work.dNext := rfl
@[simp] theorem iNext_setNewMEM (s : State) (l : Latch) : (s.setNewMEM l).work.iNext = s.work.iNext := rfl
@[simp] theorem pcNext_setNewMEM (s : State) (l : Latch) : (s.setNewMEM l).work.pcNext = s.work.pcNext := rfl
@[simp] theorem taken_setNewMEM (s : State) (l : Latch) : (s.setNewMEM l).work.taken = s.work.taken := rfl
@[simp] theorem memExc_setNewMEM (s : State) (l : Latch) : (s.setNewMEM l).work.memExc = s.work.memExc := rfl
@[simp] theorem illegal_setNewMEM (s : State) (l : Latch) : (s.setNewMEM l).work.illegal = s.work.illegal := rfl
@[simp] theorem haltNow_setNewMEM (s : State) (l : Latch) : (s.setNewMEM l).work.haltNow = s.work.haltNow := rfl
@[simp] theorem newIF_setNewMEM (s : State) (l : Latch) : (s.setNewMEM l).work.new.IF = s.work.new.IF := rfl
@[simp] theorem newID_setNewMEM (s : State) (l : Latch) : (s.setNewMEM l).work.new.ID = s.work.new.ID := rfl
@[simp] theorem newEX_setNewMEM (s : State) (l : Latch) : (s.setNewMEM l).work.new.EX = s.work.new.EX := rfl
@[simp] theorem newMEM_setNewMEM (s : State) (l : Latch) : (s.setNewMEM l).work.new.MEM = l := rfl
@[simp] theorem newWB_setNewMEM (s : State) (l : Latch) : (s.setNewMEM l).work.new.WB = s.work.new.WB := rfl

@[simp] theorem regs_setNewWB (s : State) (l : Latch) : (s.setNewWB l).regs = s.regs := rfl
@[simp] theorem pc_setNewWB (s : State) (l : Latch) : (s.setNewWB l).pc = s.pc := rfl
@[simp] theorem latches_setNewWB (s : State) (l : Latch) : (s.setNewWB l).latches = s.latches := rfl
@[simp] theorem cycleCount_setNewWB (s : State) (l : Latch) : (s.setNewWB l).cycleCount = s.cycleCount := rfl
@[simp] theorem loadStallCount_setNewWB (s : State) (l : Latch) : (s.setNewWB l).loadStallCount = s.loadStallCount := rfl
@[simp] theorem iMissRemaining_setNewWB (s : State) (l : Latch) : (s.setNewWB l).iMissRemaining = s.iMissRemaining := rfl
@[simp] theorem dMissRemaining_setNewWB (s : State) (l : Latch) : (s.setNewWB l).dMissRemaining = s.dMissRemaining := rfl
@[simp] theorem loadBranchExtra_setNewWB (s : State) (l : Latch) : (s.setNewWB l).loadBranchExtra = s.loadBranchExtra := rfl
@[simp] theorem dynamicInstructions_setNewWB (s : State) (l : Latch) : (s.setNewWB l).dynamicInstructions = s.dynamicInstructions := rfl
@[simp] theorem mode_setNewWB (s : State) (l : Latch) : (s.setNewWB l).mode = s.mode := rfl
@[simp] theorem ic_setNewWB (s : State) (l : Latch) : (s.setNewWB l).ic = s.ic := rfl
@[simp] theorem dc_setNewWB (s : State) (l : Latch) : (s.setNewWB l).dc = s.dc := rfl
@[simp] theorem memory_setNewWB (s : State) (l : Latch) : (s.setNewWB l).memory = s.memory := rfl
@[simp] theorem errorNote_setNewWB (s : State) (l : Latch) : (s.setNewWB l).errorNote = s.errorNote := rfl
@[simp] theorem sink_setNewWB (s : State) (l : Latch) : (s.setNewWB l).sink = s.sink := rfl
@[simp] theorem finalized_setNewWB (s : State) (l : Latch) : (s.setNewWB l).finalized = s.finalized := rfl
@[simp] theorem drawIndex_setNewWB (s : State) (l : Latch) : (s.setNewWB l).drawIndex = s.drawIndex := rfl
@[simp] theorem stage_setNewWB (s : State) (l : Latch) : (s.setNewWB l).work.stage = s.work.stage := rfl
@[simp] theorem stall_setNewWB (s : State) (l : Latch) : (s.setNewWB l).work.stall = s.work.stall := rfl
@[simp] theorem count_setNewWB (s : State) (l : Latch) : (s.setNewWB l).work.count = s.work.count := rfl
@[simp] theorem lbeNext_setNewWB (s : State) (l : Latch) : (s.setNewWB l).work.lbeNext = s.work.lbeNext := rfl
@[simp] theorem dNext_setNewWB (s : State) (l : Latch) : (s.setNewWB l).work.dNext = s.work.dNext := rfl
@[simp] theorem iNext_setNewWB (s : State) (l : Latch) : (s.setNewWB l).work.iNext = s.work.iNext := rfl
@[simp] theorem pcNext_setNewWB (s : State) (l : Latch) : (s.setNewWB l).work.pcNext = s.work.pcNext := rfl
@[simp] theorem taken_setNewWB (s : State) (l : Latch) : (s.setNewWB l).work.taken = s.work.taken := rfl
@[simp] theorem memExc_setNewWB (s : State) (l : Latch) : (s.setNewWB l).work.memExc = s.work.memExc := rfl
@[simp] theorem illegal_setNewWB (s : State) (l : Latch) : (s.setNewWB l).work.illegal = s.work.illegal := rfl
@[simp] theorem haltNow_setNewWB (s : State) (l : Latch) : (s.setNewWB l).work.haltNow = s.work.haltNow := rfl
@[simp] theorem newIF_setNewWB (s : State) (l : Latch) : (s.setNewWB l).work.new.IF = s.work.new.IF := rfl
@[simp] theorem newID_setNewWB (s : State) (l : Latch) : (s.setNewWB l).work.new.ID = s.work.new.ID := rfl
@[simp] theorem newEX_setNewWB (s : State) (l : Latch) : (s.setNewWB l).work.new.EX = s.work.new.EX := rfl
@[simp] theorem newMEM_setNewWB (s : State) (l : Latch) : (s.setNewWB l).work.new.MEM = s.work.new.MEM := rfl
@[simp] theorem newWB_setNewWB (s : State) (l : Latch) : (s.setNewWB l).work.new.WB = l := rfl

/-! ## The stage of a tick -/

@[simp] theorem regs_atStage (s : State) (g : Stage) : (s.atStage g).regs = s.regs := rfl
@[simp] theorem pc_atStage (s : State) (g : Stage) : (s.atStage g).pc = s.pc := rfl
@[simp] theorem latches_atStage (s : State) (g : Stage) : (s.atStage g).latches = s.latches := rfl
@[simp] theorem cycleCount_atStage (s : State) (g : Stage) : (s.atStage g).cycleCount = s.cycleCount := rfl
@[simp] theorem loadStallCount_atStage (s : State) (g : Stage) : (s.atStage g).loadStallCount = s.loadStallCount := rfl
@[simp] theorem iMissRemaining_atStage (s : State) (g : Stage) : (s.atStage g).iMissRemaining = s.iMissRemaining := rfl
@[simp] theorem dMissRemaining_atStage (s : State) (g : Stage) : (s.atStage g).dMissRemaining = s.dMissRemaining := rfl
@[simp] theorem loadBranchExtra_atStage (s : State) (g : Stage) : (s.atStage g).loadBranchExtra = s.loadBranchExtra := rfl
@[simp] theorem dynamicInstructions_atStage (s : State) (g : Stage) : (s.atStage g).dynamicInstructions = s.dynamicInstructions := rfl
@[simp] theorem mode_atStage (s : State) (g : Stage) : (s.atStage g).mode = s.mode := rfl
@[simp] theorem ic_atStage (s : State) (g : Stage) : (s.atStage g).ic = s.ic := rfl
@[simp] theorem dc_atStage (s : State) (g : Stage) : (s.atStage g).dc = s.dc := rfl
@[simp] theorem memory_atStage (s : State) (g : Stage) : (s.atStage g).memory = s.memory := rfl
@[simp] theorem errorNote_atStage (s : State) (g : Stage) : (s.atStage g).errorNote = s.errorNote := rfl
@[simp] theorem sink_atStage (s : State) (g : Stage) : (s.atStage g).sink = s.sink := rfl
@[simp] theorem finalized_atStage (s : State) (g : Stage) : (s.atStage g).finalized = s.finalized := rfl
@[simp] theorem drawIndex_atStage (s : State) (g : Stage) : (s.atStage g).drawIndex = s.drawIndex := rfl
@[simp] theorem stage_atStage (s : State) (g : Stage) : (s.atStage g).work.stage = g := rfl
@[simp] theorem stall_atStage (s : State) (g : Stage) : (s.atStage g).work.stall = s.work.stall := rfl
@[simp] theorem count_atStage (s : State) (g : Stage) : (s.atStage g).work.count = s.work.count := rfl
@[simp] theorem lbeNext_atStage (s : State) (g : Stage) : (s.atStage g).work.lbeNext = s.work.lbeNext := rfl
@[simp] theorem dNext_atStage (s : State) (g : Stage) : (s.atStage g).work.dNext = s.work.dNext := rfl
@[simp] theorem iNext_atStage (s : State) (g : Stage) : (s.atStage g).work.iNext = s.work.iNext := rfl
@[simp] theorem pcNext_atStage (s : State) (g : Stage) : (s.atStage g).work.pcNext = s.work.pcNext := rfl
@[simp] theorem taken_atStage (s : State) (g : Stage) : (s.atStage g).work.taken = s.work.taken := rfl
@[simp] theorem memExc_atStage (s : State) (g : Stage) : (s.atStage g).work.memExc = s.work.memExc := rfl
@[simp] theorem illegal_atStage (s : State) (g : Stage) : (s.atStage g).work.illegal = s.work.illegal := rfl
@[simp] theorem haltNow_atStage (s : State) (g : Stage) : (s.atStage g).work.haltNow = s.work.haltNow := rfl
@[simp] theorem new_atStage (s : State) (g : Stage) : (s.atStage g).work.new = s.work.new := rfl

/-! ## Register writes (R14, R32) -/

@[simp] theorem pc_writeReg (s : State) (r : Reg) (v : Word) : (s.writeReg r v).pc = s.pc := by
  unfold State.writeReg; split <;> rfl
@[simp] theorem latches_writeReg (s : State) (r : Reg) (v : Word) : (s.writeReg r v).latches = s.latches := by
  unfold State.writeReg; split <;> rfl
@[simp] theorem cycleCount_writeReg (s : State) (r : Reg) (v : Word) : (s.writeReg r v).cycleCount = s.cycleCount := by
  unfold State.writeReg; split <;> rfl
@[simp] theorem loadStallCount_writeReg (s : State) (r : Reg) (v : Word) : (s.writeReg r v).loadStallCount = s.loadStallCount := by
  unfold State.writeReg; split <;> rfl
@[simp] theorem iMissRemaining_writeReg (s : State) (r : Reg) (v : Word) : (s.writeReg r v).iMissRemaining = s.iMissRemaining := by
  unfold State.writeReg; split <;> rfl
@[simp] theorem dMissRemaining_writeReg (s : State) (r : Reg) (v : Word) : (s.writeReg r v).dMissRemaining = s.dMissRemaining := by
  unfold State.writeReg; split <;> rfl
@[simp] theorem loadBranchExtra_writeReg (s : State) (r : Reg) (v : Word) : (s.writeReg r v).loadBranchExtra = s.loadBranchExtra := by
  unfold State.writeReg; split <;> rfl
@[simp] theorem dynamicInstructions_writeReg (s : State) (r : Reg) (v : Word) : (s.writeReg r v).dynamicInstructions = s.dynamicInstructions := by
  unfold State.writeReg; split <;> rfl
@[simp] theorem mode_writeReg (s : State) (r : Reg) (v : Word) : (s.writeReg r v).mode = s.mode := by
  unfold State.writeReg; split <;> rfl
@[simp] theorem ic_writeReg (s : State) (r : Reg) (v : Word) : (s.writeReg r v).ic = s.ic := by
  unfold State.writeReg; split <;> rfl
@[simp] theorem dc_writeReg (s : State) (r : Reg) (v : Word) : (s.writeReg r v).dc = s.dc := by
  unfold State.writeReg; split <;> rfl
@[simp] theorem memory_writeReg (s : State) (r : Reg) (v : Word) : (s.writeReg r v).memory = s.memory := by
  unfold State.writeReg; split <;> rfl
@[simp] theorem errorNote_writeReg (s : State) (r : Reg) (v : Word) : (s.writeReg r v).errorNote = s.errorNote := by
  unfold State.writeReg; split <;> rfl
@[simp] theorem sink_writeReg (s : State) (r : Reg) (v : Word) : (s.writeReg r v).sink = s.sink := by
  unfold State.writeReg; split <;> rfl
@[simp] theorem finalized_writeReg (s : State) (r : Reg) (v : Word) : (s.writeReg r v).finalized = s.finalized := by
  unfold State.writeReg; split <;> rfl
@[simp] theorem drawIndex_writeReg (s : State) (r : Reg) (v : Word) : (s.writeReg r v).drawIndex = s.drawIndex := by
  unfold State.writeReg; split <;> rfl
@[simp] theorem work_writeReg (s : State) (r : Reg) (v : Word) : (s.writeReg r v).work = s.work := by
  unfold State.writeReg; split <;> rfl

/-- Register 0 reads 0 (R32). -/
@[simp] theorem readReg_zero (s : State) : s.readReg 0 = 0 := by simp [State.readReg]

/-- What a register write changes: its register, unless that is register 0, and nothing else (R14, R32). -/
theorem readReg_writeReg (s : State) (r r' : Reg) (v : Word) :
    (s.writeReg r v).readReg r' = if r' = r ∧ r ≠ 0 then v else s.readReg r' := by
  unfold State.writeReg
  by_cases h0 : r = 0
  · rw [if_pos h0, if_neg (fun h => h.2 h0)]
  · rw [if_neg h0]
    unfold State.readReg
    by_cases h : r' = r
    · subst h; rw [if_neg h0, if_pos ⟨rfl, h0⟩]; simp
    · rw [if_neg (c := r' = r ∧ r ≠ 0) (fun e => h e.1)]
      have hn : r.toNat ≠ r'.toNat := fun e => h (BitVec.eq_of_toNat_eq e.symm)
      simp [Vector.getElem_set_ne, hn]

/-- Element 0 of the register file is never written (R32). -/
@[simp] theorem regs_zero_writeReg (s : State) (r : Reg) (v : Word) : (s.writeReg r v).regs[0] = s.regs[0] := by
  unfold State.writeReg
  by_cases h : r = 0
  · rw [if_pos h]
  · rw [if_neg h]
    have hn : r.toNat ≠ 0 := fun e => h (BitVec.eq_of_toNat_eq e)
    simp [Vector.getElem_set_ne, hn]

/-- A register read looks only at the register file. -/
theorem readReg_congr {s s' : State} (h : s.regs = s'.regs) (r : Reg) : s.readReg r = s'.readReg r := by
  unfold State.readReg; rw [h]

/-! ## Operations on one latch -/

@[simp] theorem raw_squash (l : Latch) : l.squash.raw = l.raw := rfl
@[simp] theorem pc_squash (l : Latch) : l.squash.pc = l.pc := rfl
@[simp] theorem nextPc_squash (l : Latch) : l.squash.nextPc = l.nextPc := rfl
@[simp] theorem opcode_squash (l : Latch) : l.squash.opcode = l.opcode := rfl
@[simp] theorem kind_squash (l : Latch) : l.squash.kind = l.kind := rfl
@[simp] theorem rs1_squash (l : Latch) : l.squash.rs1 = l.rs1 := rfl
@[simp] theorem rs2_squash (l : Latch) : l.squash.rs2 = l.rs2 := rfl
@[simp] theorem rd_squash (l : Latch) : l.squash.rd = l.rd := rfl
@[simp] theorem imm_squash (l : Latch) : l.squash.imm = l.imm := rfl
@[simp] theorem readsRs1_squash (l : Latch) : l.squash.readsRs1 = l.readsRs1 := rfl
@[simp] theorem readsRs2_squash (l : Latch) : l.squash.readsRs2 = l.readsRs2 := rfl
@[simp] theorem writesRd_squash (l : Latch) : l.squash.writesRd = l.writesRd := rfl
@[simp] theorem readsMem_squash (l : Latch) : l.squash.readsMem = l.readsMem := rfl
@[simp] theorem writesMem_squash (l : Latch) : l.squash.writesMem = l.writesMem := rfl
@[simp] theorem doesArith_squash (l : Latch) : l.squash.doesArith = l.doesArith := rfl
@[simp] theorem op1Val_squash (l : Latch) : l.squash.op1Val = l.op1Val := rfl
@[simp] theorem op2Val_squash (l : Latch) : l.squash.op2Val = l.op2Val := rfl
@[simp] theorem aluResult_squash (l : Latch) : l.squash.aluResult = l.aluResult := rfl
@[simp] theorem memAddr_squash (l : Latch) : l.squash.memAddr = l.memAddr := rfl
@[simp] theorem memResult_squash (l : Latch) : l.squash.memResult = l.memResult := rfl
@[simp] theorem isNop_squash (l : Latch) : l.squash.isNop = l.isNop := rfl
@[simp] theorem isHalt_squash (l : Latch) : l.squash.isHalt = l.isHalt := rfl
@[simp] theorem isLegal_squash (l : Latch) : l.squash.isLegal = l.isLegal := rfl
@[simp] theorem status_squash (l : Latch) : l.squash.status = .squashed := rfl

@[simp] theorem raw_capture (s : State) (l : Latch) : (s.capture l).raw = l.raw := rfl
@[simp] theorem pc_capture (s : State) (l : Latch) : (s.capture l).pc = l.pc := rfl
@[simp] theorem nextPc_capture (s : State) (l : Latch) : (s.capture l).nextPc = l.nextPc := rfl
@[simp] theorem opcode_capture (s : State) (l : Latch) : (s.capture l).opcode = l.opcode := rfl
@[simp] theorem kind_capture (s : State) (l : Latch) : (s.capture l).kind = l.kind := rfl
@[simp] theorem rs1_capture (s : State) (l : Latch) : (s.capture l).rs1 = l.rs1 := rfl
@[simp] theorem rs2_capture (s : State) (l : Latch) : (s.capture l).rs2 = l.rs2 := rfl
@[simp] theorem rd_capture (s : State) (l : Latch) : (s.capture l).rd = l.rd := rfl
@[simp] theorem imm_capture (s : State) (l : Latch) : (s.capture l).imm = l.imm := rfl
@[simp] theorem readsRs1_capture (s : State) (l : Latch) : (s.capture l).readsRs1 = l.readsRs1 := rfl
@[simp] theorem readsRs2_capture (s : State) (l : Latch) : (s.capture l).readsRs2 = l.readsRs2 := rfl
@[simp] theorem writesRd_capture (s : State) (l : Latch) : (s.capture l).writesRd = l.writesRd := rfl
@[simp] theorem readsMem_capture (s : State) (l : Latch) : (s.capture l).readsMem = l.readsMem := rfl
@[simp] theorem writesMem_capture (s : State) (l : Latch) : (s.capture l).writesMem = l.writesMem := rfl
@[simp] theorem doesArith_capture (s : State) (l : Latch) : (s.capture l).doesArith = l.doesArith := rfl
@[simp] theorem aluResult_capture (s : State) (l : Latch) : (s.capture l).aluResult = l.aluResult := rfl
@[simp] theorem memAddr_capture (s : State) (l : Latch) : (s.capture l).memAddr = l.memAddr := rfl
@[simp] theorem memResult_capture (s : State) (l : Latch) : (s.capture l).memResult = l.memResult := rfl
@[simp] theorem isNop_capture (s : State) (l : Latch) : (s.capture l).isNop = l.isNop := rfl
@[simp] theorem isHalt_capture (s : State) (l : Latch) : (s.capture l).isHalt = l.isHalt := rfl
@[simp] theorem isLegal_capture (s : State) (l : Latch) : (s.capture l).isLegal = l.isLegal := rfl
@[simp] theorem status_capture (s : State) (l : Latch) : (s.capture l).status = l.status := rfl

@[simp] theorem raw_forward (d e m : Latch) : (forward d e m).raw = d.raw := rfl
@[simp] theorem pc_forward (d e m : Latch) : (forward d e m).pc = d.pc := rfl
@[simp] theorem nextPc_forward (d e m : Latch) : (forward d e m).nextPc = d.nextPc := rfl
@[simp] theorem opcode_forward (d e m : Latch) : (forward d e m).opcode = d.opcode := rfl
@[simp] theorem kind_forward (d e m : Latch) : (forward d e m).kind = d.kind := rfl
@[simp] theorem rs1_forward (d e m : Latch) : (forward d e m).rs1 = d.rs1 := rfl
@[simp] theorem rs2_forward (d e m : Latch) : (forward d e m).rs2 = d.rs2 := rfl
@[simp] theorem rd_forward (d e m : Latch) : (forward d e m).rd = d.rd := rfl
@[simp] theorem imm_forward (d e m : Latch) : (forward d e m).imm = d.imm := rfl
@[simp] theorem readsRs1_forward (d e m : Latch) : (forward d e m).readsRs1 = d.readsRs1 := rfl
@[simp] theorem readsRs2_forward (d e m : Latch) : (forward d e m).readsRs2 = d.readsRs2 := rfl
@[simp] theorem writesRd_forward (d e m : Latch) : (forward d e m).writesRd = d.writesRd := rfl
@[simp] theorem readsMem_forward (d e m : Latch) : (forward d e m).readsMem = d.readsMem := rfl
@[simp] theorem writesMem_forward (d e m : Latch) : (forward d e m).writesMem = d.writesMem := rfl
@[simp] theorem doesArith_forward (d e m : Latch) : (forward d e m).doesArith = d.doesArith := rfl
@[simp] theorem aluResult_forward (d e m : Latch) : (forward d e m).aluResult = d.aluResult := rfl
@[simp] theorem memAddr_forward (d e m : Latch) : (forward d e m).memAddr = d.memAddr := rfl
@[simp] theorem memResult_forward (d e m : Latch) : (forward d e m).memResult = d.memResult := rfl
@[simp] theorem isNop_forward (d e m : Latch) : (forward d e m).isNop = d.isNop := rfl
@[simp] theorem isHalt_forward (d e m : Latch) : (forward d e m).isHalt = d.isHalt := rfl
@[simp] theorem isLegal_forward (d e m : Latch) : (forward d e m).isLegal = d.isLegal := rfl
@[simp] theorem status_forward (d e m : Latch) : (forward d e m).status = d.status := rfl

@[simp] theorem raw_storeDataForward (e m : Latch) : (storeDataForward e m).raw = e.raw := by
  unfold storeDataForward; split <;> rfl
@[simp] theorem pc_storeDataForward (e m : Latch) : (storeDataForward e m).pc = e.pc := by
  unfold storeDataForward; split <;> rfl
@[simp] theorem nextPc_storeDataForward (e m : Latch) : (storeDataForward e m).nextPc = e.nextPc := by
  unfold storeDataForward; split <;> rfl
@[simp] theorem opcode_storeDataForward (e m : Latch) : (storeDataForward e m).opcode = e.opcode := by
  unfold storeDataForward; split <;> rfl
@[simp] theorem kind_storeDataForward (e m : Latch) : (storeDataForward e m).kind = e.kind := by
  unfold storeDataForward; split <;> rfl
@[simp] theorem rs1_storeDataForward (e m : Latch) : (storeDataForward e m).rs1 = e.rs1 := by
  unfold storeDataForward; split <;> rfl
@[simp] theorem rs2_storeDataForward (e m : Latch) : (storeDataForward e m).rs2 = e.rs2 := by
  unfold storeDataForward; split <;> rfl
@[simp] theorem rd_storeDataForward (e m : Latch) : (storeDataForward e m).rd = e.rd := by
  unfold storeDataForward; split <;> rfl
@[simp] theorem imm_storeDataForward (e m : Latch) : (storeDataForward e m).imm = e.imm := by
  unfold storeDataForward; split <;> rfl
@[simp] theorem readsRs1_storeDataForward (e m : Latch) : (storeDataForward e m).readsRs1 = e.readsRs1 := by
  unfold storeDataForward; split <;> rfl
@[simp] theorem readsRs2_storeDataForward (e m : Latch) : (storeDataForward e m).readsRs2 = e.readsRs2 := by
  unfold storeDataForward; split <;> rfl
@[simp] theorem writesRd_storeDataForward (e m : Latch) : (storeDataForward e m).writesRd = e.writesRd := by
  unfold storeDataForward; split <;> rfl
@[simp] theorem readsMem_storeDataForward (e m : Latch) : (storeDataForward e m).readsMem = e.readsMem := by
  unfold storeDataForward; split <;> rfl
@[simp] theorem writesMem_storeDataForward (e m : Latch) : (storeDataForward e m).writesMem = e.writesMem := by
  unfold storeDataForward; split <;> rfl
@[simp] theorem doesArith_storeDataForward (e m : Latch) : (storeDataForward e m).doesArith = e.doesArith := by
  unfold storeDataForward; split <;> rfl
@[simp] theorem op1Val_storeDataForward (e m : Latch) : (storeDataForward e m).op1Val = e.op1Val := by
  unfold storeDataForward; split <;> rfl
@[simp] theorem aluResult_storeDataForward (e m : Latch) : (storeDataForward e m).aluResult = e.aluResult := by
  unfold storeDataForward; split <;> rfl
@[simp] theorem memAddr_storeDataForward (e m : Latch) : (storeDataForward e m).memAddr = e.memAddr := by
  unfold storeDataForward; split <;> rfl
@[simp] theorem memResult_storeDataForward (e m : Latch) : (storeDataForward e m).memResult = e.memResult := by
  unfold storeDataForward; split <;> rfl
@[simp] theorem isNop_storeDataForward (e m : Latch) : (storeDataForward e m).isNop = e.isNop := by
  unfold storeDataForward; split <;> rfl
@[simp] theorem isHalt_storeDataForward (e m : Latch) : (storeDataForward e m).isHalt = e.isHalt := by
  unfold storeDataForward; split <;> rfl
@[simp] theorem isLegal_storeDataForward (e m : Latch) : (storeDataForward e m).isLegal = e.isLegal := by
  unfold storeDataForward; split <;> rfl
@[simp] theorem status_storeDataForward (e m : Latch) : (storeDataForward e m).status = e.status := by
  unfold storeDataForward; split <;> rfl

end Sys2Proof.Machine
end

