-- ==== Sys2Proof/Laws/Latches.lean ====
section
/-! SUPPORT. The laws of latches: what decoding makes, and which latches are good. -/

namespace Sys2Proof.Machine

/-! ## Decoding -/

/-- The latch of a word that is an instruction. -/
theorem decodeLatch_instr {raw : Word} {i : Instr} (h : decodeWord raw = .instr i) (pc : Word) (st : Status) :
    decodeLatch raw pc st = latchOf i raw pc st := by
  simp [decodeLatch, h]

/-- The latch of a word with unassigned function fields. -/
theorem decodeLatch_reserved {raw : Word} {c : OpClass} (h : decodeWord raw = .reserved c) (pc : Word) (st : Status) :
    decodeLatch raw pc st = latchOfNoInstr c true raw pc st := by
  simp [decodeLatch, h]

/-- The latch of an illegal word. -/
theorem decodeLatch_illegal {raw : Word} (h : decodeWord raw = .illegal) (pc : Word) (st : Status) :
    decodeLatch raw pc st = latchOfNoInstr .none false raw pc st := by
  simp [decodeLatch, h]

@[simp] theorem raw_decodeLatch (raw pc : Word) (st : Status) : (decodeLatch raw pc st).raw = raw := by
  unfold decodeLatch; split <;> rfl
@[simp] theorem pc_decodeLatch (raw pc : Word) (st : Status) : (decodeLatch raw pc st).pc = pc := by
  unfold decodeLatch; split <;> rfl
@[simp] theorem nextPc_decodeLatch (raw pc : Word) (st : Status) : (decodeLatch raw pc st).nextPc = pc + 4 := by
  unfold decodeLatch; split <;> rfl
@[simp] theorem status_decodeLatch (raw pc : Word) (st : Status) : (decodeLatch raw pc st).status = st := by
  unfold decodeLatch; split <;> rfl

/-- Decoding does not look at the status it gives (R144). -/
theorem decodeLatch_status (raw pc : Word) (st st' : Status) :
    decodeLatch raw pc st' = { decodeLatch raw pc st with status := st' } := by
  unfold decodeLatch; split <;> rfl

/-- The NOP decoded at address 0 is the latch written out in `Latch.nopAt0` (R43, R44). -/
theorem decodeLatch_nop (st : Status) : decodeLatch Config.nopWord 0 st = Latch.nopAt0 st := by
  rw [decodeLatch_status _ _ .idle, show decodeLatch Config.nopWord 0 .idle = Latch.nopAt0 .idle from by decide]
  rfl

theorem bubbleLatch_eq : bubbleLatch = Latch.nopAt0 .bubble := decodeLatch_nop .bubble
theorem idleLatch_eq : idleLatch = Latch.nopAt0 .idle := decodeLatch_nop .idle

@[simp] theorem live_bubbleLatch : bubbleLatch.live = false := by decide
@[simp] theorem live_idleLatch : idleLatch.live = false := by decide
@[simp] theorem live_handlerLatch : handlerLatch.live = false := by decide
@[simp] theorem live_squash (l : Latch) : l.squash.live = false := by simp [Latch.live]

/-! ## Latches that decode alike -/

/-- The fields that decoding decides are equal when `decoded` is. -/
theorem decoded_fields {l m : Latch} (h : l.decoded = m.decoded) :
    l.raw = m.raw ∧ l.pc = m.pc ∧ l.status = m.status ∧ l.opcode = m.opcode ∧ l.kind = m.kind ∧
      l.isLegal = m.isLegal ∧ l.live = m.live := by
  have f : ∀ {α : Type} (g : Latch → α), g l.decoded = g m.decoded := fun g => congrArg g h
  have hs : l.status = m.status := f Latch.status
  exact ⟨f Latch.raw, f Latch.pc, hs, f Latch.opcode, f Latch.kind, f Latch.isLegal, by simp [Latch.live, hs]⟩

/-- A latch that differs from a good latch in value fields only is good. -/
theorem Latch.Good.of_decoded {l m : Latch} (h : m.Good) (e : l.decoded = m.decoded) : l.Good := by
  obtain ⟨hr, hp, hs, ho, hk, hl, hv⟩ := decoded_fields e
  refine ⟨?_, by rw [hs]; exact h.notSpeculative, ?_⟩
  · have := h.coherent
    unfold Latch.coherent at this ⊢
    rw [e, hr, hp, hs, this]
  · rw [hv, hl, hk, ho]; exact h.executable

/-- A squashed coherent latch is good. -/
theorem Latch.good_squash {l : Latch} (h : l.coherent) : l.squash.Good := by
  refine ⟨?_, by simp, by simp⟩
  unfold Latch.coherent at h ⊢
  simp only [raw_squash, pc_squash, status_squash]
  rw [decodeLatch_status _ _ l.status]
  have e : ∀ a b : Latch, a.decoded = b.decoded →
      a.squash.decoded = Latch.decoded { b with status := .squashed } := by
    intro a b hab
    have h2 := congrArg (fun d : Latch => { d with status := Status.squashed }) hab
    simpa [Latch.decoded, Latch.squash] using h2
  exact e _ _ h

@[simp] theorem decoded_decodeLatch_coherent (raw pc : Word) (st : Status) : (decodeLatch raw pc st).coherent := by
  simp [Latch.coherent]

/-- A latch that is not live, as decoding makes it, is good. -/
theorem Latch.good_decodeLatch {raw pc : Word} {st : Status} (h : st ≠ .normal) (h' : st ≠ .speculative) :
    (decodeLatch raw pc st).Good :=
  ⟨by simp, by simpa using h', by simp [Latch.live, h]⟩

theorem Latch.good_bubbleLatch : bubbleLatch.Good := Latch.good_decodeLatch (by decide) (by decide)
theorem Latch.good_idleLatch : idleLatch.Good := Latch.good_decodeLatch (by decide) (by decide)

/-- A capture changes value fields only. -/
@[simp] theorem decoded_capture (s : State) (l : Latch) : (s.capture l).decoded = l.decoded := rfl
/-- Forwarding changes value fields only. -/
@[simp] theorem decoded_forward (d e m : Latch) : (forward d e m).decoded = d.decoded := rfl
/-- Store-data forwarding changes a value field only. -/
@[simp] theorem decoded_storeDataForward (e m : Latch) : (storeDataForward e m).decoded = e.decoded := by
  unfold storeDataForward; split <;> rfl

@[simp] theorem live_forward (d e m : Latch) : (forward d e m).live = d.live := rfl
@[simp] theorem live_storeDataForward (e m : Latch) : (storeDataForward e m).live = e.live := by
  simp [Latch.live]
@[simp] theorem live_capture (s : State) (l : Latch) : (s.capture l).live = l.live := rfl

/-! ## Instructions -/

/-- The class of the latch of an instruction. -/
@[simp] theorem opcode_latchOf (i : Instr) (raw pc : Word) (st : Status) : (latchOf i raw pc st).opcode = i.opClass := rfl
@[simp] theorem kind_latchOf (i : Instr) (raw pc : Word) (st : Status) : (latchOf i raw pc st).kind = .instr i := rfl
@[simp] theorem status_latchOf (i : Instr) (raw pc : Word) (st : Status) : (latchOf i raw pc st).status = st := rfl
@[simp] theorem isLegal_latchOf (i : Instr) (raw pc : Word) (st : Status) : (latchOf i raw pc st).isLegal = true := rfl
@[simp] theorem status_latchOfNoInstr (c : OpClass) (b : Bool) (raw pc : Word) (st : Status) :
    (latchOfNoInstr c b raw pc st).status = st := rfl

/-- A coherent latch whose kind is an instruction decodes to it. -/
theorem decodeWord_of_kind {l : Latch} (h : l.coherent) {i : Instr} (hk : l.kind = .instr i) :
    decodeWord l.raw = .instr i := by
  have hd : l.kind = (decodeLatch l.raw l.pc l.status).kind :=
    congrArg (a₁ := l.decoded) (a₂ := (decodeLatch l.raw l.pc l.status).decoded) Latch.kind h
  rw [hk] at hd
  unfold decodeLatch at hd
  split at hd
  · rename_i j hj
    simp only [kind_latchOf, Kind.instr.injEq] at hd
    rw [hj, hd]
  · exact absurd hd (by simp [latchOfNoInstr])
  · exact absurd hd (by simp [latchOfNoInstr])

/-- The class of a coherent latch is that of its instruction. -/
theorem opcode_of_kind {l : Latch} (h : l.coherent) {i : Instr} (hk : l.kind = .instr i) : l.opcode = i.opClass := by
  have ho : l.opcode = (decodeLatch l.raw l.pc l.status).opcode :=
    congrArg (a₁ := l.decoded) (a₂ := (decodeLatch l.raw l.pc l.status).decoded) Latch.opcode h
  rw [ho, decodeLatch_instr (decodeWord_of_kind h hk)]
  rfl

end Sys2Proof.Machine
end

