-- ==== Sys2Proof/Laws/Memory.lean ====
section
/-! SUPPORT. The laws of memory: what a write changes, and that every memory operation keeps the canonical form. -/

namespace Sys2Proof.Machine

/-! ## Cells -/

/-- No cell of a canonical list lies below its bound. -/
theorem readCell_of_lt {low : Nat} {cs : List Host.Cell} (h : cellsCanonical low cs = true) {a : Nat} (ha : a < low) :
    readCell cs a = 0 := by
  induction cs generalizing low with
  | nil => rfl
  | cons c rest ih =>
    obtain ⟨k, b⟩ := c
    simp only [cellsCanonical, Bool.and_eq_true, decide_eq_true_eq] at h
    rw [readCell, if_neg (by omega)]
    exact ih h.2 (by omega)

/-- A smaller bound bounds too. -/
theorem cellsCanonical_mono {low low' : Nat} {cs : List Host.Cell} (h : cellsCanonical low cs = true)
    (hl : low' ≤ low) : cellsCanonical low' cs = true := by
  cases cs with
  | nil => rfl
  | cons c rest =>
    simp only [cellsCanonical, Bool.and_eq_true, decide_eq_true_eq] at h ⊢
    exact ⟨⟨by omega, h.1.2⟩, h.2⟩

/-- What a write of one cell changes. -/
theorem readCell_writeCell {low : Nat} {cs : List Host.Cell} (h : cellsCanonical low cs = true) (a a' : Nat) (b : Byte) :
    readCell (writeCell cs a b) a' = if a' = a then b else readCell cs a' := by
  induction cs generalizing low with
  | nil => simp only [writeCell]; grind [readCell]
  | cons c rest ih =>
    obtain ⟨k, x⟩ := c
    simp only [cellsCanonical, Bool.and_eq_true, decide_eq_true_eq] at h
    have ih := ih h.2
    have hk : ∀ a, a < k + 1 → readCell rest a = 0 := fun a => readCell_of_lt h.2
    simp only [writeCell]
    grind [readCell]

/-- A write of one cell keeps the canonical form. -/
theorem cellsCanonical_writeCell {low : Nat} {cs : List Host.Cell} (h : cellsCanonical low cs = true) {a : Nat}
    (ha : low ≤ a) (b : Byte) : cellsCanonical low (writeCell cs a b) = true := by
  induction cs generalizing low with
  | nil => simp only [writeCell]; split <;> simp_all [cellsCanonical]
  | cons c rest ih =>
    obtain ⟨k, x⟩ := c
    simp only [cellsCanonical, Bool.and_eq_true, decide_eq_true_eq] at h
    simp only [writeCell]
    by_cases h1 : a < k
    · by_cases hb : b = 0 <;> simp_all [cellsCanonical]
    · by_cases h2 : a = k
      · have := cellsCanonical_mono h.2 (show low ≤ k + 1 by omega)
        by_cases hb : b = 0 <;> simp_all [cellsCanonical]
      · have := ih h.2 (show k + 1 ≤ a by omega)
        rw [if_neg h1, if_neg h2, cellsCanonical, this]
        simp_all

/-- A write of one cell adds no other address. -/
theorem mem_writeCell {cs : List Host.Cell} {a : Nat} {b : Byte} {c : Host.Cell} (h : c ∈ writeCell cs a b) :
    c ∈ cs ∨ c = (a, b) := by
  induction cs with
  | nil => simp only [writeCell] at h; split at h <;> simp_all
  | cons d rest ih =>
    obtain ⟨k, x⟩ := d
    simp only [writeCell] at h
    grind

/-- Canonical lists that read alike are equal. -/
theorem eq_of_readCell {low : Nat} {cs ds : List Host.Cell} (hc : cellsCanonical low cs = true)
    (hd : cellsCanonical low ds = true) (h : ∀ a, readCell cs a = readCell ds a) : cs = ds := by
  induction cs generalizing low ds with
  | nil =>
    cases ds with
    | nil => rfl
    | cons d rest =>
      obtain ⟨k, x⟩ := d
      have := h k
      simp_all [cellsCanonical, readCell]
  | cons c rest ih =>
    obtain ⟨k, x⟩ := c
    cases ds with
    | nil =>
      have := h k
      simp_all [cellsCanonical, readCell]
    | cons d rest' =>
      obtain ⟨k', x'⟩ := d
      simp only [cellsCanonical, Bool.and_eq_true, decide_eq_true_eq, Bool.not_eq_true', beq_eq_false_iff_ne,
        ne_eq] at hc hd
      have r1 : ∀ a, a < k + 1 → readCell rest a = 0 := fun a => readCell_of_lt hc.2
      have r2 : ∀ a, a < k' + 1 → readCell rest' a = 0 := fun a => readCell_of_lt hd.2
      have hk := h k
      have hk' := h k'
      simp only [readCell] at hk hk' h
      have e : k = k' := by
        rcases Nat.lt_trichotomy k k' with hlt | heq | hgt
        · have := r2 k (by omega)
          simp_all
        · exact heq
        · have := r1 k' (by omega)
          simp_all
          grind
      subst e
      have ex : x = x' := by simpa using hk
      subst ex
      rw [ih hc.2 hd.2]
      intro a
      have := h a
      by_cases ha : k = a
      · subst ha; rw [r1 k (by omega), r2 k (by omega)]
      · simpa [ha] using this

/-! ## Memory -/

/-- The canonical form, taken apart. -/
theorem Memory.wf_iff (m : Memory) :
    m.wf = true ↔ cellsCanonical 0 m.cells = true ∧ ∀ c ∈ m.cells, c.1 < m.size := by
  simp [Memory.wf]

@[simp] theorem Memory.size_setByte (m : Memory) (a : Nat) (b : Byte) : (m.setByte a b).size = m.size := by
  unfold Memory.setByte; split <;> rfl

@[simp] theorem Memory.size_write (m : Memory) (a n : Nat) (v : Word) : (m.write a n v).size = m.size := by
  induction n with
  | zero => rfl
  | succ n ih => simp [Memory.write, ih]

/-- Writing one byte keeps the canonical form. -/
theorem Memory.wf_setByte {m : Memory} (h : m.wf = true) (a : Nat) (b : Byte) : (m.setByte a b).wf = true := by
  rw [Memory.wf_iff] at h ⊢
  unfold Memory.setByte
  split
  · refine ⟨cellsCanonical_writeCell h.1 (Nat.zero_le a) b, fun c hc => ?_⟩
    rcases mem_writeCell hc with hc | hc
    · exact h.2 c hc
    · subst hc; assumption
  · exact h

/-- Every store keeps the canonical form. -/
theorem Memory.wf_write {m : Memory} (h : m.wf = true) (a n : Nat) (v : Word) : (m.write a n v).wf = true := by
  induction n with
  | zero => exact h
  | succ n ih => exact Memory.wf_setByte ih _ _

/-- What writing one byte changes. -/
theorem Memory.byteAt_setByte {m : Memory} (h : m.wf = true) (a a' : Nat) (b : Byte) :
    (m.setByte a b).byteAt a' = if a' = a ∧ a < m.size then b else m.byteAt a' := by
  rw [Memory.wf_iff] at h
  unfold Memory.setByte Memory.byteAt
  by_cases ha : a < m.size
  · simp only [ha, if_true, readCell_writeCell h.1]
    grind
  · simp [ha]

/-- What a store changes: byte `k` of the value at `a + k`, for the bytes inside memory, and nothing else (R84). -/
theorem Memory.byteAt_write {m : Memory} (h : m.wf = true) (a n : Nat) (v : Word) (a' : Nat) :
    (m.write a n v).byteAt a' =
      if a ≤ a' ∧ a' < a + n ∧ a' < m.size then v.extractLsb' (8 * (a' - a)) 8 else m.byteAt a' := by
  induction n with
  | zero => simp only [Memory.write]; rw [if_neg (by omega)]
  | succ n ih =>
    rw [Memory.write, Memory.byteAt_setByte (Memory.wf_write h a n v), ih, Memory.size_write]
    by_cases e : a' = a + n
    · subst e; simp only [Nat.add_sub_cancel_left]; grind
    · grind

/-- A byte outside the stored bytes is unchanged. -/
theorem Memory.byteAt_write_of_outside {m : Memory} (h : m.wf = true) (a n : Nat) (v : Word) {a' : Nat}
    (ho : a' < a ∨ a + n ≤ a') : (m.write a n v).byteAt a' = m.byteAt a' := by
  rw [Memory.byteAt_write h, if_neg (by omega)]

/-- Canonical memories of one size that read alike are equal. -/
theorem Memory.eq_of_byteAt {m m' : Memory} (h : m.wf = true) (h' : m'.wf = true) (hs : m.size = m'.size)
    (hb : ∀ a, m.byteAt a = m'.byteAt a) : m = m' := by
  rw [Memory.wf_iff] at h h'
  obtain ⟨size, cells⟩ := m
  obtain ⟨size', cells'⟩ := m'
  simp only at hs
  subst hs
  have key : ∀ (cs : List Host.Cell) (a : Nat), (∀ c ∈ cs, c.1 < size) → ¬ a < size → readCell cs a = 0 := by
    intro cs
    induction cs with
    | nil => intros; rfl
    | cons c rest ih =>
      intro a hc ha
      obtain ⟨k, x⟩ := c
      have hk := hc (k, x) (by simp)
      rw [readCell, if_neg (by simp only at hk; omega)]
      exact ih a (fun c hm => hc c (List.mem_cons_of_mem _ hm)) ha
  congr 1
  refine eq_of_readCell h.1 h'.1 fun a => ?_
  by_cases ha : a < size
  · simpa [Memory.byteAt, ha] using hb a
  · rw [key _ a h.2 ha, key _ a h'.2 ha]

/-! ## A value read back (R82 to R84) -/

/-- A byte stored inside memory reads back. -/
theorem Memory.read8_write {m : Memory} (h : m.wf = true) (a : Nat) (v : Word) (ha : a < m.size) :
    (m.write a 1 v).read8 a = v.extractLsb' 0 8 := by
  rw [Memory.read8, Memory.byteAt_write h, if_pos (by omega)]
  simp

/-- A half word stored inside memory reads back. -/
theorem Memory.read16_write {m : Memory} (h : m.wf = true) (a : Nat) (v : Word) (ha : a + 2 ≤ m.size) :
    (m.write a 2 v).read16 a = v.extractLsb' 0 16 := by
  rw [Memory.read16, Memory.byteAt_write h, Memory.byteAt_write h, if_pos (by omega), if_pos (by omega)]
  apply BitVec.eq_of_getLsbD_eq
  intro i hi
  simp only [BitVec.getLsbD_append, BitVec.getLsbD_extractLsb', Nat.sub_self, Nat.add_sub_cancel_left]
  grind

/-- A word stored inside memory reads back. -/
theorem Memory.read32_write {m : Memory} (h : m.wf = true) (a : Nat) (v : Word) (ha : a + 4 ≤ m.size) :
    (m.write a 4 v).read32 a = v := by
  rw [Memory.read32, Memory.byteAt_write h, Memory.byteAt_write h, Memory.byteAt_write h, Memory.byteAt_write h,
    if_pos (by omega), if_pos (by omega), if_pos (by omega), if_pos (by omega)]
  apply BitVec.eq_of_getLsbD_eq
  intro i hi
  rw [Nat.sub_self, Nat.add_sub_cancel_left, Nat.add_sub_cancel_left, Nat.add_sub_cancel_left]
  show BitVec.getLsbD (v.extractLsb' (8 * 3) 8 ++ v.extractLsb' (8 * 2) 8 ++ v.extractLsb' (8 * 1) 8 ++
    v.extractLsb' (8 * 0) 8) i = _
  simp only [BitVec.getLsbD_append, BitVec.getLsbD_extractLsb']
  grind

/-- A word read back after bytes elsewhere changed. -/
theorem Memory.read32_congr {m m' : Memory} {a : Nat} (h : ∀ k, k < 4 → m.byteAt (a + k) = m'.byteAt (a + k)) :
    m.read32 a = m'.read32 a := by
  have h0 := h 0 (by omega)
  have h1 := h 1 (by omega)
  have h2 := h 2 (by omega)
  have h3 := h 3 (by omega)
  simp only [Nat.add_zero] at h0
  simp only [Memory.read32, h0, h1, h2, h3]

/-! ## Images (R92) -/

@[simp] theorem imageMemory_size (image : List Byte) : (imageMemory image).size = image.length := rfl

theorem imageCells_canonical (image : List Byte) (a low : Nat) (h : low ≤ a) :
    cellsCanonical low (imageCells a image) = true := by
  induction image generalizing a low with
  | nil => rfl
  | cons b rest ih =>
    rw [imageCells]
    split
    · exact ih _ _ (by omega)
    · rename_i hb; simpa [cellsCanonical, h, ih] using hb

theorem imageCells_below (image : List Byte) (a : Nat) : ∀ c ∈ imageCells a image, c.1 < a + image.length := by
  induction image generalizing a with
  | nil => intro c hc; cases hc
  | cons b rest ih =>
    intro c hc
    rw [imageCells] at hc
    rw [List.length_cons]
    split at hc
    · have := ih _ c hc; omega
    · rcases List.mem_cons.mp hc with rfl | hc
      · show a < _; omega
      · have := ih _ c hc; omega

/-- An image's memory is canonical. -/
theorem imageMemory_wf (image : List Byte) : (imageMemory image).wf = true := by
  simp only [Memory.wf, imageMemory, imageCells_canonical image 0 0 (Nat.le_refl 0), Bool.true_and, List.all_eq_true]
  intro c hc
  exact decide_eq_true (by simpa using imageCells_below image 0 c hc)

theorem readCell_imageCells_low (image : List Byte) (a k : Nat) (h : k < a) : readCell (imageCells a image) k = 0 := by
  induction image generalizing a with
  | nil => rfl
  | cons b rest ih =>
    rw [imageCells]
    split
    · exact ih _ (by omega)
    · rw [readCell, if_neg (by omega)]; exact ih _ (by omega)

theorem readCell_imageCells (image : List Byte) (a k : Nat) :
    readCell (imageCells a image) (a + k) = image[k]?.getD 0 := by
  induction image generalizing a k with
  | nil => rfl
  | cons b rest ih =>
    have next : ∀ j, readCell (imageCells (a + 1) rest) (a + (j + 1)) = rest[j]?.getD 0 := by
      intro j
      rw [← ih (a + 1) j]
      congr 1
      omega
    rw [imageCells]
    cases k with
    | zero =>
      split
      · rename_i hb; simpa [hb] using readCell_imageCells_low rest (a + 1) a (by omega)
      · simp [readCell]
    | succ j =>
      split
      · simpa using next j
      · rw [readCell, if_neg (by omega)]; simpa using next j

/-- The byte at an address of an image's memory is the image's. -/
theorem byteAt_imageMemory (image : List Byte) (a : Nat) : (imageMemory image).byteAt a = image[a]?.getD 0 := by
  have h := readCell_imageCells image 0 a
  rw [Nat.zero_add] at h
  rw [Memory.byteAt]
  split
  · exact h
  · rename_i hn
    rw [imageMemory_size, Nat.not_lt] at hn
    simp [List.getElem?_eq_none hn]

/-- The memory of an image of zeros lists nothing. -/
theorem imageCells_replicate (n a : Nat) : imageCells a (List.replicate n 0) = [] := by
  induction n generalizing a with
  | zero => rfl
  | succ n ih => simpa [List.replicate_succ, imageCells] using ih (a + 1)

theorem imageMemory_replicate (n : Nat) : imageMemory (List.replicate n 0) = { size := n, cells := [] } := by
  rw [imageMemory, imageCells_replicate, List.length_replicate]

/-- The memory of `State.reset` is canonical. -/
theorem reset_memory_wf : State.reset.memory.wf = true := by decide

end Sys2Proof.Machine
end

