-- ==== Sys2Proof/Laws/Stages.lean ====
section
/-! SUPPORT. What an instruction can do in each stage: one lemma for each stage, which says all of it. -/

namespace Sys2Proof.Machine

/-! ## Outcomes -/

@[simp] theorem andThen_next (s : State) (f : State → Result) : andThen (.next s) f = f s := rfl
@[simp] theorem andThen_refused (r : Refusal) (f : State → Result) : andThen (.refused r) f = .refused r := rfl

/-- A composed part of a tick answers next exactly when both parts do. -/
theorem andThen_eq_next {o : Result} {f : State → Result} {s' : State} :
    andThen o f = .next s' ↔ ∃ s, o = .next s ∧ f s = .next s' := by
  cases o <;> simp [andThen]

/-! ## The shared operations -/

/-- All that control resolution does (R222, R350 to R353). -/
theorem resolveTo_eq_next {a : Word} {s s' : State} (h : resolveTo a s = .next s') :
    (s.work.memExc = true ∧ s' = s) ∨
    (s.work.memExc = false ∧ a = s.work.new.EX.pc + 4 ∧ s' = s.setNewEX { s.work.new.EX with nextPc := a }) ∨
    (s.work.memExc = false ∧ a ≠ s.work.new.EX.pc + 4 ∧ a.toNat % 4 = 0 ∧
      s' = { s.setNewEX { s.work.new.EX with nextPc := a } with
        work := { (s.setNewEX { s.work.new.EX with nextPc := a }).work with taken := some a } }) := by
  unfold resolveTo at h
  split at h
  · rename_i he; cases h; exact .inl ⟨he, rfl⟩
  · rename_i he
    have he : s.work.memExc = false := by simpa using he
    dsimp only at h
    split at h
    · rename_i hp; cases h; exact .inr (.inl ⟨he, hp, rfl⟩)
    · rename_i hp
      split at h
      · cases h
      · rename_i ha; cases h; exact .inr (.inr ⟨he, hp, by simpa using ha, rfl⟩)

/-- All that the memory access of a load or store does (R242, R254, R281). -/
theorem accessMemory_eq_next {n : Nat} {op : CacheOp} {perform : Nat → State → State} {s s' : State}
    (h : accessMemory n op perform s = .next s') :
    (s.memory.size ≤ s.work.new.MEM.memAddr.toNat ∧ s' = raiseMemoryException s) ∨
    (s.work.new.MEM.memAddr.toNat < s.memory.size ∧ s.work.new.MEM.memAddr.toNat % n = 0 ∧
      ((s.dc.access s.work.new.MEM.memAddr op).1 = .hit ∧
        s' = perform s.work.new.MEM.memAddr.toNat { s with dc := (s.dc.access s.work.new.MEM.memAddr op).2 } ∨
      (s.dc.access s.work.new.MEM.memAddr op).1 = .miss ∧
        ∃ t, t = perform s.work.new.MEM.memAddr.toNat { s with dc := (s.dc.access s.work.new.MEM.memAddr op).2 } ∧
          s' = { t with work := { t.work with dNext := t.dc.config.missLatency } })) := by
  unfold accessMemory at h
  dsimp only at h
  split at h
  · rename_i hb; cases h; exact .inl ⟨hb, rfl⟩
  · rename_i hb
    split at h
    · cases h
    · rename_i ha
      refine .inr ⟨by omega, by simpa using ha, ?_⟩
      split at h <;> cases h
      · rename_i hr; exact .inl ⟨hr, rfl⟩
      · rename_i hr; exact .inr ⟨hr, _, rfl, rfl⟩

/-- When a load or store is within memory and aligned, its access answers a next state. -/
theorem accessMemory_completes (n : Nat) (op : CacheOp) (perform : Nat → State → State) {s : State}
    (hb : s.work.new.MEM.memAddr.toNat < s.memory.size) (ha : s.work.new.MEM.memAddr.toNat % n = 0) :
    ∃ s', accessMemory n op perform s = .next s' := by
  unfold accessMemory
  dsimp only
  rw [if_neg (by omega), if_neg (by simpa using ha)]
  split <;> exact ⟨_, rfl⟩

/-! ## The meanings, as equations for each stage -/

/-- The work of an instruction in ID (R144, R357, R262). -/
theorem exec_at_decode (i : Instr) {s : State} (hs : s.work.stage = .decode) :
    exec i s = if i.opClass = .system ∧ s.work.new.ID.live = true then .refused .systemInstruction
      else .next (enterId i s) := by
  cases i
  case system imm rs1 f3 rd => simp [exec, execSystem, hs, Instr.opClass]
  all_goals simp [exec, execHalt, execNop, execAdd, execSub, execSll, execSlt, execSltu, execXor, execSrl, execSra,
    execOr, execAnd, execAddi, execSlti, execSltiu, execXori, execOri, execAndi, execSlli, execSrli, execSrai, execLui,
    execAuipc, execJal, execJalr, execBeq, execBne, execBlt, execBge, execBltu, execBgeu, execLb, execLh, execLw,
    execLbu, execLhu, execSb, execSh, execSw, computing, jumping, branching, loading, storing, hs, Instr.opClass]

/-- The work of an instruction in WB (R331 to R334). -/
theorem exec_at_writeback (i : Instr) {s : State} (hs : s.work.stage = .writeback) :
    exec i s = if i.opClass = .system then .refused .systemInstruction else .next (commit s) := by
  cases i
  case system imm rs1 f3 rd => simp [exec, execSystem, hs, Instr.opClass]
  all_goals simp [exec, execHalt, execNop, execAdd, execSub, execSll, execSlt, execSltu, execXor, execSrl, execSra,
    execOr, execAnd, execAddi, execSlti, execSltiu, execXori, execOri, execAndi, execSlli, execSrli, execSrai, execLui,
    execAuipc, execJal, execJalr, execBeq, execBne, execBlt, execBge, execBltu, execBgeu, execLb, execLh, execLw,
    execLbu, execLhu, execSb, execSh, execSw, computing, jumping, branching, loading, storing, hs, Instr.opClass]

/-- The MEM work of an instruction that is no load, store or SYSTEM word: none (R340). -/
theorem exec_at_memory_other {i : Instr} {s : State} (hs : s.work.stage = .memory) (hl : i.opClass ≠ .load)
    (ht : i.opClass ≠ .store) (hy : i.opClass ≠ .system) : exec i s = .next s := by
  cases i <;> simp [Instr.opClass] at hl ht hy
  all_goals simp [exec, execHalt, execNop, execAdd, execSub, execSll, execSlt, execSltu, execXor, execSrl, execSra,
    execOr, execAnd, execAddi, execSlti, execSltiu, execXori, execOri, execAndi, execSlli, execSrli, execSrai, execLui,
    execAuipc, execJal, execJalr, execBeq, execBne, execBlt, execBge, execBltu, execBgeu, computing, jumping, branching,
    hs]

/-- The MEM work of a load (R242). -/
theorem exec_at_memory_load {i : Instr} {s : State} (hs : s.work.stage = .memory) (hl : i.opClass = .load) :
    exec i s = accessMemory (accessWidth (.instr i)) .read (performLoad (loadValue (.instr i))) s := by
  cases i <;> simp [Instr.opClass] at hl
  all_goals simp [exec, execLb, execLh, execLw, execLbu, execLhu, loading, hs, accessWidth]; rfl

/-- The MEM work of a store (R242). -/
theorem exec_at_memory_store {i : Instr} {s : State} (hs : s.work.stage = .memory) (hl : i.opClass = .store) :
    exec i s = accessMemory (accessWidth (.instr i)) .write (performStore (accessWidth (.instr i))) s := by
  cases i <;> simp [Instr.opClass] at hl
  all_goals simp [exec, execSb, execSh, execSw, storing, hs, accessWidth]

/-- The EX work of a branch (R349 to R353). -/
theorem exec_at_execute_branch {i : Instr} {s : State} (hs : s.work.stage = .execute) (hc : i.opClass = .branch)
    (hk : s.work.new.EX.kind = .instr i) : exec i s = resolveTo (resolve s.work.new.EX) s := by
  cases i <;> simp [Instr.opClass] at hc
  all_goals simp [exec, execBeq, execBne, execBlt, execBge, execBltu, execBgeu, branching, hs, resolve, hk]

/-- The EX work of a jump (R349 to R353). -/
theorem exec_at_execute_jump {i : Instr} {s : State} (hs : s.work.stage = .execute)
    (hc : i.opClass = .jal ∨ i.opClass = .jalr) (hk : s.work.new.EX.kind = .instr i) :
    exec i s = andThen (resolveTo (resolve s.work.new.EX) s) fun s => .next (setAluResult (s.work.new.EX.pc + 4) s) := by
  cases i <;> simp [Instr.opClass] at hc
  all_goals simp [exec, execJal, execJalr, jumping, hs, resolve, hk]

/-- The EX work of a load or store (R241). -/
theorem exec_at_execute_memory {i : Instr} {s : State} (hs : s.work.stage = .execute)
    (hc : i.opClass = .load ∨ i.opClass = .store) : exec i s = .next (setMemAddr s) := by
  cases i <;> simp [Instr.opClass] at hc
  all_goals simp [exec, execLb, execLh, execLw, execLbu, execLhu, execSb, execSh, execSw, loading, storing, hs]

/-- The EX work of HALT: none (R260). -/
theorem exec_at_execute_halt {s : State} (hs : s.work.stage = .execute) : exec .halt s = .next s := by
  simp [exec, execHalt, hs]

/-- The EX work of an instruction that computes: it sets its ALU result (R170, R264). -/
theorem exec_at_execute_compute {i : Instr} {s : State} (hs : s.work.stage = .execute)
    (hc : i.opClass = .op ∨ i.opClass = .opImm ∨ i.opClass = .lui ∨ i.opClass = .auipc) :
    ∃ v, exec i s = .next (setAluResult v s) := by
  cases i <;> simp [Instr.opClass] at hc
  all_goals
    simp only [exec, execNop, execAdd, execSub, execSll, execSlt, execSltu, execXor, execSrl, execSra, execOr, execAnd,
      execAddi, execSlti, execSltiu, execXori, execOri, execAndi, execSlli, execSrli, execSrai, execLui, execAuipc,
      computing, hs]
    exact ⟨_, rfl⟩

/-- The amount of a shift is the value's remainder (R173). -/
theorem shiftAmount_eq (v : Word) : shiftAmount v = v.toNat % 32 := by
  simp [shiftAmount, BitVec.extractLsb'_toNat]

/-- The EX work of an instruction that computes, exactly, on a latch that holds it (R170 to R194, R264). -/
theorem exec_at_execute_value {i : Instr} {s : State} (hs : s.work.stage = .execute)
    (hc : i.opClass = .op ∨ i.opClass = .opImm ∨ i.opClass = .lui ∨ i.opClass = .auipc)
    (hk : s.work.new.EX.kind = .instr i) : exec i s = .next (setAluResult (aluValue s.work.new.EX) s) := by
  cases i <;> simp [Instr.opClass] at hc
  all_goals
    simp only [exec, execNop, execAdd, execSub, execSll, execSlt, execSltu, execXor, execSrl, execSra, execOr, execAnd,
      execAddi, execSlti, execSltiu, execXori, execOri, execAndi, execSlli, execSrli, execSrai, execLui, execAuipc,
      computing, hs, aluValue, hk, shiftAmount_eq, boolWord, decide_eq_true_eq]

/-! ## One lemma for each stage -/

/-- All that an instruction does in ID (R144, R357, R262). -/
theorem exec_decode {i : Instr} {s s' : State} (hs : s.work.stage = .decode) (h : exec i s = .next s') :
    s' = enterId i s ∧ (i.opClass = .system → s.work.new.ID.live = false) := by
  rw [exec_at_decode i hs] at h
  split at h
  · cases h
  · rename_i hn
    cases h
    exact ⟨rfl, fun hc => by simpa [hc] using hn⟩

/-- An instruction that is a control transfer (R220). -/
def isControlClass (c : OpClass) : Prop := c = .branch ∨ c = .jal ∨ c = .jalr

/-- All that an instruction does in EX (R349 to R353): it changes value fields of its own latch, and a control transfer
may record a taken target. -/
theorem exec_execute {i : Instr} {s s' : State} (hs : s.work.stage = .execute) (h : exec i s = .next s')
    (hk : s.work.new.EX.kind = .instr i) :
    i.opClass ≠ .system ∧ ∃ l t,
      s' = { s with work := { s.work with taken := t, new := { s.work.new with EX := l } } } ∧
      l.decoded = s.work.new.EX.decoded ∧
      (t = s.work.taken ∨
        isControlClass i.opClass ∧ s.work.memExc = false ∧ ∃ a, t = some a ∧ a.toNat % 4 = 0 ∧ l.nextPc = a) := by
  cases hc : i.opClass with
  | branch =>
    rw [exec_at_execute_branch hs hc hk] at h
    refine ⟨by simp, ?_⟩
    rcases resolveTo_eq_next h with ⟨-, rfl⟩ | ⟨-, -, rfl⟩ | ⟨hm, -, ha, rfl⟩
    · exact ⟨_, _, rfl, rfl, .inl rfl⟩
    · exact ⟨_, _, rfl, rfl, .inl rfl⟩
    · exact ⟨_, _, rfl, rfl, .inr ⟨.inl rfl, hm, _, rfl, ha, rfl⟩⟩
  | jal | jalr =>
    rw [exec_at_execute_jump hs (by simp [hc]) hk] at h
    refine ⟨by simp, ?_⟩
    obtain ⟨t, ht, h2⟩ := andThen_eq_next.mp h
    cases h2
    rcases resolveTo_eq_next ht with ⟨-, he⟩ | ⟨-, -, he⟩ | ⟨hm, -, ha, he⟩ <;> rw [he]
    · exact ⟨_, _, rfl, rfl, .inl rfl⟩
    · exact ⟨_, _, rfl, rfl, .inl rfl⟩
    · exact ⟨_, _, rfl, rfl, .inr ⟨by simp [isControlClass], hm, _, rfl, ha, rfl⟩⟩
  | load | store =>
    rw [exec_at_execute_memory hs (by simp [hc])] at h
    cases h
    exact ⟨by simp, ⟨_, _, rfl, rfl, .inl rfl⟩⟩
  | op | opImm | lui | auipc =>
    obtain ⟨v, hv⟩ := exec_at_execute_compute hs (i := i) (by simp [hc])
    rw [hv] at h
    cases h
    exact ⟨by simp, ⟨_, _, rfl, rfl, .inl rfl⟩⟩
  | halt =>
    cases i <;> simp [Instr.opClass] at hc
    rw [exec_at_execute_halt hs] at h
    cases h
    exact ⟨by simp, ⟨_, _, rfl, rfl, .inl rfl⟩⟩
  | system => cases i <;> simp [Instr.opClass] at hc; simp [exec, execSystem, hs] at h
  | none => cases i <;> simp [Instr.opClass] at hc

/-- All that an instruction does in MEM (R242, R254, R281). -/
theorem exec_memory {i : Instr} {s s' : State} (hs : s.work.stage = .memory) (h : exec i s = .next s') :
    i.opClass ≠ .system ∧
    (i.opClass ≠ .load ∧ i.opClass ≠ .store ∧ s' = s ∨
     (i.opClass = .load ∨ i.opClass = .store) ∧ s.memory.size ≤ s.work.new.MEM.memAddr.toNat ∧
      s' = raiseMemoryException s ∨
     i.opClass = .load ∧ s.work.new.MEM.memAddr.toNat < s.memory.size ∧
      (∃ v d, (d = s.work.dNext ∨ d = s.dc.config.missLatency) ∧
        s' = { s.setNewMEM { s.work.new.MEM with memResult := v } with
          dc := (s.dc.access s.work.new.MEM.memAddr .read).2
          work := { (s.setNewMEM { s.work.new.MEM with memResult := v }).work with dNext := d } }) ∨
     i.opClass = .store ∧ s.work.new.MEM.memAddr.toNat < s.memory.size ∧
      ∃ n d, s.work.new.MEM.memAddr.toNat % n = 0 ∧ (n = 1 ∨ n = 2 ∨ n = 4) ∧
        (d = s.work.dNext ∨ d = s.dc.config.missLatency) ∧
        s' = { s with
          dc := (s.dc.access s.work.new.MEM.memAddr .write).2
          memory := s.memory.write s.work.new.MEM.memAddr.toNat n s.work.new.MEM.op2Val
          work := { s.work with dNext := d } }) := by
  have hw : accessWidth (.instr i) = 1 ∨ accessWidth (.instr i) = 2 ∨ accessWidth (.instr i) = 4 := by
    cases i <;> simp [accessWidth]
  by_cases hl : i.opClass = .load
  · rw [exec_at_memory_load hs hl] at h
    refine ⟨by simp [hl], .inr ?_⟩
    rcases accessMemory_eq_next h with ⟨hb, rfl⟩ | ⟨hb, -, ⟨-, rfl⟩ | ⟨-, t, rfl, rfl⟩⟩
    · exact .inl ⟨.inl hl, hb, rfl⟩
    · exact .inr (.inl ⟨hl, hb, loadValue (.instr i) s.memory s.work.new.MEM.memAddr.toNat, s.work.dNext, .inl rfl, rfl⟩)
    · exact .inr (.inl ⟨hl, hb, loadValue (.instr i) s.memory s.work.new.MEM.memAddr.toNat,
        (s.dc.access s.work.new.MEM.memAddr .read).2.config.missLatency, .inr (by simp), rfl⟩)
  · by_cases ht : i.opClass = .store
    · rw [exec_at_memory_store hs ht] at h
      refine ⟨by simp [ht], .inr ?_⟩
      rcases accessMemory_eq_next h with ⟨hb, rfl⟩ | ⟨hb, ha, ⟨-, rfl⟩ | ⟨-, t, rfl, rfl⟩⟩
      · exact .inl ⟨.inr ht, hb, rfl⟩
      · exact .inr (.inr ⟨ht, hb, _, s.work.dNext, ha, hw, .inl rfl, rfl⟩)
      · exact .inr (.inr ⟨ht, hb, _, (s.dc.access s.work.new.MEM.memAddr .write).2.config.missLatency, ha, hw,
          .inr (by simp), rfl⟩)
    · by_cases hy : i.opClass = .system
      · cases i <;> simp [Instr.opClass] at hy; simp [exec, execSystem, hs] at h
      · rw [exec_at_memory_other hs hl ht hy] at h
        cases h
        exact ⟨hy, .inl ⟨hl, ht, rfl⟩⟩

/-- All that an instruction does in WB (R331 to R334). -/
theorem exec_writeback {i : Instr} {s s' : State} (hs : s.work.stage = .writeback) (h : exec i s = .next s') :
    i.opClass ≠ .system ∧ s' = commit s := by
  rw [exec_at_writeback i hs] at h
  split at h
  · cases h
  · rename_i hn; cases h; exact ⟨hn, rfl⟩

end Sys2Proof.Machine
end

