-- ==== Sys2Proof/Laws/Pipeline.lean ====
section
/-! SUPPORT. What each stage of a tick can do, said once: the cases of each stage, and what each leaves alone. -/

namespace Sys2Proof.Machine

/-! ## The cases of each stage -/

/-- A live latch's work is its instruction's. -/
theorem execKind_eq_next {k : Kind} {s s' : State} :
    execKind k s = .next s' ↔ ∃ i, k = .instr i ∧ exec i s = .next s' := by
  cases k <;> simp [execKind]

/-- The cases of WB (R331 to R334). -/
theorem wbStage_cases {s s' : State} (h : wbStage s = .next s') :
    s.latches.MEM.live = false ∧ s' = (s.setNewWB s.latches.MEM).atStage .writeback ∨
    s.latches.MEM.live = true ∧ ∃ i, s.latches.MEM.kind = .instr i ∧ i.opClass ≠ .system ∧
      s' = commit ((s.setNewWB s.latches.MEM).atStage .writeback) := by
  unfold wbStage at h
  dsimp only at h
  split at h
  · rename_i hl
    obtain ⟨i, hk, he⟩ := execKind_eq_next.mp h
    obtain ⟨hn, hs⟩ := exec_writeback (by simp) he
    exact .inr ⟨hl, i, hk, hn, hs⟩
  · rename_i hl; cases h; exact .inl ⟨by simpa using hl, rfl⟩

/-- The cases of MEM (R339 to R341). -/
theorem memStage_cases {s s' : State} (h : memStage s = .next s') :
    s.latches.EX.live = false ∧
      s' = (s.setNewMEM (storeDataForward s.latches.EX s.latches.MEM)).atStage .memory ∨
    s.latches.EX.live = true ∧ ∃ i, s.latches.EX.kind = .instr i ∧
      exec i ((s.setNewMEM (storeDataForward s.latches.EX s.latches.MEM)).atStage .memory) = .next s' := by
  unfold memStage at h
  simp only [live_storeDataForward, kind_storeDataForward] at h
  split at h
  · rename_i hl
    obtain ⟨i, hk, he⟩ := execKind_eq_next.mp h
    exact .inr ⟨hl, i, hk, he⟩
  · rename_i hl; cases h; exact .inl ⟨by simpa using hl, rfl⟩

/-- The cases of EX (R344 to R352). -/
theorem exStage_cases {s s' : State} (h : exStage s = .next s') :
    s.work.stall = true ∧ s' = s.setNewEX bubbleLatch ∨
    s.work.stall = false ∧ s.latches.ID.live = false ∧ s' = s.setNewEX s.latches.ID ∨
    s.work.stall = false ∧ s.latches.ID.live = true ∧ ∃ i, s.latches.ID.kind = .instr i ∧
      exec i ((s.setNewEX (forward s.latches.ID s.latches.EX s.latches.MEM)).atStage .execute) = .next s' := by
  unfold exStage at h
  dsimp only at h
  split at h
  · rename_i hst; cases h; exact .inl ⟨hst, rfl⟩
  · rename_i hst
    have hst : s.work.stall = false := by simpa using hst
    split at h
    · rename_i hl
      obtain ⟨i, hk, he⟩ := execKind_eq_next.mp h
      exact .inr (.inr ⟨hst, hl, i, hk, he⟩)
    · rename_i hl; cases h; exact .inr (.inl ⟨hst, by simpa using hl, rfl⟩)

/-- What entering ID makes of the fetched latch. -/
theorem enterId_spec (i : Instr) (s : State) :
    ∃ l, enterId i s = s.setNewID l ∧
      l.decoded = (latchOf i s.work.new.ID.raw s.work.new.ID.pc s.work.new.ID.status).decoded := by
  refine ⟨_, rfl, ?_⟩
  split <;> rfl

/-- The cases of the decode of `IF'` into ID (R144, R148, R149, R262, R359, R360): what the new ID latch is, and whether
it raises. -/
theorem decodeInto_cases {s s' : State} (h : decodeInto s = .next s') :
    ∃ l b, s' = { (s.setNewID l).atStage .decode with
        work := { ((s.setNewID l).atStage .decode).work with illegal := b } } ∧
      l.decoded = (decodeLatch s.latches.IF.raw s.latches.IF.pc (decodeStatus s)).decoded ∧
      (l.live = true → l.isLegal = true → l.kind ≠ .reserved ∧ l.opcode ≠ .system) ∧
      (b = s.work.illegal ∧ (l.live = true → l.isLegal = true) ∨ b = true ∧ l.live = true ∧ l.isLegal = false) := by
  unfold decodeInto at h
  dsimp only at h
  split at h
  · rename_i i hi
    obtain ⟨hs, hsys⟩ := exec_decode (by simp) h
    obtain ⟨l, hl, hd⟩ := enterId_spec i (((s.setNewID { s.latches.IF with status := decodeStatus s })).atStage .decode)
    rw [hl] at hs
    simp only [new_atStage, newID_setNewID] at hd hsys
    rw [decodeLatch_instr hi]
    refine ⟨l, s.work.illegal, hs, hd, ?_, .inl ⟨rfl, ?_⟩⟩
    · intro hlive _
      obtain ⟨-, -, hst, ho, hk, -, -⟩ := decoded_fields hd
      refine ⟨by rw [hk]; simp, fun hsy => ?_⟩
      have := hsys (by rw [← hsy, ho]; rfl)
      simp only [Latch.live, hst, status_latchOf] at hlive this
      rw [hlive] at this
      exact absurd this (by simp)
    · intro _
      obtain ⟨-, -, -, -, -, hle, -⟩ := decoded_fields hd
      rw [hle]; rfl
  · rename_i c hc
    rw [decodeLatch_reserved hc]
    split at h
    · cases h
    · rename_i hl
      cases h
      refine ⟨_, s.work.illegal, rfl, rfl, fun hlive => ?_, .inl ⟨rfl, fun hlive => ?_⟩⟩
      · exact absurd hlive (by simpa [Latch.live] using hl)
      · exact absurd hlive (by simpa [Latch.live] using hl)
  · rename_i hc
    rw [decodeLatch_illegal hc]
    split at h <;> cases h
    · rename_i hl
      exact ⟨_, true, rfl, rfl, fun _ hle => absurd hle (by simp [latchOfNoInstr]),
        .inr ⟨rfl, by simpa [Latch.live] using hl, rfl⟩⟩
    · rename_i hl
      refine ⟨_, s.work.illegal, rfl, rfl, fun hlive => ?_, .inl ⟨rfl, fun hlive => ?_⟩⟩
      · exact absurd hlive (by simpa [Latch.live] using hl)
      · exact absurd hlive (by simpa [Latch.live] using hl)

/-- The cases of ID (R355 to R361). -/
theorem idStage_cases {s s' : State} (h : idStage s = .next s') :
    s.work.stall = true ∧
      s' = s.setNewID (if s.latches.ID.live then s.capture s.latches.ID else s.latches.ID) ∨
    s.work.stall = false ∧ s.iMissRemaining > 0 ∧
      s' = s.setNewID (if s.work.taken.isSome then bubbleLatch.squash else bubbleLatch) ∨
    s.work.stall = false ∧ s.iMissRemaining = 0 ∧ decodeInto s = .next s' := by
  unfold idStage at h
  dsimp only at h
  split at h
  · rename_i hst; cases h; exact .inl ⟨hst, rfl⟩
  · rename_i hst
    have hst : s.work.stall = false := by simpa using hst
    split at h
    · rename_i hm; cases h; exact .inr (.inl ⟨hst, hm, rfl⟩)
    · rename_i hm; exact .inr (.inr ⟨hst, by omega, h⟩)

/-- All that a taken resolution does in IF (R353, R368, R369). -/
theorem redirect_cases (b : Bool) (s : State) :
    s.work.taken = none ∧ redirect b s = s ∨
    ∃ t, s.work.taken = some t ∧ redirect b s =
      { s.setNewIF s.work.new.IF.squash with
        ic := if b then s.ic.invalidate s.work.new.IF.pc else s.ic
        work := { (s.setNewIF s.work.new.IF.squash).work with iNext := 0, pcNext := t } } := by
  unfold redirect
  cases h : s.work.taken with
  | none => exact .inl ⟨rfl, rfl⟩
  | some t => exact .inr ⟨t, rfl, rfl⟩

/-- The state a fetch makes before a redirection: the word at `pc` decoded into IF after one I-cache access. -/
def fetched (s : State) : State :=
  let t := s.setNewIF (decodeLatch (s.memory.read32 s.pc.toNat) s.pc (fetchStatus s))
  { t with
    ic := (s.ic.access s.pc .read).2
    work := { t.work with
      pcNext := s.pc + 4
      iNext := if (s.ic.access s.pc .read).1 = .miss then (s.ic.access s.pc .read).2.config.missLatency
        else s.work.iNext } }

/-- The cases of IF (R286, R362 to R369). -/
theorem ifStage_cases {s s' : State} (h : ifStage s = .next s') :
    s.work.exc = true ∧ s' = takeException s ∨
    s.work.exc = false ∧ s.work.stall = true ∧ s.iMissRemaining = 0 ∧
      s.latches.IF.pc.toNat + 4 ≤ s.memory.size ∧
      s' = { s.setNewIF s.latches.IF with ic := (s.ic.access s.latches.IF.pc .read).2 } ∨
    s.work.exc = false ∧ s.work.stall = true ∧ s.iMissRemaining > 0 ∧
      s' = { s.setNewIF s.latches.IF with
        work := { (s.setNewIF s.latches.IF).work with iNext := s.iMissRemaining - 1 } } ∨
    s.work.exc = false ∧ s.work.stall = false ∧ s.iMissRemaining > 0 ∧ s' = waitStage s ∨
    s.work.exc = false ∧ s.work.stall = false ∧ s.iMissRemaining = 0 ∧ s.pc.toNat + 4 ≤ s.memory.size ∧
      s' = redirect ((s.ic.access s.pc .read).1 == .miss) (fetched s) := by
  unfold ifStage at h
  split at h
  · rename_i he; cases h; exact .inl ⟨he, rfl⟩
  · rename_i he
    have he : s.work.exc = false := by simpa using he
    right
    split at h
    · rename_i hst
      unfold refetchStage at h
      dsimp only at h
      split at h
      · rename_i hm
        split at h
        · cases h
        · rename_i hb; cases h; exact .inl ⟨he, hst, hm, by simpa using hb, rfl⟩
      · rename_i hm
        cases h
        exact .inr (.inl ⟨he, hst, Nat.pos_of_ne_zero hm, rfl⟩)
    · rename_i hst
      have hst : s.work.stall = false := by simpa using hst
      split at h
      · rename_i hm; cases h; exact .inr (.inr (.inl ⟨he, hst, hm, rfl⟩))
      · rename_i hm
        unfold fetchStage at h
        dsimp only at h
        split at h
        · cases h
        · rename_i hb
          cases h
          exact .inr (.inr (.inr ⟨he, hst, by omega, by omega, rfl⟩))

/-- The cases of a step: it is refused unless the core runs; then a freeze tick, or the stages one after another (R327
to R329). -/
theorem step_eq_next {s s' : State} :
    step s = .next s' ↔ s.mode = .running ∧ s.finalized = false ∧
      (s.dMissRemaining > 0 ∧ s' = freezeTick s ∨
       s.dMissRemaining = 0 ∧ ∃ s1 s2 s3 s4 s5, wbStage (beginTick s) = .next s1 ∧
        memStage (hazardStage s1) = .next s2 ∧ exStage s2 = .next s3 ∧ idStage s3 = .next s4 ∧ ifStage s4 = .next s5 ∧
        s' = endTick s5) := by
  unfold step advance tick
  by_cases hr : s.mode = .running ∧ s.finalized = false
  · rw [if_pos hr]
    by_cases hd : s.dMissRemaining > 0
    · rw [if_pos hd]
      constructor
      · intro h; cases h; exact ⟨hr.1, hr.2, .inl ⟨hd, rfl⟩⟩
      · rintro ⟨-, -, ⟨-, rfl⟩ | ⟨h0, -⟩⟩
        · rfl
        · omega
    · rw [if_neg hd]
      simp only [andThen_eq_next]
      constructor
      · rintro ⟨s1, h1, s2, h2, s3, h3, s4, h4, s5, h5, h6⟩
        cases h6
        exact ⟨hr.1, hr.2, .inr ⟨by omega, s1, s2, s3, s4, s5, h1, h2, h3, h4, h5, rfl⟩⟩
      · rintro ⟨-, -, ⟨h0, -⟩ | ⟨-, s1, s2, s3, s4, s5, h1, h2, h3, h4, h5, rfl⟩⟩
        · omega
        · exact ⟨s1, h1, s2, h2, s3, h3, s4, h4, s5, h5, rfl⟩
  · rw [if_neg hr]
    constructor
    · intro h; cases h
    · rintro ⟨h1, h2, -⟩; exact absurd ⟨h1, h2⟩ hr

end Sys2Proof.Machine
end

