-- ==== Sys2Proof/Laws/Frames.lean ====
section
/-! SUPPORT. What each stage of a tick leaves alone, as one equation for each stage, with what is known of the parts it
changes. -/

namespace Sys2Proof.Machine

/-- A register write, as a change of the register file alone. -/
theorem writeReg_eq (s : State) (r : Reg) (v : Word) : s.writeReg r v = { s with regs := (s.writeReg r v).regs } := by
  unfold State.writeReg
  by_cases h : r = 0
  · rw [if_pos h]
  · rw [if_neg h]

/-- The register file after the commit of the latch in WB (R333). -/
def committedRegs (s : State) : Vector Word 32 :=
  if s.work.new.WB.writesRd then (s.writeReg s.work.new.WB.rd s.work.new.WB.writeValue).regs else s.regs

/-- A commit, as one equation (R333, R334). -/
theorem commit_eq (s : State) :
    commit s = { s with
      regs := committedRegs s, dynamicInstructions := s.dynamicInstructions + 1
      work := { s.work with haltNow := s.work.new.WB.isHalt } } := by
  unfold commit committedRegs
  dsimp only
  cases h : s.work.new.WB.writesRd
  · rfl
  · simp only [if_true]
    rw [writeReg_eq]

/-- Register 0 stays as it is (R32). -/
theorem committedRegs_zero (s : State) : (committedRegs s)[0] = s.regs[0] := by
  unfold committedRegs
  split
  · exact regs_zero_writeReg _ _ _
  · rfl

/-- WB changes the registers, the commit count and `haltNow`, and makes `nWB` (R331 to R334). -/
theorem wbStage_frame {s s' : State} (h : wbStage s = .next s') :
    ∃ r d b, s' = { s with
        regs := r, dynamicInstructions := d
        work := { s.work with stage := .writeback, haltNow := b, new := { s.work.new with WB := s.latches.MEM } } } ∧
      r[0] = s.regs[0] ∧ s.dynamicInstructions ≤ d ∧ d ≤ s.dynamicInstructions + 1 := by
  rcases wbStage_cases h with ⟨-, rfl⟩ | ⟨-, i, -, -, rfl⟩
  · exact ⟨s.regs, s.dynamicInstructions, s.work.haltNow, rfl, rfl, le_rfl, by omega⟩
  · rw [commit_eq]
    exact ⟨committedRegs ((s.setNewWB s.latches.MEM).atStage .writeback), s.dynamicInstructions + 1,
      s.latches.MEM.isHalt, rfl, committedRegs_zero _, by omega, le_rfl⟩

/-- MEM changes memory, the D-cache and `dNext`, may raise `MemoryException`, and makes `nMEM` (R339 to R341). -/
theorem memStage_frame {s s' : State} (h : memStage s = .next s') :
    ∃ l dc m d e, s' = { s with
        dc := dc, memory := m
        work := { s.work with stage := .memory, dNext := d, memExc := e, new := { s.work.new with MEM := l } } } ∧
      (s.latches.EX.Good → l.Good) ∧ (s.dc.Good → dc.Good) ∧ dc.config = s.dc.config ∧
      (s.memory.wf = true → m.wf = true) ∧ m.size = s.memory.size ∧
      (d = s.work.dNext ∨ d = s.dc.config.missLatency) ∧ (l.live = true → s.latches.EX.live = true) ∧
      l.raw = s.latches.EX.raw ∧ l.pc = s.latches.EX.pc ∧
      (e = s.work.memExc ∨ e = true ∧ l.live = false) := by
  have hd := decoded_storeDataForward s.latches.EX s.latches.MEM
  have hl : (storeDataForward s.latches.EX s.latches.MEM).live = s.latches.EX.live := by simp
  have hr : (storeDataForward s.latches.EX s.latches.MEM).raw = s.latches.EX.raw := by simp
  have hp : (storeDataForward s.latches.EX s.latches.MEM).pc = s.latches.EX.pc := by simp
  rcases memStage_cases h with ⟨-, rfl⟩ | ⟨-, i, -, he⟩ <;>
    generalize storeDataForward s.latches.EX s.latches.MEM = e at *
  · exact ⟨e, s.dc, s.memory, s.work.dNext, s.work.memExc, rfl, fun h => h.of_decoded hd, id, rfl, id, rfl,
      .inl rfl, fun h => hl ▸ h, hr, hp, .inl rfl⟩
  · obtain ⟨-, hc⟩ := exec_memory (by simp) he
    rcases hc with ⟨-, -, rfl⟩ | ⟨-, -, rfl⟩ | ⟨-, -, v, d, hdn, rfl⟩ | ⟨-, -, n, d, -, -, hdn, rfl⟩
    · exact ⟨e, s.dc, s.memory, s.work.dNext, s.work.memExc, rfl, fun h => h.of_decoded hd, id, rfl, id, rfl,
        .inl rfl, fun h => hl ▸ h, hr, hp, .inl rfl⟩
    · exact ⟨e.squash, s.dc, s.memory, s.work.dNext, true, rfl, fun h => Latch.good_squash (h.of_decoded hd).coherent,
        id, rfl, id, rfl, .inl rfl, by simp, hr, hp, .inr ⟨rfl, by simp⟩⟩
    · exact ⟨{ e with memResult := v }, (s.dc.access e.memAddr .read).2, s.memory, d, s.work.memExc, rfl,
        fun h => h.of_decoded hd, fun h => Cache.good_access h _ _, Cache.config_access _ _ _, id, rfl, hdn,
        fun h => hl ▸ h, hr, hp, .inl rfl⟩
    · exact ⟨e, (s.dc.access e.memAddr .write).2, s.memory.write e.memAddr.toNat n e.op2Val, d, s.work.memExc, rfl,
        fun h => h.of_decoded hd, fun h => Cache.good_access h _ _, Cache.config_access _ _ _,
        fun h => Memory.wf_write h _ _ _, by simp, hdn, fun h => hl ▸ h, hr, hp, .inl rfl⟩

/-- EX may record a taken target, and makes `nEX` (R344 to R353). -/
theorem exStage_frame {s s' : State} (h : exStage s = .next s') :
    ∃ g l t, s' = { s with work := { s.work with stage := g, taken := t, new := { s.work.new with EX := l } } } ∧
      (s.latches.ID.Good → l.Good) ∧
      (t = s.work.taken ∨ ∃ a, t = some a ∧ a.toNat % 4 = 0 ∧ s.work.stall = false ∧ s.work.memExc = false ∧
        s.latches.ID.live = true ∧ l.nextPc = a) := by
  rcases exStage_cases h with ⟨-, rfl⟩ | ⟨-, -, rfl⟩ | ⟨hst, hl, i, hk, he⟩
  · exact ⟨s.work.stage, bubbleLatch, s.work.taken, rfl, fun _ => Latch.good_bubbleLatch, .inl rfl⟩
  · exact ⟨s.work.stage, s.latches.ID, s.work.taken, rfl, id, .inl rfl⟩
  · obtain ⟨-, l, t, rfl, hd, ht⟩ := exec_execute (by simp) he (by simpa using hk)
    refine ⟨.execute, l, t, rfl, fun h => h.of_decoded (by rw [hd]; simp), ?_⟩
    rcases ht with rfl | ⟨-, hm, a, rfl, ha, hn⟩
    · exact .inl rfl
    · exact .inr ⟨a, rfl, ha, hst, by simpa using hm, hl, hn⟩

/-- ID may raise `IllegalInstruction`, and makes `nID` (R355 to R361). A latch that raises is live and illegal. -/
theorem idStage_frame {s s' : State} (h : idStage s = .next s') :
    ∃ g l b, s' = { s with work := { s.work with stage := g, illegal := b, new := { s.work.new with ID := l } } } ∧
      (s.latches.ID.Good → s.latches.IF.coherent → l.coherent ∧ l.status ≠ .speculative ∧
        (b = false → l.Good)) ∧ (s.work.illegal = true → b = true) := by
  rcases idStage_cases h with ⟨-, rfl⟩ | ⟨-, -, rfl⟩ | ⟨-, -, hdec⟩
  · refine ⟨s.work.stage, if s.latches.ID.live then s.capture s.latches.ID else s.latches.ID, s.work.illegal, rfl,
      fun h _ => ?_, id⟩
    have hg : Latch.Good (if s.latches.ID.live then s.capture s.latches.ID else s.latches.ID) :=
      h.of_decoded (by split <;> rfl)
    exact ⟨hg.coherent, hg.notSpeculative, fun _ => hg⟩
  · refine ⟨s.work.stage, if s.work.taken.isSome then bubbleLatch.squash else bubbleLatch, s.work.illegal, rfl,
      fun _ _ => ?_, id⟩
    have hg : Latch.Good (if s.work.taken.isSome then bubbleLatch.squash else bubbleLatch) := by
      split
      · exact Latch.good_squash Latch.good_bubbleLatch.coherent
      · exact Latch.good_bubbleLatch
    exact ⟨hg.coherent, hg.notSpeculative, fun _ => hg⟩
  · obtain ⟨l, b, rfl, hd, hx, hb⟩ := decodeInto_cases hdec
    obtain ⟨hr, hp, hs, -, -, -, hv⟩ := decoded_fields hd
    refine ⟨.decode, l, b, rfl, fun _ _ => ?_, ?_⟩
    · have hst : l.status ≠ .speculative := by
        rw [hs]; simp only [status_decodeLatch]; unfold decodeStatus; split <;> simp
      have hco : l.coherent := by
        unfold Latch.coherent
        rw [hr, hp, hs, hd]
        simp
      refine ⟨hco, hst, fun hbf => ⟨hco, hst, fun hlive => ?_⟩⟩
      rcases hb with ⟨-, hle⟩ | ⟨rfl, -, -⟩
      · exact ⟨hle hlive, hx hlive (hle hlive)⟩
      · exact absurd hbf (by simp)
    · intro hi
      rcases hb with ⟨rfl, -⟩ | ⟨rfl, -, -⟩
      · exact hi
      · rfl

/-- A waiting fetch, as one equation but for the redirection (R363). -/
theorem waitStage_eq (s : State) :
    waitStage s = redirect true { s.setNewIF s.latches.IF with
      work := { (s.setNewIF s.latches.IF).work with iNext := s.iMissRemaining - 1 } } := rfl

/-- The address after a multiple of 4 is one too, also where it wraps (R14). -/
theorem add_four_aligned {a : Word} (h : a.toNat % 4 = 0) : (a + 4).toNat % 4 = 0 := by
  rw [BitVec.toNat_add, show (4 : Word).toNat = 4 from rfl]
  omega

/-- IF changes the I-cache, and in a tick with an exception the annotation; it makes `nIF`, the next `pc` and the next
I-miss (R286, R362 to R369). -/
theorem ifStage_frame {s s' : State} (h : ifStage s = .next s') (hf : s.latches.IF.GoodFetch)
    (hp : s.pc.toNat % 4 = 0) (ht : ∀ a, s.work.taken = some a → a.toNat % 4 = 0)
    (hpn : s.work.pcNext = s.pc) (hin : s.work.iNext = s.iMissRemaining)
    (him : s.iMissRemaining ≤ s.ic.config.missLatency) :
    s.work.exc = true ∧ s' = takeException s ∨
    s.work.exc = false ∧ ∃ l ic p k, s' = { s with
        ic := ic
        work := { s.work with pcNext := p, iNext := k, new := { s.work.new with IF := l } } } ∧
      l.GoodFetch ∧ p.toNat % 4 = 0 ∧ (s.ic.Good → ic.Good) ∧ ic.config = s.ic.config ∧
      k ≤ s.ic.config.missLatency ∧ (l.pc = s.latches.IF.pc ∨ l.pc.toNat + 4 ≤ s.memory.size) := by
  have redirected : ∀ (b : Bool) (t : State), t.work.taken = s.work.taken → t.work.new.IF.GoodFetch →
      t.work.pcNext.toNat % 4 = 0 → (s.ic.Good → t.ic.Good) → t.ic.config = s.ic.config →
      t.work.iNext ≤ s.ic.config.missLatency →
      ∃ l ic p k, redirect b t = { t with
          ic := ic
          work := { t.work with pcNext := p, iNext := k, new := { t.work.new with IF := l } } } ∧
        l.GoodFetch ∧ p.toNat % 4 = 0 ∧ (s.ic.Good → ic.Good) ∧ ic.config = s.ic.config ∧
        k ≤ s.ic.config.missLatency ∧ l.pc = t.work.new.IF.pc := by
    intro b t htk hgf hpc hic hcf hk
    rcases redirect_cases b t with ⟨-, he⟩ | ⟨a, ha, he⟩ <;> rw [he]
    · exact ⟨t.work.new.IF, t.ic, t.work.pcNext, t.work.iNext, rfl, hgf, hpc, hic, hcf, hk, rfl⟩
    · refine ⟨t.work.new.IF.squash, if b then t.ic.invalidate t.work.new.IF.pc else t.ic, a, 0, rfl, ?_,
        ht a (htk ▸ ha), ?_, ?_, by omega, rfl⟩
      · exact ⟨(Latch.good_squash hgf.coherent).coherent, .inr (.inr (by simp)), hgf.aligned⟩
      · cases b
        · exact hic
        · exact fun h => Cache.good_invalidate (hic h) _
      · cases b
        · exact hcf
        · simp [hcf]
  rcases ifStage_cases h with ⟨he, rfl⟩ | ⟨he, -, -, hb, rfl⟩ | ⟨he, -, -, rfl⟩ | ⟨he, -, hm, rfl⟩ | ⟨he, -, hm, hb, rfl⟩
  · exact .inl ⟨he, rfl⟩
  · exact .inr ⟨he, s.latches.IF, (s.ic.access s.latches.IF.pc .read).2, s.work.pcNext, s.work.iNext, rfl, hf,
      hpn ▸ hp, fun h => Cache.good_access h _ _, Cache.config_access _ _ _, hin ▸ him, .inl rfl⟩
  · exact .inr ⟨he, s.latches.IF, s.ic, s.work.pcNext, s.iMissRemaining - 1, rfl, hf, hpn ▸ hp, id, rfl, by omega,
      .inl rfl⟩
  · refine .inr ⟨he, ?_⟩
    rw [waitStage_eq]
    obtain ⟨l, ic, p, k, hr, h1, h2, h3, h4, h5, h6⟩ := redirected true
      { s.setNewIF s.latches.IF with
        work := { (s.setNewIF s.latches.IF).work with iNext := s.iMissRemaining - 1 } } rfl hf (hpn ▸ hp) id rfl
      (show s.iMissRemaining - 1 ≤ _ by omega)
    exact ⟨l, ic, p, k, hr, h1, h2, h3, h4, h5, .inl h6⟩
  · refine .inr ⟨he, ?_⟩
    obtain ⟨l, ic, p, k, hr, h1, h2, h3, h4, h5, h6⟩ := redirected ((s.ic.access s.pc .read).1 == .miss) (fetched s) rfl
      ⟨by simp [fetched], by simp only [fetched, fetchStatus]; split <;> simp, by simpa [fetched] using hp⟩
      (add_four_aligned hp) (fun h => Cache.good_access h _ _) (Cache.config_access _ _ _)
      (by simp only [fetched]; split <;> simp [hin, him])
    exact ⟨l, ic, p, k, hr, h1, h2, h3, h4, h5, .inr (by rw [h6]; simpa [fetched] using hb)⟩

end Sys2Proof.Machine
end

