-- ==== Sys2Proof/Laws/Exact.lean ====
section
/-! SUPPORT. What each stage of a tick answers, exactly, when its latch is good: refusals and next states. -/

namespace Sys2Proof.Machine

/-! ## A live good latch holds an instruction -/

/-- What a live good latch holds: an instruction that is not SYSTEM, with the flags of its class (R145). -/
theorem Latch.Good.instr {l : Latch} (h : l.Good) (hl : l.live = true) :
    ∃ i, l.kind = .instr i ∧ decodeWord l.raw = .instr i ∧ l.opcode = i.opClass ∧ i.opClass ≠ .system ∧
      l.isHalt = (i == .halt) ∧ l.isNop = (i == .nop) ∧
      l.readsMem = (controlFlags i.opClass (i == .nop)).readsMem ∧
      l.writesMem = (controlFlags i.opClass (i == .nop)).writesMem := by
  obtain ⟨-, hk, hs⟩ := h.executable hl
  cases hki : l.kind with
  | reserved => exact absurd hki hk
  | instr i =>
    have hd := decodeWord_of_kind h.coherent hki
    have ho := opcode_of_kind h.coherent hki
    have f : ∀ {α : Type} (g : Latch → α), g l.decoded = g (decodeLatch l.raw l.pc l.status).decoded :=
      fun g => congrArg g h.coherent
    rw [decodeLatch_instr hd] at f
    exact ⟨i, rfl, hd, ho, ho ▸ hs, f Latch.isHalt, f Latch.isNop, f Latch.readsMem, f Latch.writesMem⟩

/-- Which classes read and write memory (R145). -/
theorem controlFlags_memory (c : OpClass) (b : Bool) :
    ((controlFlags c b).readsMem = true ↔ c = .load) ∧ ((controlFlags c b).writesMem = true ↔ c = .store) := by
  cases c <;> cases b <;> simp [controlFlags]

/-! ## WB -/

/-- WB completes when its latch is good (R331 to R334). -/
theorem wbStage_eq {s : State} (h : s.latches.MEM.Good) :
    wbStage s = .next (if s.latches.MEM.live then commit ((s.setNewWB s.latches.MEM).atStage .writeback)
      else (s.setNewWB s.latches.MEM).atStage .writeback) := by
  unfold wbStage
  dsimp only
  cases hl : s.latches.MEM.live
  · simp
  · obtain ⟨i, hk, -, -, hs, -⟩ := h.instr hl
    simp only [if_true, hk, execKind]
    rw [exec_at_writeback i (by simp), if_neg hs]

/-! ## MEM -/

/-- The state after an access of MEM that is neither refused nor out of bounds (R242): `e` is the latch, `w` the state with
it in MEM. -/
def accessed (w : State) (e : Latch) : State :=
  let r := w.dc.access e.memAddr (if e.readsMem then .read else .write)
  { w with
    dc := r.2
    memory := if e.writesMem then w.memory.write e.memAddr.toNat (accessWidth e.kind) e.op2Val else w.memory
    work := { w.work with
      dNext := if r.1 = .miss then w.dc.config.missLatency else w.work.dNext
      new := { w.work.new with
        MEM := if e.readsMem then { e with memResult := loadValue e.kind w.memory e.memAddr.toNat } else e } } }

/-- MEM, exactly, when its latch is good (R339 to R341). -/
theorem memStage_eq {s : State} (h : s.latches.EX.Good) :
    memStage s =
      (let e := storeDataForward s.latches.EX s.latches.MEM
       let w := (s.setNewMEM e).atStage .memory
       if s.accesses = false then .next w
       else if s.memRaises = true then .next (raiseMemoryException w)
       else if e.memAddr.toNat % accessWidth e.kind ≠ 0 then .refused .misalignedData
       else .next (accessed w e)) := by
  unfold memStage
  dsimp only
  simp only [live_storeDataForward, kind_storeDataForward, memAddr_storeDataForward]
  cases hl : s.latches.EX.live
  · simp [State.accesses, hl]
  · obtain ⟨i, hk, -, -, hy, -, -, hr, hw⟩ := h.instr hl
    have hf := controlFlags_memory i.opClass (i == .nop)
    rw [← hr, ← hw] at hf
    simp only [if_true, hk, execKind]
    have hacc : s.accesses = (s.latches.EX.readsMem || s.latches.EX.writesMem) := by simp [State.accesses, hl]
    by_cases hld : i.opClass = .load
    · have hrm := hf.1.mpr hld
      have hwm : s.latches.EX.writesMem = false := by
        cases hwm : s.latches.EX.writesMem with
        | false => rfl
        | true => rw [hld] at hf; simp [hwm] at hf
      rw [exec_at_memory_load (by simp) hld, accessMemory]
      simp only [hacc, hrm, Bool.true_or, Bool.true_eq_false, if_false, State.memRaises, Bool.true_and, decide_eq_true_eq,
        new_atStage, newMEM_setNewMEM, memory_atStage, memory_setNewMEM, memAddr_storeDataForward, dc_atStage,
        dc_setNewMEM]
      by_cases hb : s.memory.size ≤ s.latches.EX.memAddr.toNat
      · simp [hb]
      · by_cases ha : s.latches.EX.memAddr.toNat % accessWidth (.instr i) ≠ 0
        · simp [hb, ha]
        · rw [if_neg hb, if_neg ha, if_neg hb, if_neg ha]
          unfold accessed
          cases hac : (s.dc.access s.latches.EX.memAddr .read).1 <;>
            simp [hac, hrm, hwm, performLoad, hk, State.setNewMEM, State.atStage]
    · by_cases hst : i.opClass = .store
      · have hwm := hf.2.mpr hst
        have hrm : s.latches.EX.readsMem = false := by
          cases hrm : s.latches.EX.readsMem with
          | false => rfl
          | true => rw [hst] at hf; simp [hrm] at hf
        rw [exec_at_memory_store (by simp) hst, accessMemory]
        simp only [hacc, hrm, hwm, Bool.or_true, Bool.true_eq_false, if_false, State.memRaises, Bool.true_and,
          decide_eq_true_eq, new_atStage, newMEM_setNewMEM, memory_atStage, memory_setNewMEM, memAddr_storeDataForward,
          dc_atStage, dc_setNewMEM]
        by_cases hb : s.memory.size ≤ s.latches.EX.memAddr.toNat
        · simp [hb]
        · by_cases ha : s.latches.EX.memAddr.toNat % accessWidth (.instr i) ≠ 0
          · simp [hb, ha]
          · rw [if_neg hb, if_neg ha, if_neg hb, if_neg ha]
            unfold accessed
            cases hac : (s.dc.access s.latches.EX.memAddr .write).1 <;>
              simp [hac, hrm, hwm, performStore, hk, State.setNewMEM, State.atStage]
      · have hrm : s.latches.EX.readsMem = false := by
          cases hrm : s.latches.EX.readsMem with
          | false => rfl
          | true => exact absurd (hf.1.mp hrm) hld
        have hwm : s.latches.EX.writesMem = false := by
          cases hwm : s.latches.EX.writesMem with
          | false => rfl
          | true => exact absurd (hf.2.mp hwm) hst
        rw [exec_at_memory_other (by simp) hld hst hy]
        simp [hacc, hrm, hwm]

/-! ## EX -/

/-- A good live latch is a control instruction exactly when its instruction's class says so. -/
theorem isControl_of_opcode {l : Latch} {i : Instr} (h : l.opcode = i.opClass) :
    l.isControl = true ↔ i.opClass = .branch ∨ i.opClass = .jal ∨ i.opClass = .jalr := by
  simp [Latch.isControl, h, or_assoc]

/-- Control resolution of a latch in EX, exactly (R350 to R353). -/
theorem resolveTo_setNewEX (a : Word) (d : Latch) (s : State) :
    (s.work.memExc = true → resolveTo a ((s.setNewEX d).atStage .execute) = .next ((s.setNewEX d).atStage .execute)) ∧
    (s.work.memExc = false → a = d.pc + 4 →
      resolveTo a ((s.setNewEX d).atStage .execute) = .next ((s.setNewEX { d with nextPc := a }).atStage .execute)) ∧
    (s.work.memExc = false → a ≠ d.pc + 4 → a.toNat % 4 ≠ 0 →
      resolveTo a ((s.setNewEX d).atStage .execute) = .refused .misalignedTarget) ∧
    (s.work.memExc = false → a ≠ d.pc + 4 → a.toNat % 4 = 0 →
      resolveTo a ((s.setNewEX d).atStage .execute) = .next { (s.setNewEX { d with nextPc := a }).atStage .execute with
        work := { ((s.setNewEX { d with nextPc := a }).atStage .execute).work with taken := some a } }) := by
  have e : ((s.setNewEX d).atStage .execute).work.memExc = s.work.memExc := rfl
  have n : s.work.memExc = false → ¬ ((s.setNewEX d).atStage .execute).work.memExc = true := by
    intro h; rw [e, h]; simp
  refine ⟨fun h => ?_, fun h h1 => ?_, fun h h1 h2 => ?_, fun h h1 h2 => ?_⟩ <;> rw [resolveTo]
  · rw [if_pos (e.trans h)]
  · rw [if_neg (n h)]; exact if_pos h1
  · rw [if_neg (n h)]; exact (if_neg h1).trans (if_pos h2)
  · rw [if_neg (n h)]; exact (if_neg h1).trans (if_neg (fun h => h h2))

/-- The ALU result of the instructions that compute none, and of the jumps (R349). -/
theorem aluValue_of_kind {d : Latch} {i : Instr} (hk : d.kind = .instr i) :
    (i.opClass = .branch ∨ i.opClass = .load ∨ i.opClass = .store ∨ i.opClass = .halt → aluValue d = d.aluResult) ∧
    (i.opClass = .jal ∨ i.opClass = .jalr → aluValue d = d.pc + 4) := by
  cases i <;> simp [aluValue, hk, Instr.opClass]

/-- The latch EX publishes from a live latch `d` that is forwarded (R345, R349, R350): `r` says whether it resolves. -/
def executed (d : Latch) (r : Bool) : Latch :=
  { d with
    nextPc := if r then resolve d else d.nextPc
    memAddr := if d.readsMem ∨ d.writesMem then d.op1Val + d.imm else d.memAddr
    aluResult := aluValue d }

/-- EX, exactly, when its latch is good and live and the tick does not stall (R345 to R353). -/
theorem exStage_live {s : State} (h : s.latches.ID.Good) (hst : s.work.stall = false) (hl : s.latches.ID.live = true) :
    let d := s.forwarded
    let a := resolve d
    let r := d.isControl && !s.work.memExc
    (r = true ∧ a ≠ d.pc + 4 ∧ a.toNat % 4 ≠ 0 → exStage s = .refused .misalignedTarget) ∧
    (¬ (r = true ∧ a ≠ d.pc + 4 ∧ a.toNat % 4 ≠ 0) →
      exStage s = .next { s with work := { s.work with
        stage := .execute
        taken := if r = true ∧ a ≠ d.pc + 4 then some a else s.work.taken
        new := { s.work.new with EX := executed d r } } }) := by
  obtain ⟨i, hk, -, ho, hy, -, -, hr, hw⟩ := h.instr hl
  have hf := controlFlags_memory i.opClass (i == .nop)
  rw [← hr, ← hw] at hf
  have hkf : s.forwarded.kind = .instr i := by simp [State.forwarded, hk]
  have hof : s.forwarded.opcode = i.opClass := by simp [State.forwarded, ho]
  have hrf : s.forwarded.readsMem = s.latches.ID.readsMem := by simp [State.forwarded]
  have hwf : s.forwarded.writesMem = s.latches.ID.writesMem := by simp [State.forwarded]
  have hex : exStage s = exec i ((s.setNewEX s.forwarded).atStage .execute) := by
    simp [exStage, hst, hl, hk, execKind, State.forwarded]
  generalize s.forwarded = d at *
  dsimp only
  rw [hex]
  have hcf := isControl_of_opcode hof
  have hnm : ∀ c, i.opClass = c → c ≠ .load → c ≠ .store → d.readsMem = false ∧ d.writesMem = false := by
    intro c hc h1 h2
    rw [hrf, hwf]
    constructor
    · cases hx : s.latches.ID.readsMem with
      | false => rfl
      | true => exact absurd (hc ▸ hf.1.mp hx) h1
    · cases hx : s.latches.ID.writesMem with
      | false => rfl
      | true => exact absurd (hc ▸ hf.2.mp hx) h2
  have notControl : ∀ c, i.opClass = c → c ≠ .branch → c ≠ .jal → c ≠ .jalr → d.isControl = false := by
    intro c hc h1 h2 h3
    cases hx : d.isControl with
    | false => rfl
    | true => rcases hcf.mp hx with h | h | h <;> simp_all
  -- an instruction that makes no access publishes `executed` with its address as it was
  have same : ∀ (c : OpClass) (r : Bool), i.opClass = c → c ≠ .load → c ≠ .store →
      executed d r = { d with nextPc := if r then resolve d else d.nextPc, aluResult := aluValue d } := by
    intro c r h1 h2 h3
    obtain ⟨hr0, hw0⟩ := hnm c h1 h2 h3
    simp [executed, hr0, hw0]
  cases hc : i.opClass with
  | branch =>
    have hctl : d.isControl = true := hcf.mpr (.inl hc)
    have hv := (aluValue_of_kind hkf).1 (by simp [hc])
    have e1 : executed d true = { d with nextPc := resolve d } := by rw [same _ _ hc (by simp) (by simp), hv]; rfl
    have e0 : executed d false = d := by rw [same _ _ hc (by simp) (by simp), hv]; rfl
    obtain ⟨q1, q2, q3, q4⟩ := resolveTo_setNewEX (resolve d) d s
    rw [exec_at_execute_branch (by simp) hc (by simpa using hkf)]
    simp only [new_atStage, newEX_setNewEX, hctl, Bool.true_and]
    rcases Bool.eq_false_or_eq_true s.work.memExc with hm | hm
    · rw [q1 hm, show (!s.work.memExc) = false by simp [hm], e0]
      exact ⟨by simp, fun _ => rfl⟩
    · rw [show (!s.work.memExc) = true by simp [hm], e1]
      refine ⟨fun ⟨_, h1, h2⟩ => q3 hm h1 h2, fun hn => ?_⟩
      by_cases h1 : resolve d = d.pc + 4
      · rw [q2 hm h1, if_neg (fun h => h.2 h1)]; rfl
      · have h2 : (resolve d).toNat % 4 = 0 := by by_contra h2; exact hn ⟨rfl, h1, h2⟩
        rw [q4 hm h1 h2, if_pos ⟨rfl, h1⟩]; rfl
  | jal | jalr =>
    have hctl : d.isControl = true := hcf.mpr (by simp [hc])
    have hv := (aluValue_of_kind hkf).2 (by simp [hc])
    have e1 : executed d true = { d with nextPc := resolve d, aluResult := d.pc + 4 } := by
      rw [same _ _ hc (by simp) (by simp), hv]; rfl
    have e0 : executed d false = { d with aluResult := d.pc + 4 } := by
      rw [same _ _ hc (by simp) (by simp), hv]; rfl
    obtain ⟨q1, q2, q3, q4⟩ := resolveTo_setNewEX (resolve d) d s
    rw [exec_at_execute_jump (by simp) (by simp [hc]) (by simpa using hkf)]
    simp only [new_atStage, newEX_setNewEX, hctl, Bool.true_and]
    rcases Bool.eq_false_or_eq_true s.work.memExc with hm | hm
    · rw [q1 hm, show (!s.work.memExc) = false by simp [hm], e0]
      exact ⟨by simp, fun _ => rfl⟩
    · rw [show (!s.work.memExc) = true by simp [hm], e1]
      refine ⟨fun ⟨_, h1, h2⟩ => by rw [q3 hm h1 h2]; rfl, fun hn => ?_⟩
      by_cases h1 : resolve d = d.pc + 4
      · rw [q2 hm h1, if_neg (fun h => h.2 h1)]; rfl
      · have h2 : (resolve d).toNat % 4 = 0 := by by_contra h2; exact hn ⟨rfl, h1, h2⟩
        rw [q4 hm h1 h2, if_pos ⟨rfl, h1⟩]; rfl
  | load | store =>
    have hctl := notControl _ hc (by simp) (by simp) (by simp)
    have hv := (aluValue_of_kind hkf).1 (by simp [hc])
    have hrw : d.readsMem = true ∨ d.writesMem = true := by
      rw [hrf, hwf, hf.1, hf.2, hc]; simp
    have e0 : executed d false = { d with memAddr := d.op1Val + d.imm } := by
      rw [executed, if_pos hrw, hv]; rfl
    rw [exec_at_execute_memory (by simp) (by simp [hc]), hctl, Bool.false_and, e0]
    exact ⟨by simp, fun _ => rfl⟩
  | op | opImm | lui | auipc =>
    have hctl := notControl _ hc (by simp) (by simp) (by simp)
    have e0 : executed d false = { d with aluResult := aluValue d } := by
      rw [same _ _ hc (by simp) (by simp)]; rfl
    rw [exec_at_execute_value (by simp) (by simp [hc]) (by simpa using hkf), hctl, Bool.false_and, e0]
    exact ⟨by simp, fun _ => rfl⟩
  | halt =>
    have hctl := notControl _ hc (by simp) (by simp) (by simp)
    have hv := (aluValue_of_kind hkf).1 (by simp [hc])
    have e0 : executed d false = d := by rw [same _ _ hc (by simp) (by simp), hv]; rfl
    cases i <;> simp [Instr.opClass] at hc
    rw [exec_at_execute_halt (by simp), hctl, Bool.false_and, e0]
    exact ⟨by simp, fun _ => rfl⟩
  | system => exact absurd hc hy
  | none => cases i <;> simp [Instr.opClass] at hc

/-! ## ID -/

/-- The latch that the decode of `IF'` makes, its operands captured when it is live (R144, R357, R359). -/
def decodedLatch (s : State) : Latch :=
  let l := decodeLatch s.latches.IF.raw s.latches.IF.pc (decodeStatus s)
  if l.live then s.capture l else l

/-- The decode of `IF'` into ID, exactly (R148, R149, R262, R359, R360). -/
theorem decodeInto_eq (s : State) :
    decodeInto s =
      match decodeWord s.latches.IF.raw with
      | .instr i =>
        if i.opClass = .system ∧ decodeStatus s = .normal then .refused .systemInstruction
        else .next ((s.setNewID (decodedLatch s)).atStage .decode)
      | .reserved _ =>
        if decodeStatus s = .normal then .refused .reservedEncoding
        else .next ((s.setNewID (decodedLatch s)).atStage .decode)
      | .illegal =>
        if decodeStatus s = .normal then .next (raiseIllegalInstruction ((s.setNewID (decodedLatch s)).atStage .decode))
        else .next ((s.setNewID (decodedLatch s)).atStage .decode) := by
  have hl : ∀ l : Latch, l.status = decodeStatus s → (l.live = true ↔ decodeStatus s = .normal) := by
    intro l h; simp [Latch.live, h]
  have hst : ({ s.latches.IF with status := decodeStatus s } : Latch).live = true ↔ decodeStatus s = .normal := hl _ rfl
  unfold decodeInto decodedLatch
  dsimp only
  cases hd : decodeWord s.latches.IF.raw with
  | instr i =>
    simp only [decodeLatch_instr hd]
    rw [exec_at_decode i (by simp)]
    simp only [new_atStage, newID_setNewID, hst]
    rfl
  | reserved c =>
    simp only [decodeLatch_reserved hd, hl _ (status_latchOfNoInstr _ _ _ _ _), hst]
    by_cases h : decodeStatus s = .normal
    · simp only [h, if_true]
    · simp only [h, if_false]; rfl
  | illegal =>
    simp only [decodeLatch_illegal hd, hl _ (status_latchOfNoInstr _ _ _ _ _), hst]
    by_cases h : decodeStatus s = .normal
    · simp only [h, if_true]; rfl
    · simp only [h, if_false]; rfl

end Sys2Proof.Machine
end

