-- ==== Sys2Proof/Laws/PerInstr.lean ====
section
/-! SUPPORT. For each instruction: the fields of its encoded word are those its term says (R131 to R142). -/

namespace Sys2Proof.Laws.EncodedFields
open Sys2Proof

/-- The major opcode of the encoded word selects the instruction's class, unless it is HALT, whose whole word is its
opcode (R143); and every register field that the instruction's format has stands in the place R131 gives it. -/
def Statement (i : Instr) : Prop :=
  (i ≠ .halt → majorClass (opcodeOf (encode i)) = i.opClass) ∧
  (∀ r, i.regFields.rs1 = some r → rs1Of (encode i) = r) ∧
  (∀ r, i.regFields.rs2 = some r → rs2Of (encode i) = r) ∧
  (∀ r, i.regFields.rd = some r → rdOf (encode i) = r)

theorem halt : Statement (.halt) := by
  simp [Statement, Instr.regFields]

theorem nop : Statement (.nop) := by
  simp [Statement, encode, majorClass, nopWord_fields.1, Instr.opClass, Instr.regFields]

theorem add (rd : Reg) (rs1 : Reg) (rs2 : Reg) : Statement (.add rd rs1 rs2) := by
  simp [Statement, encode, majorClass, Instr.opClass, Instr.regFields]

theorem sub (rd : Reg) (rs1 : Reg) (rs2 : Reg) : Statement (.sub rd rs1 rs2) := by
  simp [Statement, encode, majorClass, Instr.opClass, Instr.regFields]

theorem sll (rd : Reg) (rs1 : Reg) (rs2 : Reg) : Statement (.sll rd rs1 rs2) := by
  simp [Statement, encode, majorClass, Instr.opClass, Instr.regFields]

theorem slt (rd : Reg) (rs1 : Reg) (rs2 : Reg) : Statement (.slt rd rs1 rs2) := by
  simp [Statement, encode, majorClass, Instr.opClass, Instr.regFields]

theorem sltu (rd : Reg) (rs1 : Reg) (rs2 : Reg) : Statement (.sltu rd rs1 rs2) := by
  simp [Statement, encode, majorClass, Instr.opClass, Instr.regFields]

theorem xor (rd : Reg) (rs1 : Reg) (rs2 : Reg) : Statement (.xor rd rs1 rs2) := by
  simp [Statement, encode, majorClass, Instr.opClass, Instr.regFields]

theorem srl (rd : Reg) (rs1 : Reg) (rs2 : Reg) : Statement (.srl rd rs1 rs2) := by
  simp [Statement, encode, majorClass, Instr.opClass, Instr.regFields]

theorem sra (rd : Reg) (rs1 : Reg) (rs2 : Reg) : Statement (.sra rd rs1 rs2) := by
  simp [Statement, encode, majorClass, Instr.opClass, Instr.regFields]

theorem or (rd : Reg) (rs1 : Reg) (rs2 : Reg) : Statement (.or rd rs1 rs2) := by
  simp [Statement, encode, majorClass, Instr.opClass, Instr.regFields]

theorem and (rd : Reg) (rs1 : Reg) (rs2 : Reg) : Statement (.and rd rs1 rs2) := by
  simp [Statement, encode, majorClass, Instr.opClass, Instr.regFields]

theorem addi (rd : Reg) (rs1 : Reg) (imm : BitVec 12) : Statement (.addi rd rs1 imm) := by
  simp [Statement, encode, majorClass, Instr.opClass, Instr.regFields]

theorem slti (rd : Reg) (rs1 : Reg) (imm : BitVec 12) : Statement (.slti rd rs1 imm) := by
  simp [Statement, encode, majorClass, Instr.opClass, Instr.regFields]

theorem sltiu (rd : Reg) (rs1 : Reg) (imm : BitVec 12) : Statement (.sltiu rd rs1 imm) := by
  simp [Statement, encode, majorClass, Instr.opClass, Instr.regFields]

theorem xori (rd : Reg) (rs1 : Reg) (imm : BitVec 12) : Statement (.xori rd rs1 imm) := by
  simp [Statement, encode, majorClass, Instr.opClass, Instr.regFields]

theorem ori (rd : Reg) (rs1 : Reg) (imm : BitVec 12) : Statement (.ori rd rs1 imm) := by
  simp [Statement, encode, majorClass, Instr.opClass, Instr.regFields]

theorem andi (rd : Reg) (rs1 : Reg) (imm : BitVec 12) : Statement (.andi rd rs1 imm) := by
  simp [Statement, encode, majorClass, Instr.opClass, Instr.regFields]

theorem slli (rd : Reg) (rs1 : Reg) (shamt : BitVec 5) : Statement (.slli rd rs1 shamt) := by
  simp [Statement, encode, majorClass, Instr.opClass, Instr.regFields]

theorem srli (rd : Reg) (rs1 : Reg) (shamt : BitVec 5) : Statement (.srli rd rs1 shamt) := by
  simp [Statement, encode, majorClass, Instr.opClass, Instr.regFields]

theorem srai (rd : Reg) (rs1 : Reg) (shamt : BitVec 5) : Statement (.srai rd rs1 shamt) := by
  simp [Statement, encode, majorClass, Instr.opClass, Instr.regFields]

theorem lui (rd : Reg) (imm : BitVec 20) : Statement (.lui rd imm) := by
  simp [Statement, encode, majorClass, Instr.opClass, Instr.regFields]

theorem auipc (rd : Reg) (imm : BitVec 20) : Statement (.auipc rd imm) := by
  simp [Statement, encode, majorClass, Instr.opClass, Instr.regFields]

theorem jal (rd : Reg) (offset : BitVec 21) : Statement (.jal rd offset) := by
  simp [Statement, encode, majorClass, Instr.opClass, Instr.regFields]

theorem jalr (rd : Reg) (rs1 : Reg) (imm : BitVec 12) : Statement (.jalr rd rs1 imm) := by
  simp [Statement, encode, majorClass, Instr.opClass, Instr.regFields]

theorem beq (rs1 : Reg) (rs2 : Reg) (offset : BitVec 13) : Statement (.beq rs1 rs2 offset) := by
  simp [Statement, encode, majorClass, Instr.opClass, Instr.regFields]

theorem bne (rs1 : Reg) (rs2 : Reg) (offset : BitVec 13) : Statement (.bne rs1 rs2 offset) := by
  simp [Statement, encode, majorClass, Instr.opClass, Instr.regFields]

theorem blt (rs1 : Reg) (rs2 : Reg) (offset : BitVec 13) : Statement (.blt rs1 rs2 offset) := by
  simp [Statement, encode, majorClass, Instr.opClass, Instr.regFields]

theorem bge (rs1 : Reg) (rs2 : Reg) (offset : BitVec 13) : Statement (.bge rs1 rs2 offset) := by
  simp [Statement, encode, majorClass, Instr.opClass, Instr.regFields]

theorem bltu (rs1 : Reg) (rs2 : Reg) (offset : BitVec 13) : Statement (.bltu rs1 rs2 offset) := by
  simp [Statement, encode, majorClass, Instr.opClass, Instr.regFields]

theorem bgeu (rs1 : Reg) (rs2 : Reg) (offset : BitVec 13) : Statement (.bgeu rs1 rs2 offset) := by
  simp [Statement, encode, majorClass, Instr.opClass, Instr.regFields]

theorem lb (rd : Reg) (rs1 : Reg) (imm : BitVec 12) : Statement (.lb rd rs1 imm) := by
  simp [Statement, encode, majorClass, Instr.opClass, Instr.regFields]

theorem lh (rd : Reg) (rs1 : Reg) (imm : BitVec 12) : Statement (.lh rd rs1 imm) := by
  simp [Statement, encode, majorClass, Instr.opClass, Instr.regFields]

theorem lw (rd : Reg) (rs1 : Reg) (imm : BitVec 12) : Statement (.lw rd rs1 imm) := by
  simp [Statement, encode, majorClass, Instr.opClass, Instr.regFields]

theorem lbu (rd : Reg) (rs1 : Reg) (imm : BitVec 12) : Statement (.lbu rd rs1 imm) := by
  simp [Statement, encode, majorClass, Instr.opClass, Instr.regFields]

theorem lhu (rd : Reg) (rs1 : Reg) (imm : BitVec 12) : Statement (.lhu rd rs1 imm) := by
  simp [Statement, encode, majorClass, Instr.opClass, Instr.regFields]

theorem sb (rs2 : Reg) (rs1 : Reg) (imm : BitVec 12) : Statement (.sb rs2 rs1 imm) := by
  simp [Statement, encode, majorClass, Instr.opClass, Instr.regFields]

theorem sh (rs2 : Reg) (rs1 : Reg) (imm : BitVec 12) : Statement (.sh rs2 rs1 imm) := by
  simp [Statement, encode, majorClass, Instr.opClass, Instr.regFields]

theorem sw (rs2 : Reg) (rs1 : Reg) (imm : BitVec 12) : Statement (.sw rs2 rs1 imm) := by
  simp [Statement, encode, majorClass, Instr.opClass, Instr.regFields]

theorem system (imm : BitVec 12) (rs1 : Reg) (funct3 : BitVec 3) (rd : Reg) : Statement (.system imm rs1 funct3 rd) := by
  simp [Statement, encode, majorClass, Instr.opClass, Instr.regFields]

end Sys2Proof.Laws.EncodedFields
end

