-- ==== Sys2Proof/Laws/Tick.lean ====
section
/-! SUPPORT. A non-freeze tick, stage after stage, in the terms of Safety: what each stage adds to the working state, from
a state with the invariant. -/

namespace Sys2Proof.Machine

/-- After WB, the hazards and MEM (R331 to R341). -/
theorem tick_through_memory {s s1 s2 : State} (hI : s.Inv) (h1 : wbStage (beginTick s) = .next s1) (h2 : memStage (hazardStage s1) = .next s2) :
    ∃ r d b lM dc m dn,
      s2 = { s with regs := r, dynamicInstructions := d, dc := dc, memory := m, work := { Work.rest with iNext := s.iMissRemaining, pcNext := s.pc, stage := .memory, haltNow := b, stall := s.stalls, lbeNext := (hazard s.latches.ID s.latches.EX s.loadBranchExtra).lbeNext, count := (hazard s.latches.ID s.latches.EX s.loadBranchExtra).count, dNext := dn, memExc := s.memRaises, new := { Work.rest.new with WB := s.latches.MEM, MEM := lM } } } ∧
      b = s.halts ∧
      (let e := storeDataForward s.latches.EX s.latches.MEM
       let access := s.dc.access e.memAddr (if e.readsMem then .read else .write)
       if s.accesses = false then lM = e ∧ m = s.memory ∧ dc = s.dc ∧ dn = 0
       else if s.memRaises = true then lM = e.squash ∧ m = s.memory ∧ dc = s.dc ∧ dn = 0
       else dc = access.2 ∧ dn = (if access.1 = .miss then s.dc.config.missLatency else 0) ∧
         lM = (if e.readsMem then { e with memResult := loadValue e.kind s.memory e.memAddr.toNat } else e) ∧
         m = (if e.writesMem then s.memory.write e.memAddr.toNat (accessWidth e.kind) e.op2Val else s.memory)) := by
  have hMg : (beginTick s).latches.MEM.Good := hI.access
  rw [wbStage_eq hMg] at h1
  cases h1
  obtain ⟨r, d, b, he, hb⟩ : ∃ r d b, (if (beginTick s).latches.MEM.live then commit (((beginTick s).setNewWB (beginTick s).latches.MEM).atStage .writeback)
      else ((beginTick s).setNewWB (beginTick s).latches.MEM).atStage .writeback) = { beginTick s with
        regs := r, dynamicInstructions := d
        work := { (beginTick s).work with stage := .writeback, haltNow := b, new := { (beginTick s).work.new with WB := s.latches.MEM } } } ∧ b = s.halts := by
    cases hl : (beginTick s).latches.MEM.live
    · exact ⟨s.regs, s.dynamicInstructions, false, rfl, by have : s.latches.MEM.live = false := hl; simp [State.halts, this]⟩
    · simp only [if_true]
      rw [commit_eq]
      exact ⟨committedRegs (((beginTick s).setNewWB (beginTick s).latches.MEM).atStage .writeback), s.dynamicInstructions + 1, s.latches.MEM.isHalt, rfl, by have : s.latches.MEM.live = true := hl; simp [State.halts, this]⟩
  rw [he] at h2
  clear he
  obtain ⟨t, ht⟩ : ∃ t, t = hazardStage { beginTick s with
        regs := r, dynamicInstructions := d
        work := { (beginTick s).work with stage := .writeback, haltNow := b, new := { (beginTick s).work.new with WB := s.latches.MEM } } } := ⟨_, rfl⟩
  rw [← ht] at h2
  have tl : t.latches = s.latches := by rw [ht]; rfl
  have tm : t.memory = s.memory := by rw [ht]; rfl
  have td : t.dc = s.dc := by rw [ht]; rfl
  have tn : t.work.dNext = 0 := by rw [ht]; rfl
  rw [memStage_eq (tl ▸ hI.execute)] at h2
  have ha : t.accesses = s.accesses := by simp [State.accesses, tl]
  have hm : t.memRaises = s.memRaises := by
    simp [State.memRaises, ha, tl, tm]
  rw [ha, hm] at h2
  dsimp only at h2
  cases hacc : s.accesses
  · rw [hacc] at h2
    have hmr : s.memRaises = false := by simp [State.memRaises, hacc]
    simp only [if_true] at h2
    cases h2
    refine ⟨r, d, b, storeDataForward s.latches.EX s.latches.MEM, s.dc, s.memory, 0, ?_, hb, ?_⟩
    · rw [hmr, tl, ht]; rfl
    · simp
  · rw [hacc] at h2
    cases hmr : s.memRaises
    · rw [hmr] at h2
      simp only [Bool.true_eq_false, if_false, Bool.false_eq_true] at h2
      split at h2
      · cases h2
      · cases h2
        refine ⟨r, d, b, (accessed ((t.setNewMEM (storeDataForward s.latches.EX s.latches.MEM)).atStage .memory) (storeDataForward s.latches.EX s.latches.MEM)).work.new.MEM, (accessed ((t.setNewMEM (storeDataForward s.latches.EX s.latches.MEM)).atStage .memory) (storeDataForward s.latches.EX s.latches.MEM)).dc, (accessed ((t.setNewMEM (storeDataForward s.latches.EX s.latches.MEM)).atStage .memory) (storeDataForward s.latches.EX s.latches.MEM)).memory, (accessed ((t.setNewMEM (storeDataForward s.latches.EX s.latches.MEM)).atStage .memory) (storeDataForward s.latches.EX s.latches.MEM)).work.dNext, ?_, hb, ?_⟩
        · rw [tl, ht]; rfl
        · simp only [Bool.true_eq_false, if_false, Bool.false_eq_true]
          rw [ht]
          exact ⟨rfl, rfl, rfl, rfl⟩
    · rw [hmr] at h2
      simp only [Bool.true_eq_false, if_false, if_true] at h2
      cases h2
      refine ⟨r, d, b, (storeDataForward s.latches.EX s.latches.MEM).squash, s.dc, s.memory, 0, ?_, hb, ?_⟩
      · rw [tl, ht]; rfl
      · simp

/-- What EX adds (R344 to R353). -/
theorem tick_execute {s s2 s3 : State} (hI : s.Inv) (h3 : exStage s2 = .next s3) (hl : s2.latches = s.latches)
   (hst : s2.work.stall = s.stalls) (hme : s2.work.memExc = s.memRaises) (htk : s2.work.taken = none) :
    ∃ g lE, s3 = { s2 with work := { s2.work with stage := g, taken := if s.takes then some (resolve s.forwarded) else none, new := { s2.work.new with EX := lE } } } ∧
     (s.takes = true → (resolve s.forwarded).toNat % 4 = 0) ∧
     (if s.stalls = true then lE = bubbleLatch
      else if s.latches.ID.live = false then lE = s.latches.ID
      else lE = executed s.forwarded s.resolves) := by
  have hf : s2.forwarded = s.forwarded := by simp [State.forwarded, hl]
  have hfp : s.forwarded.pc = s.latches.ID.pc := by simp [State.forwarded]
  have hfc : s.forwarded.isControl = s.latches.ID.isControl := by simp [Latch.isControl, State.forwarded]
  cases hs : s.stalls
  · rw [hs] at hst
    cases hli : s.latches.ID.live
    · have ht : s.takes = false := by simp [State.takes, State.resolves, hli]
      have he : exStage s2 = .next (s2.setNewEX s.latches.ID) := by simp [exStage, hst, hl, hli]
      rw [he] at h3; cases h3
      refine ⟨s2.work.stage, s.latches.ID, ?_, by simp [ht], by simp⟩
      rw [ht]; simp only [Bool.false_eq_true, if_false, ← htk]; rfl
    · obtain ⟨q1, q2⟩ := exStage_live (s := s2) (hl ▸ hI.decode) hst (hl ▸ hli)
      rw [hf, hme] at q1 q2
      have hres : s.resolves = (s.forwarded.isControl && !s.memRaises) := by simp [State.resolves, hs, hli, hfc]
      have htk' : s.takes = true ↔ s.resolves = true ∧ resolve s.forwarded ≠ s.forwarded.pc + 4 := by
        simp [State.takes, hfp]
      rw [← hres] at q1 q2
      by_cases hx : s.resolves = true ∧ resolve s.forwarded ≠ s.forwarded.pc + 4 ∧ (resolve s.forwarded).toNat % 4 ≠ 0
      · rw [q1 hx] at h3; cases h3
      · rw [q2 hx] at h3; cases h3
        refine ⟨.execute, executed s.forwarded s.resolves, ?_, ?_, by simp⟩
        · rw [htk]; congr 2
          by_cases h : s.takes = true
          · rw [if_pos (htk'.mp h), if_pos h]
          · rw [if_neg (fun h' => h (htk'.mpr h')), if_neg h]
        · intro h; by_contra h4; exact hx ⟨(htk'.mp h).1, (htk'.mp h).2, h4⟩
  · have ht : s.takes = false := by simp [State.takes, State.resolves, hs]
    rw [hs] at hst
    have he : exStage s2 = .next (s2.setNewEX bubbleLatch) := by simp [exStage, hst]
    rw [he] at h3; cases h3
    refine ⟨s2.work.stage, bubbleLatch, ?_, by simp [ht], by simp⟩
    rw [ht]; simp only [Bool.false_eq_true, if_false, ← htk]; rfl

/-- What ID publishes before the squash of an exception (R355 to R359); `s3` is the state with this tick's register write. -/
def baseID (s s3 : State) : Latch :=
  if s.stalls then (if s.latches.ID.live then s3.capture s.latches.ID else s.latches.ID)
  else if 0 < s.iMissRemaining then (if s.takes then bubbleLatch.squash else bubbleLatch)
  else
    let l := decodeLatch s.latches.IF.raw s.latches.IF.pc (if s.latches.IF.status = .squashed ∨ s.takes = true ∨ s.memRaises = true then .squashed else .normal)
    if l.live then s3.capture l else l

/-- What ID adds (R355 to R360). -/
theorem tick_decode {s s3 s4 : State} (h4 : idStage s3 = .next s4) (hl : s3.latches = s.latches)
   (him : s3.iMissRemaining = s.iMissRemaining)
   (hst : s3.work.stall = s.stalls) (hme : s3.work.memExc = s.memRaises) (htk : s3.work.taken = if s.takes then some (resolve s.forwarded) else none)
   (hil : s3.work.illegal = false) :
    ∃ g, s4 = { s3 with work := { s3.work with stage := g, illegal := s.illegalRaises, new := { s3.work.new with ID := baseID s s3 } } } := by
  have hts : s3.work.taken.isSome = s.takes := by rw [htk]; cases s.takes <;> simp
  rcases idStage_cases h4 with ⟨h1, rfl⟩ | ⟨h1, h2, rfl⟩ | ⟨h1, h2, h3⟩
  · rw [hst] at h1
    refine ⟨s3.work.stage, ?_⟩
    have : s.illegalRaises = false := by simp [State.illegalRaises, State.decodesLive, h1]
    have hb : (if s3.latches.ID.live then s3.capture s3.latches.ID else s3.latches.ID) = baseID s s3 := by
      rw [baseID, if_pos h1, hl]
    rw [hb, this, ← hil]; rfl
  · rw [hst] at h1; rw [him] at h2
    refine ⟨s3.work.stage, ?_⟩
    have : s.illegalRaises = false := by
      have : ¬ s.iMissRemaining = 0 := by omega
      simp [State.illegalRaises, State.decodesLive, this]
    have hb : (if s3.work.taken.isSome then bubbleLatch.squash else bubbleLatch) = baseID s s3 := by
      simp only [hts, baseID, h1, if_pos h2, Bool.false_eq_true, if_false]
    rw [hb, this, ← hil]; rfl
  · rw [hst] at h1; rw [him] at h2
    rw [decodeInto_eq, hl] at h3
    have hds : decodeStatus s3 = if s.latches.IF.status = .squashed ∨ s.takes = true ∨ s.memRaises = true then .squashed else .normal := by
      unfold decodeStatus
      rw [hl, hts, hme]
      simp [or_assoc]
    have hdl : s.decodesLive = true ↔ decodeStatus s3 = .normal := by
      rw [hds]
      simp only [State.decodesLive, h1, h2]
      by_cases q1 : s.latches.IF.status = .squashed
      · simp [q1]
      · cases q2 : s.takes <;> cases q3 : s.memRaises <;> simp [q1]
    have hb : baseID s s3 = decodedLatch s3 := by
      rw [baseID, if_neg (by simp [h1]), if_neg (by omega), decodedLatch, hl, hds]
    rw [hb]
    have hi : s.illegalRaises = true ↔ decodeStatus s3 = .normal ∧ decodeWord s.latches.IF.raw = .illegal := by
      simp [State.illegalRaises, hdl]
    cases hd : decodeWord s.latches.IF.raw with
    | instr i =>
      rw [hd] at h3; dsimp only at h3
      have : s.illegalRaises = false := by
        cases hx : s.illegalRaises with
        | false => rfl
        | true => have := (hi.mp hx).2; rw [hd] at this; cases this
      split at h3 <;> cases h3
      exact ⟨.decode, by rw [this, ← hil]; rfl⟩
    | reserved i =>
      rw [hd] at h3; dsimp only at h3
      have : s.illegalRaises = false := by
        cases hx : s.illegalRaises with
        | false => rfl
        | true => have := (hi.mp hx).2; rw [hd] at this; cases this
      split at h3 <;> cases h3
      exact ⟨.decode, by rw [this, ← hil]; rfl⟩
    | illegal =>
      rw [hd] at h3; dsimp only at h3
      split at h3
      · rename_i hn
        cases h3
        exact ⟨.decode, by rw [hi.mpr ⟨hn, hd⟩]; rfl⟩
      · rename_i hn
        have : s.illegalRaises = false := by
          cases hx : s.illegalRaises with
          | false => rfl
          | true => exact absurd (hi.mp hx).1 hn
        cases h3
        exact ⟨.decode, by rw [this, ← hil]; rfl⟩

/-- A tick before IF: the working state after ID, and what its parts are (R331 to R361). -/
theorem tick_before_fetch {s s' : State} (hI : s.Inv) (hd : s.dMissRemaining = 0) (h : step s = .next s') :
    ∃ s4 s5 r d lM dc m dn lE g, ifStage s4 = .next s5 ∧ s' = endTick s5 ∧ s.mode = .running ∧ s.finalized = false ∧
      s4 = { s with
        regs := r, dynamicInstructions := d, dc := dc, memory := m
        work := {
          stage := g, stall := s.stalls, count := (hazard s.latches.ID s.latches.EX s.loadBranchExtra).count
          lbeNext := (hazard s.latches.ID s.latches.EX s.loadBranchExtra).lbeNext
          dNext := dn, iNext := s.iMissRemaining, pcNext := s.pc
          taken := if s.takes then some (resolve s.forwarded) else none
          memExc := s.memRaises, illegal := s.illegalRaises, haltNow := s.halts
          new := { IF := Work.rest.new.IF, ID := baseID s { s with regs := r }, EX := lE, MEM := lM, WB := s.latches.MEM } } } ∧
      (s.takes = true → (resolve s.forwarded).toNat % 4 = 0) ∧
      (let e := storeDataForward s.latches.EX s.latches.MEM
       let access := s.dc.access e.memAddr (if e.readsMem then .read else .write)
       if s.accesses = false then lM = e ∧ m = s.memory ∧ dc = s.dc ∧ dn = 0
       else if s.memRaises = true then lM = e.squash ∧ m = s.memory ∧ dc = s.dc ∧ dn = 0
       else dc = access.2 ∧ dn = (if access.1 = .miss then s.dc.config.missLatency else 0) ∧
         lM = (if e.readsMem then { e with memResult := loadValue e.kind s.memory e.memAddr.toNat } else e) ∧
         m = (if e.writesMem then s.memory.write e.memAddr.toNat (accessWidth e.kind) e.op2Val else s.memory)) ∧
      (if s.stalls = true then lE = bubbleLatch
       else if s.latches.ID.live = false then lE = s.latches.ID
       else lE = executed s.forwarded s.resolves) := by
  obtain ⟨hm, hf, ⟨h0, -⟩ | ⟨-, s1, s2, s3, s4, s5, h1, h2, h3, h4, h5, rfl⟩⟩ := step_eq_next.mp h
  · omega
  obtain ⟨r, d, b, lM, dc, m, dn, rfl, rfl, hM⟩ := tick_through_memory hI h1 h2
  obtain ⟨g, lE, rfl, ht, hE⟩ := tick_execute hI h3 rfl rfl rfl rfl
  obtain ⟨g', rfl⟩ := tick_decode (s := s) h4 rfl rfl rfl rfl rfl rfl
  exact ⟨_, s5, r, d, lM, dc, m, dn, lE, g', h5, rfl, hm, hf, rfl, ht, hM, hE⟩

end Sys2Proof.Machine
end

