-- ==== Sys2Proof/Tests/Slice0.lean ====
section
/-! SUPPORT. Tests of the model, their expected values from the spec (95_test_vectors.md where a comment names no other
source), and for every statement with hypotheses a witness that meets them. -/

namespace Sys2Proof.Tests

open Sys2Proof.Machine

/-! ## Well-formedness: one ill-formed term for each check (30_encoding.md R140, R141, R146) -/

theorem test_wellFormed_refuses_odd_jal : (Instr.jal 1 3).wellFormed = false := by decide
theorem test_wellFormed_refuses_odd_branches :
    (Instr.beq 1 2 1).wellFormed = false ∧ (Instr.bne 1 2 3).wellFormed = false ∧
    (Instr.blt 1 2 5).wellFormed = false ∧ (Instr.bge 1 2 (-1)).wellFormed = false ∧
    (Instr.bltu 1 2 7).wellFormed = false ∧ (Instr.bgeu 1 2 9).wellFormed = false := by decide
theorem test_wellFormed_refuses_addi_nop : (Instr.addi 0 0 0).wellFormed = false := by decide
theorem test_wellFormed_accepts :
    (Instr.addi 0 0 1).wellFormed = true ∧ (Instr.jal 0 (-8)).wellFormed = true ∧
    (Instr.beq 0 0 (-4096)).wellFormed = true := by decide

/-! ## Decoding: every constructor, by a word written out from the formats and tables of 30_encoding.md -/

theorem test_decode_whole_words :
    decodeWord 0b1111111_01110_11011_111_11101_1101101#32 = .instr .halt ∧
    decodeWord 0b000000000000_00000_000_00000_0010011#32 = .instr .nop := by decide

theorem test_decode_op :
    decodeWord 0b0000000_00010_00001_000_00011_0110011#32 = .instr (.add 3 1 2) ∧
    decodeWord 0b0100000_00010_00001_000_00011_0110011#32 = .instr (.sub 3 1 2) ∧
    decodeWord 0b0000000_00010_00001_001_00011_0110011#32 = .instr (.sll 3 1 2) ∧
    decodeWord 0b0000000_00010_00001_010_00011_0110011#32 = .instr (.slt 3 1 2) ∧
    decodeWord 0b0000000_00010_00001_011_00011_0110011#32 = .instr (.sltu 3 1 2) ∧
    decodeWord 0b0000000_00010_00001_100_00011_0110011#32 = .instr (.xor 3 1 2) ∧
    decodeWord 0b0000000_00010_00001_101_00011_0110011#32 = .instr (.srl 3 1 2) ∧
    decodeWord 0b0100000_00010_00001_101_00011_0110011#32 = .instr (.sra 3 1 2) ∧
    decodeWord 0b0000000_00010_00001_110_00011_0110011#32 = .instr (.or 3 1 2) ∧
    decodeWord 0b0000000_00010_00001_111_00011_0110011#32 = .instr (.and 3 1 2) := by decide

theorem test_decode_op_imm :
    decodeWord 0b111111111111_00001_000_00011_0010011#32 = .instr (.addi 3 1 (-1)) ∧
    decodeWord 0b111111111111_00001_010_00011_0010011#32 = .instr (.slti 3 1 (-1)) ∧
    decodeWord 0b000000000001_00001_011_00011_0010011#32 = .instr (.sltiu 3 1 1) ∧
    decodeWord 0b111111111111_00001_100_00011_0010011#32 = .instr (.xori 3 1 (-1)) ∧
    decodeWord 0b100000000000_00001_110_00011_0010011#32 = .instr (.ori 3 1 (-2048)) ∧
    decodeWord 0b011111111111_00001_111_00011_0010011#32 = .instr (.andi 3 1 2047) ∧
    decodeWord 0b0000000_11111_00001_001_00011_0010011#32 = .instr (.slli 3 1 31) ∧
    decodeWord 0b0000000_11111_00001_101_00011_0010011#32 = .instr (.srli 3 1 31) ∧
    decodeWord 0b0100000_11111_00001_101_00011_0010011#32 = .instr (.srai 3 1 31) := by decide

theorem test_decode_upper :
    decodeWord 0b00010010001101000101_00011_0110111#32 = .instr (.lui 3 0x12345) ∧
    decodeWord 0b10000000000000000000_00011_0010111#32 = .instr (.auipc 3 0x80000) := by decide

theorem test_decode_jumps :
    decodeWord 0b0_0000000000_1_00000000_00001_1101111#32 = .instr (.jal 1 2048) ∧
    decodeWord 0b1_1111111100_1_11111111_00000_1101111#32 = .instr (.jal 0 (-8)) ∧
    decodeWord 0b111111111100_00101_000_00001_1100111#32 = .instr (.jalr 1 5 (-4)) := by decide

theorem test_decode_branches :
    decodeWord 0b0_000000_00010_00001_000_0100_0_1100011#32 = .instr (.beq 1 2 8) ∧
    decodeWord 0b1_111111_00010_00001_001_1110_1_1100011#32 = .instr (.bne 1 2 (-4)) ∧
    decodeWord 0b0_000000_00010_00001_100_1000_0_1100011#32 = .instr (.blt 1 2 16) ∧
    decodeWord 0b0_000000_00010_00001_101_1000_0_1100011#32 = .instr (.bge 1 2 16) ∧
    decodeWord 0b0_000000_00010_00001_110_0000_1_1100011#32 = .instr (.bltu 1 2 2048) ∧
    decodeWord 0b1_000000_00010_00001_111_0000_0_1100011#32 = .instr (.bgeu 1 2 (-4096)) := by decide

theorem test_decode_loads :
    decodeWord 0b000000000001_00001_000_00011_0000011#32 = .instr (.lb 3 1 1) ∧
    decodeWord 0b000000000010_00001_001_00011_0000011#32 = .instr (.lh 3 1 2) ∧
    decodeWord 0b111111111100_00001_010_00011_0000011#32 = .instr (.lw 3 1 (-4)) ∧
    decodeWord 0b000000000011_00001_100_00011_0000011#32 = .instr (.lbu 3 1 3) ∧
    decodeWord 0b000000000010_00001_101_00011_0000011#32 = .instr (.lhu 3 1 2) := by decide

theorem test_decode_stores :
    decodeWord 0b0000000_00010_00001_000_00011_0100011#32 = .instr (.sb 2 1 3) ∧
    decodeWord 0b0000000_00010_00001_001_00010_0100011#32 = .instr (.sh 2 1 2) ∧
    decodeWord 0b1111111_00010_00001_010_11100_0100011#32 = .instr (.sw 2 1 (-4)) := by decide

/-- SYSTEM: ECALL, EBREAK and MRET words (43_system_halt.md R262). -/
theorem test_decode_system :
    decodeWord 0b000000000000_00000_000_00000_1110011#32 = .instr (.system 0 0 0 0) ∧
    decodeWord 0x00100073#32 = .instr (.system 1 0 0 0) ∧
    decodeWord 0x30200073#32 = .instr (.system 0x302 0 0 0) := by decide

/-- The reserved words of 95_test_vectors.md 3.4. -/
theorem test_decode_reserved :
    decodeWord 0x022081B3#32 = .reserved .op ∧ decodeWord 0x202081B3#32 = .reserved .op ∧
    decodeWord 0x00209067#32 = .reserved .jalr ∧ decodeWord 0x0020A063#32 = .reserved .branch ∧
    decodeWord 0x0000B183#32 = .reserved .load ∧ decodeWord 0x0020B023#32 = .reserved .store ∧
    decodeWord 0x02009093#32 = .reserved .opImm ∧ decodeWord 0x40009093#32 = .reserved .opImm ∧
    decodeWord 0x4200D093#32 = .reserved .opImm := by decide

/-- The illegal words of 95_test_vectors.md 3.4. -/
theorem test_decode_illegal :
    decodeWord 0x00000000#32 = .illegal ∧ decodeWord 0xFFFFFFFF#32 = .illegal ∧ decodeWord 0x0000000F#32 = .illegal ∧
    decodeWord 0x0000100F#32 = .illegal ∧ decodeWord 0x0000202F#32 = .illegal := by decide

/-- `addi x0, x0, 1` and `add x0, x0, x0` are no NOP: they write (to register 0), as `writes_rd` says. -/
theorem test_decode_near_nop :
    (decodeLatch 0x00100013#32 0 .normal).writesRd = true ∧ (decodeLatch 0x00000033#32 0 .normal).writesRd = true ∧
    (decodeLatch 0x00000013#32 0 .normal).writesRd = false := by decide

/-- The encoder on words of the vectors. -/
theorem test_encode :
    encode (.bne 1 2 (-4)) = 0xFE209EE3#32 ∧ encode (.jal 1 2048) = 0x001000EF#32 ∧
    encode (.sw 2 1 (-4)) = 0xFE20AE23#32 ∧ encode (.lui 3 0xFFFFF) = 0xFFFFF1B7#32 ∧
    encode (.srai 3 1 4) = 0x4040D193#32 := by decide

/-- A word in the byte order of memory (20_memory.md R82). -/
theorem test_decode_bytes :
    decodeBytes [0xB3, 0x81, 0x20, 0x00, 0x13] = .ok (.add 3 1 2, [0x13]) ∧
    decodeTableWord 32 0x002081B3 = some (.add 3 1 2) := by decide

/-! ## The integer instructions in EX (95_test_vectors.md 3.1) -/

/-- The work of a word's instruction. -/
def execWord (w : Word) (s : State) : Result :=
  match decodeWord w with
  | .instr i => exec i s
  | _ => .refused .notRunning

/-- A word in EX at an address with its operands. -/
def inExecute (w pc a b : Word) : State :=
  (State.reset.setNewEX { decodeLatch w pc .normal with op1Val := a, op2Val := b }).atStage .execute

/-- Whether an outcome is a next state that a test accepts. -/
def nextIs (o : Result) (p : State → Bool) : Bool :=
  match o with
  | .next s => p s
  | _ => false

/-- Whether EX leaves a value in `alu_result`, and a next address that is the next instruction's. -/
def alu (w pc a b v : Word) : Bool :=
  nextIs (execWord w (inExecute w pc a b)) fun s =>
    s.work.new.EX.aluResult == v && s.work.new.EX.nextPc == pc + 4 && s.work.taken == none

theorem test_add : alu 0x002081B3 0 0x7FFFFFFF 1 0x80000000 = true := by decide
theorem test_sub : alu 0x402081B3 0 0 1 0xFFFFFFFF = true := by decide
theorem test_sll : alu 0x002091B3 0 3 0xFFFFFFE1 6 = true := by decide
theorem test_slt : alu 0x0020A1B3 0 0xFFFFFFFF 0 1 = true := by decide
theorem test_sltu : alu 0x0020B1B3 0 0xFFFFFFFF 0 0 = true := by decide
theorem test_xor : alu 0x0020C1B3 0 0xF0F0F0F0 0xFF00FF00 0x0FF00FF0 = true := by decide
theorem test_srl : alu 0x0020D1B3 0 0x80000000 0x20 0x80000000 = true := by decide
theorem test_sra : alu 0x4020D1B3 0 0x80000000 4 0xF8000000 = true := by decide
theorem test_or : alu 0x0020E1B3 0 0xF0F0F0F0 0x0F0F0F0F 0xFFFFFFFF = true := by decide
theorem test_and : alu 0x0020F1B3 0 0xF0F0F0F0 0xFF00FF00 0xF000F000 = true := by decide
theorem test_addi : alu 0x7FF08193 0 0x7FFFFFFF 0 0x800007FE = true := by decide
theorem test_slti : alu 0xFFF0A193 0 0xFFFFFFFE 0 1 = true := by decide
theorem test_sltiu : alu 0xFFF0B193 0 0xFFFFFFFF 0 0 = true ∧ alu 0xFFF0B193 0 0xFFFFFFFE 0 1 = true := by decide
theorem test_xori : alu 0xFFF0C193 0 0x12345678 0 0xEDCBA987 = true := by decide
theorem test_ori : alu 0x8000E193 0 1 0 0xFFFFF801 = true := by decide
theorem test_andi : alu 0x7FF0F193 0 0xFFFFFFFF 0 0x7FF = true := by decide
theorem test_slli : alu 0x01F09193 0 0xFFFFFFFF 0 0x80000000 = true := by decide
theorem test_srli : alu 0x01F0D193 0 0xFFFFFFFF 0 1 = true := by decide
theorem test_srai : alu 0x41F0D193 0 0x80000000 0 0xFFFFFFFF = true := by decide
theorem test_lui : alu 0xFFFFF1B7 0 0 0 0xFFFFF000 = true := by decide
theorem test_auipc : alu 0x80000197 0x80000000 0 0 0 = true := by decide

/-! ## Control transfer in EX (95_test_vectors.md 3.2) -/

/-- Whether EX resolves to a next address, taken or not, and leaves a link in `alu_result`. -/
def goes (w pc a b next : Word) (taken : Bool) (link : Word) : Bool :=
  nextIs (execWord w (inExecute w pc a b)) fun s =>
    s.work.new.EX.nextPc == next && s.work.taken == (if taken then some next else none) &&
      s.work.new.EX.aluResult == link

theorem test_beq : goes 0x00208463 0x10 5 5 0x18 true 0 = true ∧ goes 0x00208463 0x10 5 6 0x14 false 0 = true := by decide
theorem test_bne : goes 0xFE209EE3 0x10 5 6 0x0C true 0 = true ∧ goes 0xFE209EE3 0x10 5 5 0x14 false 0 = true := by decide
theorem test_blt : goes 0x0020C863 0x20 0xFFFFFFFF 0 0x30 true 0 = true ∧
    goes 0x0020C863 0x20 0 0xFFFFFFFF 0x24 false 0 = true := by decide
theorem test_bge : goes 0x0020D863 0x20 5 5 0x30 true 0 = true ∧
    goes 0x0020D863 0x20 0x80000000 0x7FFFFFFF 0x24 false 0 = true := by decide
theorem test_bltu : goes 0x0020E863 0x20 0 0xFFFFFFFF 0x30 true 0 = true ∧
    goes 0x0020E863 0x20 0xFFFFFFFF 0 0x24 false 0 = true := by decide
theorem test_bgeu : goes 0x0020F863 0x20 0xFFFFFFFF 0 0x30 true 0 = true ∧
    goes 0x0020F863 0x20 1 2 0x24 false 0 = true := by decide
theorem test_jal : goes 0x001000EF 0x100 0 0 0x900 true 0x104 = true ∧
    goes 0x0000006F 0x100 0 0 0x100 true 0x104 = true := by decide
theorem test_jalr : goes 0x001280E7 0x100 0x200 0 0x200 true 0x104 = true ∧
    goes 0xFFC280E7 0x100 0x204 0 0x200 true 0x104 = true := by decide

/-- A condition that holds with the target at `pc + 4` is not taken; a taken target off a multiple of 4 is refused; one
not taken is not. -/
theorem test_branch_corners :
    goes 0x00208263 0x10 5 5 0x14 false 0 = true ∧
    execWord 0x00209363 (inExecute 0x00209363 0x10 1 2) = .refused .misalignedTarget ∧
    goes 0x00209363 0x10 1 1 0x14 false 0 = true := ⟨by decide, rfl, by decide⟩
theorem test_jalr_misaligned :
    execWord 0x003280E7 (inExecute 0x003280E7 0x100 0x200 0) = .refused .misalignedTarget := rfl

/-! ## Loads and stores (95_test_vectors.md 3.3) -/

/-- The memory of 3.3. -/
def memory0 : Memory := { size := 0x1000, cells := [(0x100, 0x80), (0x101, 0x7F), (0x102, 0x01), (0x103, 0xFF)] }

/-- A word in MEM with an address and, for a store, its data. -/
def inMemory (w address data : Word) : State :=
  ({ State.reset with memory := memory0 }.setNewMEM
    { decodeLatch w 0 .normal with memAddr := address, op2Val := data }).atStage .memory

/-- Whether MEM loads a value, with one D-cache access. -/
def loads (w address v : Word) : Bool :=
  nextIs (execWord w (inMemory w address 0)) fun s =>
    s.work.new.MEM.memResult == v && s.dc.misses == 1 && s.memory == memory0

/-- Whether MEM stores, leaving four bytes at 0x100. -/
def stores (w address b0 b1 b2 b3 : Word) : Bool :=
  nextIs (execWord w (inMemory w address 0x12345678)) fun s =>
    s.memory.read32 0x100 == b3 <<< 24 ||| b2 <<< 16 ||| b1 <<< 8 ||| b0 && s.memory.wf && s.dc.misses == 1

theorem test_lb : loads 0x00008183 0x100 0xFFFFFF80 = true ∧ loads 0x00108183 0x101 0x7F = true := by decide
theorem test_lbu : loads 0x0000C183 0x100 0x80 = true := by decide
theorem test_lh : loads 0x00009183 0x100 0x7F80 = true ∧ loads 0x00209183 0x102 0xFFFFFF01 = true := by decide
theorem test_lhu : loads 0x0020D183 0x102 0xFF01 = true := by decide
theorem test_lw : loads 0x0000A183 0x100 0xFF017F80 = true := by decide
theorem test_sb : stores 0x00208023 0x100 0x78 0x7F 0x01 0xFF = true ∧
    stores 0x002081A3 0x103 0x80 0x7F 0x01 0x78 = true := by decide
theorem test_sh : stores 0x00209123 0x102 0x80 0x7F 0x78 0x56 = true := by decide
theorem test_sw : stores 0x0020A023 0x100 0x78 0x56 0x34 0x12 = true := by decide

/-- The effective address is computed in EX, modulo 2^32: `lw r3, -4(r1)` with `r1 = 0`. -/
theorem test_effective_address_wraps :
    nextIs (execWord 0xFFC0A183 (inExecute 0xFFC0A183 0 0 0)) (fun s => s.work.new.EX.memAddr == 0xFFFFFFFC) = true := by
  decide

/-- Misaligned accesses are refused; the bound check comes first. -/
theorem test_misaligned :
    execWord 0x00109183 (inMemory 0x00109183 0x101 0) = .refused .misalignedData ∧
    execWord 0x0020A183 (inMemory 0x0020A183 0x102 0) = .refused .misalignedData ∧
    execWord 0x002090A3 (inMemory 0x002090A3 0x101 0) = .refused .misalignedData := ⟨rfl, rfl, rfl⟩
theorem test_out_of_bounds :
    nextIs (execWord 0x0010A183 (inMemory 0x0010A183 0x1001 0))
      (fun s => s.work.memExc && s.work.new.MEM.status == .squashed && s.dc == State.reset.dc) = true ∧
    loads 0xFFF08183 0xFFF 0 = true := by decide

/-! ## HALT, NOP, SYSTEM -/

/-- A word in WB. -/
def inWriteback (w : Word) : State := (State.reset.setNewWB (decodeLatch w 0 .normal)).atStage .writeback

/-- HALT's commit halts, NOP's does not; both count (43_system_halt.md R261, R264). -/
theorem test_halt : nextIs (execWord 0xFEEDFEED (inWriteback 0xFEEDFEED))
    (fun s => s.work.haltNow && s.dynamicInstructions == 1 && s.regs == State.reset.regs) = true := by decide
theorem test_nop : nextIs (execWord 0x00000013 (inWriteback 0x00000013))
    (fun s => !s.work.haltNow && s.dynamicInstructions == 1 && s.regs == State.reset.regs) = true := by decide

/-- A word in ID. -/
def inDecode (w : Word) (st : Status) : State := (State.reset.setNewID (decodeLatch w 0 st)).atStage .decode

theorem test_system_live : execWord 0x00000073 (inDecode 0x00000073 .normal) = .refused .systemInstruction := rfl
theorem test_system_squashed : nextIs (execWord 0x00000073 (inDecode 0x00000073 .squashed))
    (fun s => s.work.new.ID.opcode == .system && s.work.new.ID.status == .squashed) = true := by decide

/-! ## Caches: CV1 of 95_test_vectors.md 3.5, steps 1 to 4 and 7 -/

/-- A cache after the first four accesses of CV1. -/
def cv1 : Cache :=
  let c := Cache.cold { cacheSize := 64, blockSize := 16, ways := 2, missLatency := 0 }
  ((((c.access 0x000 .read).2.access 0x040 .read).2.access 0x004 .read).2.access 0x080 .read).2

theorem test_cache_replaces_the_oldest :
    cv1.setAt 0 = [⟨true, 0, 3⟩, ⟨true, 4, 4⟩] ∧ cv1.hits = 1 ∧ cv1.misses = 3 := by decide
theorem test_cache_invalidate :
    ((cv1.access 0x040 .read).2.invalidate 0x040).setAt 0 = [⟨false, 2, 5⟩, ⟨true, 4, 4⟩] ∧
    ((cv1.access 0x040 .read).2.invalidate 0x040).clock = 5 := by decide

/-! ## Pseudo-instructions (30_encoding.md R153) -/

theorem test_li : (Pseudo.li 5 0x12345FFF#32).expand = [.lui 5 0x12346, .addi 5 5 (-1)] ∧
    (Pseudo.li 5 (-2048)).expand = [.addi 5 0 (-2048)] := by decide

/-! ## One tick of a small pipe -/

/-- The caches of the small pipe. -/
def smallCache : CacheConfig := { cacheSize := 64, blockSize := 16, ways := 2, missLatency := 3 }

/-- A running core with the given latches, and an I-miss or a second stall cycle pending. -/
def pipe (pc : Word) (iMiss lbe : Nat) (fetch id ex mem : Latch) : State :=
  { State.reset with
    pc := pc, memory := memory0, ic := Cache.cold smallCache, dc := Cache.cold smallCache
    iMissRemaining := iMiss, loadBranchExtra := lbe
    latches := { IF := fetch, ID := id, EX := ex, MEM := mem, WB := bubbleLatch } }

/-- The latches of the small pipe, at the addresses 0x1C, 0x18, 0x14 and 0x10. -/
def inFetch (w : Word) : Latch := decodeLatch w 0x1C .normal
def inId (w a b : Word) : Latch := { decodeLatch w 0x18 .normal with op1Val := a, op2Val := b }
def inEx (w address v : Word) : Latch := { decodeLatch w 0x14 .normal with memAddr := address, aluResult := v }
def inMem (w v : Word) : Latch := { decodeLatch w 0x10 .normal with aluResult := v, memResult := v }

/-- The small pipe has the invariant when its latches are good. -/
theorem pipe_inv {pc : Word} {iMiss lbe : Nat} {fetch id ex mem : Latch} (hp : pc.toNat % 4 = 0) (hi : iMiss ≤ 3) (hl : lbe ≤ 1) (hf : fetch.GoodFetch)
    (hin : fetch.pc.toNat + 4 ≤ 0x1000) (h1 : id.Good) (h2 : ex.Good) (h3 : mem.Good) :
    (pipe pc iMiss lbe fetch id ex mem).Inv :=
  { memory := ⟨show memory0.wf = true by decide, show memorySizeValid 0x1000 = true by decide⟩
    zeroRegister := rfl
    pcAligned := hp
    fetch := hf, decode := h1, execute := h2, access := h3
    writeback := Latch.good_bubbleLatch
    icache := Cache.good_cold (by decide), dcache := Cache.good_cold (by decide)
    stalls := ⟨hl, hi, Nat.zero_le _⟩
    commits := Nat.le_refl 0
    snapshots := ⟨rfl, trivial⟩
    fetchedInside := fun _ => hin
    stopped := fun h => by cases h
    resting := rfl }

/-- A word may stand live outside IF: an instruction that is not SYSTEM. -/
def mayRun (w : Word) : Bool :=
  match decodeWord w with
  | .instr i => i.opClass != .system
  | _ => false

theorem good_of_mayRun {w : Word} (h : mayRun w = true) (pc : Word) : (decodeLatch w pc .normal).Good := by
  refine ⟨by simp, by simp, fun _ => ?_⟩
  unfold mayRun at h
  split at h
  · rename_i i hi
    rw [decodeLatch_instr hi]
    exact ⟨rfl, by simp, by simpa using h⟩
  · cases h

/-- The small pipe of four words, all live, has the invariant. -/
theorem words_inv {pc : Word} {iMiss lbe : Nat} {f d a b e address v m u : Word} (hp : pc.toNat % 4 = 0) (hi : iMiss ≤ 3) (hl : lbe ≤ 1)
    (h : (mayRun d && mayRun e && mayRun m) = true) :
    (pipe pc iMiss lbe (inFetch f) (inId d a b) (inEx e address v) (inMem m u)).Inv := by
  simp only [Bool.and_eq_true] at h
  refine pipe_inv hp hi hl ⟨by simp [inFetch], .inl (by simp [inFetch]), by simp [inFetch]⟩ (by simp [inFetch]) ?_ ?_ ?_
  · exact (good_of_mayRun h.1.1 0x18).of_decoded rfl
  · exact (good_of_mayRun h.1.2 0x14).of_decoded rfl
  · exact (good_of_mayRun h.2 0x10).of_decoded rfl

/-- Whether an outcome is a next state. -/
def isNext (o : Result) : Bool := nextIs o fun _ => true

theorem next_of_isNext {o : Result} (h : isNext o = true) : ∃ s, o = .next s := by
  cases o with
  | next s => exact ⟨s, rfl⟩
  | fault r => cases r
  | refused r => cases h

/-! ## Witnesses: the states of the statements about a tick

Each state has the invariant and no D-miss pending, and its tick completes: the hypotheses that TickCompletes…,
WritebackCommits…, MemoryStep…, ExecuteStep…, DecodeStep…, FetchStep…, ProgramCounter…, HazardTable…, HazardStall…,
Mode…, EveryTick…, NoTick…, TrapEntry, MemoryExceptionIsPrecise, AnnotationAfterATick and EveryStepKeeps… share. The
last part of each theorem names the clause it is in. -/

/-- The hypotheses that the statements about a non-freeze tick share. -/
def Ticks (s : State) : Prop :=
  s.Inv ∧ s.mode = .running ∧ s.finalized = false ∧ s.dMissRemaining = 0 ∧ ∃ s', step s = .next s'

/-- `add r3, r1, r2` in ID, `addi` in EX, a NORMAL `addi r1` in MEM that commits, `addi` in IF. -/
def plain : State := pipe 0x20 0 0 (inFetch 0x00500093) (inId 0x002081B3 1 2) (inEx 0x00700113 0 7) (inMem 0x00500093 5)
/-- A load at the first address outside memory. -/
def outOfBounds : State := pipe 0x20 0 0 (inFetch 0x00500093) (inId 0x002081B3 1 2) (inEx 0x0000A103 0x1000 0) (inMem 0x00500093 5)
/-- A load of the last word of memory. -/
def lastWord : State := pipe 0x20 0 0 (inFetch 0x00500093) (inId 0x00500093 1 2) (inEx 0x0000A103 0xFFC 0) (inMem 0x00500093 5)
/-- `sw r2, 4(r1)` whose data the load in MEM forwards. -/
def storing : State := pipe 0x20 0 0 (inFetch 0x00500093) (inId 0x002081B3 1 2) (inEx 0x0020A223 0x104 0) (inMem 0x0000A103 9)
/-- An illegal word in IF. -/
def illegalWord : State := pipe 0x20 0 0 (inFetch 0xFFFFFFFF) (inId 0x00500093 0 0) (inEx 0x00700113 0 7) (inMem 0x00500093 5)
/-- `add r3, r2, r2` behind `lw r2`. -/
def loadUse (iMiss : Nat) : State :=
  pipe 0x20 iMiss 0 (inFetch 0x00500093) (inId 0x002101B3 0 0) (inEx 0x0000A103 0x100 0) (inMem 0x00500093 5)
/-- `beq r2, r0, 8` behind `lw r2`. -/
def loadBranch : State := pipe 0x20 0 0 (inFetch 0x00500093) (inId 0x00010463 0 0) (inEx 0x0000A103 0x100 0) (inMem 0x00500093 5)
/-- `beq r1, r0, 8` behind `addi r1`. -/
def arithBranch : State := pipe 0x20 0 0 (inFetch 0x00500093) (inId 0x00008463 0 0) (inEx 0x00500093 0 5) (inMem 0x00500093 5)
/-- The second cycle of a load-branch stall. -/
def secondStall : State := pipe 0x20 0 1 (inFetch 0x00500093) (inId 0x00010463 0 0) (inEx 0x00700113 0 7) (inMem 0x0000A103 9)
/-- `jal r0, 8` in ID: taken. -/
def takenJump (iMiss : Nat) : State :=
  pipe 0x20 iMiss 0 (inFetch 0x00500093) (inId 0x0080006F 0 0) (inEx 0x00700113 0 7) (inMem 0x00500093 5)
/-- An I-miss pending. -/
def waiting : State := pipe 0x20 3 0 (inFetch 0x00500093) (inId 0x00500093 0 0) (inEx 0x00700113 0 7) (inMem 0x00500093 5)
/-- A halt in MEM. -/
def halting (w : Word) : State := pipe 0x20 0 0 (inFetch w) (inId 0x00000013 0 0) (inEx 0x00000013 0 0) (inMem 0xFEEDFEED 0)
/-- A bubble in ID and a NORMAL instruction before it. -/
def bubbleInId : State := pipe 0x20 0 0 (inFetch 0x00500093) bubbleLatch (inEx 0x00700113 0 7) (inMem 0x00500093 5)
/-- A squashed word in IF. -/
def squashedFetch : State :=
  pipe 0x20 0 0 (inFetch 0x00500093).squash (inId 0x00500093 0 0) (inEx 0x00700113 0 7) (inMem 0x00500093 5)

theorem ticks_of {s : State} (h : s.Inv) (hm : s.mode = .running) (hf : s.finalized = false) (hd : s.dMissRemaining = 0)
    (hn : isNext (step s) = true) : Ticks s := ⟨h, hm, hf, hd, next_of_isNext hn⟩

theorem witness_tick_plain : Ticks plain ∧ plain.accesses = false ∧ plain.stalls = false ∧ plain.latches.ID.live = true ∧
    plain.iMissRemaining = 0 ∧ plain.takes = false ∧ plain.raises = false ∧ plain.fetches = true ∧
    plain.halts = false ∧ plain.latches.MEM.status = .normal ∧ plain.latches.MEM.writesRd = true ∧
    plain.latches.MEM.rd ≠ 0 ∧ plain.pc.toNat + 4 ≤ plain.memory.size :=
  ⟨ticks_of (words_inv (by decide) (by decide) (by decide) (by decide)) rfl rfl rfl (by decide), by decide⟩

/-- MemoryStep…, TrapEntry, MemoryExceptionIsPrecise, AnnotationAfterATick. -/
theorem witness_tick_out_of_bounds : Ticks outOfBounds ∧ outOfBounds.memRaises = true ∧ outOfBounds.raises = true ∧
    outOfBounds.illegalRaises = false ∧ outOfBounds.halts = false :=
  ⟨ticks_of (words_inv (by decide) (by decide) (by decide) (by decide)) rfl rfl rfl (by decide), by decide⟩

theorem witness_tick_load : Ticks lastWord ∧ lastWord.accesses = true ∧ lastWord.memRaises = false ∧
    lastWord.raises = false ∧ lastWord.latches.EX.readsMem = true :=
  ⟨ticks_of (words_inv (by decide) (by decide) (by decide) (by decide)) rfl rfl rfl (by decide), by decide⟩

/-- MemoryStep…, and every condition of StoreDataForwarding. -/
theorem witness_tick_store : Ticks storing ∧ storing.accesses = true ∧ storing.memRaises = false ∧
    storing.latches.EX.writesMem = true ∧ storeDataForward storing.latches.EX storing.latches.MEM ≠ storing.latches.EX :=
  ⟨ticks_of (words_inv (by decide) (by decide) (by decide) (by decide)) rfl rfl rfl (by decide), by decide⟩

theorem witness_tick_illegal : Ticks illegalWord ∧ illegalWord.raises = true ∧ illegalWord.memRaises = false ∧
    illegalWord.illegalRaises = true ∧ illegalWord.halts = false :=
  ⟨ticks_of (words_inv (by decide) (by decide) (by decide) (by decide)) rfl rfl rfl (by decide), by decide⟩

theorem witness_tick_load_use : Ticks (loadUse 0) ∧ (loadUse 0).stalls = true ∧ (loadUse 0).raises = false ∧
    (loadUse 0).loadBranchExtra = 0 ∧ loadUseHazard (loadUse 0).latches.ID (loadUse 0).latches.EX = true ∧
    Ticks (loadUse 2) ∧ (loadUse 2).stalls = true ∧ (loadUse 2).iMissRemaining = 2 :=
  ⟨ticks_of (words_inv (by decide) (by decide) (by decide) (by decide)) rfl rfl rfl (by decide), by decide, by decide, rfl,
    by decide, ticks_of (words_inv (by decide) (by decide) (by decide) (by decide)) rfl rfl rfl (by decide), by decide, rfl⟩

theorem witness_tick_load_branch : Ticks loadBranch ∧ loadBranch.stalls = true ∧ loadBranch.raises = false ∧
    loadBranch.loadBranchExtra = 0 ∧ loadBranchHazard loadBranch.latches.ID loadBranch.latches.EX = true :=
  ⟨ticks_of (words_inv (by decide) (by decide) (by decide) (by decide)) rfl rfl rfl (by decide), by decide⟩

theorem witness_tick_arith_branch : Ticks arithBranch ∧ arithBranch.stalls = true ∧ arithBranch.loadBranchExtra = 0 ∧
    arithBranchHazard arithBranch.latches.ID arithBranch.latches.EX = true :=
  ⟨ticks_of (words_inv (by decide) (by decide) (by decide) (by decide)) rfl rfl rfl (by decide), by decide⟩

theorem witness_tick_second_stall : Ticks secondStall ∧ 0 < secondStall.loadBranchExtra ∧ secondStall.stalls = true :=
  ⟨ticks_of (words_inv (by decide) (by decide) (by decide) (by decide)) rfl rfl rfl (by decide), by decide⟩

theorem witness_tick_taken : Ticks (takenJump 0) ∧ (takenJump 0).takes = true ∧ (takenJump 0).raises = false ∧
    (takenJump 0).stalls = false ∧ Ticks (takenJump 1) ∧ (takenJump 1).takes = true ∧
    0 < (takenJump 1).iMissRemaining :=
  ⟨ticks_of (words_inv (by decide) (by decide) (by decide) (by decide)) rfl rfl rfl (by decide), by decide, by decide,
    by decide, ticks_of (words_inv (by decide) (by decide) (by decide) (by decide)) rfl rfl rfl (by decide), by decide,
    by decide⟩

theorem witness_tick_waiting : Ticks waiting ∧ 0 < waiting.iMissRemaining ∧ waiting.takes = false ∧ waiting.raises = false :=
  ⟨ticks_of (words_inv (by decide) (by decide) (by decide) (by decide)) rfl rfl rfl (by decide), by decide⟩

/-- Mode…, AnnotationAfterATick: a halt alone, and a halt with an exception. -/
theorem witness_tick_halt : Ticks (halting 0x00000013) ∧ (halting 0x00000013).halts = true ∧
    (halting 0x00000013).raises = false ∧ Ticks (halting 0xFFFFFFFF) ∧ (halting 0xFFFFFFFF).halts = true ∧
    (halting 0xFFFFFFFF).raises = true :=
  ⟨ticks_of (words_inv (by decide) (by decide) (by decide) (by decide)) rfl rfl rfl (by decide), by decide, by decide,
    ticks_of (words_inv (by decide) (by decide) (by decide) (by decide)) rfl rfl rfl (by decide), by decide, by decide⟩

/-- ExecuteStep…: a latch that is not live. DecodeStep…: a squashed word. -/
theorem witness_tick_not_live : Ticks bubbleInId ∧ bubbleInId.latches.ID.live = false ∧ bubbleInId.stalls = false ∧
    Ticks squashedFetch ∧ squashedFetch.latches.IF.status = .squashed := by
  have i1 : bubbleInId.Inv := pipe_inv (by decide) (by decide) (by decide)
    ⟨by simp [inFetch], .inl (by simp [inFetch]), by simp [inFetch]⟩ (by simp [inFetch]) Latch.good_bubbleLatch
    ((good_of_mayRun (by decide) 0x14).of_decoded (m := decodeLatch 0x00700113 0x14 .normal) rfl)
    ((good_of_mayRun (by decide) 0x10).of_decoded (m := decodeLatch 0x00500093 0x10 .normal) rfl)
  have i2 : squashedFetch.Inv := pipe_inv (by decide) (by decide) (by decide)
    ⟨(Latch.good_squash (by simp [inFetch])).coherent, .inr (.inr (by simp)), by simp [inFetch]⟩ (by simp [inFetch])
    ((good_of_mayRun (by decide) 0x18).of_decoded (m := decodeLatch 0x00500093 0x18 .normal) rfl)
    ((good_of_mayRun (by decide) 0x14).of_decoded (m := decodeLatch 0x00700113 0x14 .normal) rfl)
    ((good_of_mayRun (by decide) 0x10).of_decoded (m := decodeLatch 0x00500093 0x10 .normal) rfl)
  exact ⟨ticks_of i1 rfl rfl rfl (by decide), by decide, by decide, ticks_of i2 rfl rfl rfl (by decide), by decide⟩

/-- The WB, MEM, EX and ID work of a non-freeze tick. -/
def stages (s : State) : Result :=
  andThen (wbStage (beginTick s)) fun s1 => andThen (memStage (hazardStage s1)) fun s2 => andThen (exStage s2) idStage

/-- The state of a next outcome that has a property. -/
theorem next_of_nextIs {o : Result} {p : State → Bool} (h : nextIs o p = true) : ∃ s, o = .next s ∧ p s = true := by
  cases o with
  | next s => exact ⟨s, rfl, h⟩
  | fault r => cases r
  | refused r => cases h

/-- The intermediate states of a tick's stages. -/
theorem stages_next {s : State} {p : State → Bool} (h : nextIs (stages s) p = true) :
    ∃ s1 s2 s3 s4, wbStage (beginTick s) = .next s1 ∧ memStage (hazardStage s1) = .next s2 ∧ exStage s2 = .next s3 ∧
      idStage s3 = .next s4 ∧ p s4 = true := by
  obtain ⟨s4, h4, hp⟩ := next_of_nextIs h
  unfold stages at h4
  obtain ⟨s1, h1, h4⟩ := andThen_eq_next.mp h4
  obtain ⟨s2, h2, h4⟩ := andThen_eq_next.mp h4
  obtain ⟨s3, h3, h4⟩ := andThen_eq_next.mp h4
  exact ⟨s1, s2, s3, s4, h1, h2, h3, h4, hp⟩

/-- ExceptionTickIsTheLast: the stages of a tick that raises each of the two exceptions. -/
theorem witness_exception_stages :
    (∃ s1 s2 s3 s4, wbStage (beginTick outOfBounds) = .next s1 ∧ memStage (hazardStage s1) = .next s2 ∧
      exStage s2 = .next s3 ∧ idStage s3 = .next s4 ∧ (s4.work.exc && s4.work.memExc) = true) ∧
    (∃ s1 s2 s3 s4, wbStage (beginTick illegalWord) = .next s1 ∧ memStage (hazardStage s1) = .next s2 ∧
      exStage s2 = .next s3 ∧ idStage s3 = .next s4 ∧ (s4.work.exc && s4.work.illegal) = true) :=
  ⟨stages_next (by decide), stages_next (by decide)⟩

/-! ### The refused ticks (TickCompletesUnlessRefused), each with its invariant -/

/-- A load at an address inside memory that is no multiple of 4. -/
def misalignedLoad : State := pipe 0x20 0 0 (inFetch 0x00500093) (inId 0x002081B3 1 2) (inEx 0x0000A103 0xFFE 0) (inMem 0x00500093 5)
/-- `jal r0, 6` in ID. -/
def misalignedJump : State := pipe 0x20 0 0 (inFetch 0x00500093) (inId 0x0060006F 0 0) (inEx 0x00700113 0 7) (inMem 0x00500093 5)
/-- A word in IF, and the fetch address. -/
def fetching (pc w : Word) : State := pipe pc 0 0 (inFetch w) (inId 0x00500093 0 0) (inEx 0x00700113 0 7) (inMem 0x00500093 5)

theorem witness_refused_data : misalignedLoad.Inv ∧ misalignedLoad.accesses = true ∧ misalignedLoad.memRaises = false ∧
    misalignedLoad.latches.EX.memAddr.toNat % accessWidth misalignedLoad.latches.EX.kind ≠ 0 ∧
    misalignedLoad.dMissRemaining = 0 :=
  ⟨words_inv (by decide) (by decide) (by decide) (by decide), by decide⟩

theorem witness_refused_target : misalignedJump.Inv ∧ misalignedJump.takes = true ∧
    (resolve misalignedJump.forwarded).toNat % 4 ≠ 0 ∧ misalignedJump.accesses = false :=
  ⟨words_inv (by decide) (by decide) (by decide) (by decide), by decide⟩

/-- MUL's word, and ECALL's. -/
theorem witness_refused_decode :
    (fetching 0x20 0x022081B3).Inv ∧ (fetching 0x20 0x022081B3).decodesLive = true ∧
    decodeWord 0x022081B3#32 = .reserved .op ∧
    (fetching 0x20 0x00000073).Inv ∧ (fetching 0x20 0x00000073).decodesLive = true ∧
    decodeWord 0x00000073#32 = .instr (.system 0 0 0 0) ∧ (fetching 0x20 0x00000073).takes = false :=
  ⟨words_inv (by decide) (by decide) (by decide) (by decide), by decide, by decide,
    words_inv (by decide) (by decide) (by decide) (by decide), by decide, by decide, by decide⟩

/-- The first fetch address outside memory, and the last inside. -/
theorem witness_refused_fetch :
    (fetching 0x1000 0x00500093).Inv ∧ (fetching 0x1000 0x00500093).fetches = true ∧
    (fetching 0x1000 0x00500093).memory.size < (0x1000 : Word).toNat + 4 ∧
    Ticks (fetching 0xFFC 0x00500093) ∧ (fetching 0xFFC 0x00500093).fetches = true :=
  ⟨words_inv (by decide) (by decide) (by decide) (by decide), by decide, by decide,
    ticks_of (words_inv (by decide) (by decide) (by decide) (by decide)) rfl rfl rfl (by decide), by decide⟩

/-! ### Freeze ticks (FreezeTicks…, ProgramCounter…, HazardStall…, AnnotationAfterATick) -/

/-- A D-miss of 3 ticks pending. -/
def frozen : State := { lastWord with dMissRemaining := 3 }

theorem witness_freeze : frozen.Inv ∧ frozen.mode = .running ∧ frozen.finalized = false ∧ frozen.dMissRemaining = 3 ∧
    0 < frozen.dMissRemaining ∧ ∃ s', step frozen = .next s' := by
  have h : lastWord.Inv := words_inv (by decide) (by decide) (by decide) (by decide)
  exact ⟨{ h with stalls := ⟨h.stalls.1, h.stalls.2.1, by decide⟩, stopped := fun he => by cases he }, rfl, rfl, rfl, by decide, next_of_isNext (by decide)⟩

/-! ### A step runs the decoded instructions -/

theorem witness_step_runs :
    plain.mode = .running ∧ plain.finalized = false ∧ plain.dMissRemaining = 0 ∧
    plain.latches.MEM.live = true ∧ plain.latches.MEM.kind = .instr (.addi 1 0 5) ∧
    plain.latches.EX.live = true ∧ plain.latches.EX.kind = .instr (.addi 2 0 7) ∧
    plain.work.stall = false ∧ plain.latches.ID.live = true ∧ plain.latches.ID.kind = .instr (.add 3 1 2) ∧
    plain.iMissRemaining = 0 ∧ decodeWord plain.latches.IF.raw = .instr (.addi 1 0 5) := by decide

/-- FetchWordIsPlaced: at the reset state, and with the fetched word the last of memory. -/
theorem witness_fetch_word :
    State.reset.memory.wf = true ∧ State.reset.latches.IF.pc.toNat + 4 ≤ State.reset.memory.size ∧
    isNext (step (State.reset.withFetchWord 32 0x002081B3)) = true := by decide

/-! ## Witnesses: encoding

`test_decode_…` and `test_wellFormed_accepts` are the witnesses of DecodeOfEncode…, EncodeOfDecode…, RegisterRegister…,
RegisterImmediate… and UpperImmediate…, whose hypotheses are that a word decodes to an instruction, or that it is
well formed. -/

/-- IllegalAndReservedWords: a compressed-looking word, and a word of each kind. -/
theorem witness_illegal_words : (0x00000001#32 : Word) ≠ 0xFEEDFEED#32 ∧ (0x00000001#32 : Word).extractLsb' 0 2 ≠ 0b11#2 ∧
    decodeWord 0x00000001#32 = .illegal := by decide

/-- ImmediatesOfEveryFormat: a word of each class, and of both kinds of OP_IMM. -/
theorem witness_immediates :
    decodeWord 0x80008193#32 = .instr (.addi 3 1 (-2048)) ∧ (Instr.addi 3 1 (-2048)).opClass = .opImm ∧
    ¬ (funct3Of 0x80008193#32 = 0b001#3 ∨ funct3Of 0x80008193#32 = 0b101#3) ∧
    decodeWord 0x41F0D193#32 = .instr (.srai 3 1 31) ∧ (Instr.srai 3 1 31).opClass = .opImm ∧
    funct3Of 0x41F0D193#32 = 0b101#3 ∧ (decodeLatch 0x41F0D193#32 0 .normal).imm = 31 ∧
    (Instr.sw 2 1 (-4)).opClass = .store ∧ (decodeLatch 0xFE20AE23#32 0 .normal).imm = 0xFFFFFFFC#32 ∧
    (Instr.beq 0 0 (-4096)).opClass = .branch ∧ (decodeLatch 0x80000063#32 0 .normal).imm = 0xFFFFF000#32 ∧
    (Instr.lui 3 0xFFFFF).opClass = .lui ∧ (decodeLatch 0xFFFFF1B7#32 0 .normal).imm = 0xFFFFF000#32 ∧
    (Instr.jal 1 2048).opClass = .jal ∧ (decodeLatch 0x001000EF#32 0 .normal).imm = 2048 ∧
    (Instr.add 3 1 2).opClass = .op ∧ (decodeLatch 0x002081B3#32 0 .normal).imm = 0 ∧
    (Instr.system 0xFFF 0 0 0).opClass = .system ∧ decodeWord 0xFFF00073#32 = .instr (.system 0xFFF 0 0 0) ∧
    (decodeLatch 0xFFF00073#32 0 .normal).imm = 0xFFFFFFFF#32 ∧ (decodeLatch 0x30200073#32 0 .normal).imm = 0x302 ∧
    decodeWord 0xFFFFFFFF#32 = .illegal := by decide

/-- LoadImmediate…: both forms of `li`, and register 0. -/
theorem witness_li : (5 : Reg) ≠ 0 ∧ (Pseudo.li 5 0x7FF#32).expand = [.addi 5 0 0x7FF] ∧
    (Pseudo.li 5 0x800#32).expand = [.lui 5 1, .addi 5 5 (-2048)] ∧
    (Pseudo.li 0 0).expand = [.addi 0 0 0] := by decide

/-! ## Witnesses: one instruction alone -/

/-- A state at `pc` 0x100 with `x1`, `x2` and memory. -/
def alone0 (a b : Word) : State := ({ State.reset with pc := 0x100, memory := memory0 }.writeReg 1 a).writeReg 2 b

/-- Whether an instruction alone completes in a state that a test accepts. -/
def aloneIs (w : Word) (s : State) (p : State → Bool) : Bool :=
  match decodeWord w with
  | .instr i => nextIs (runAlone i w s) p
  | _ => false

/-- JumpsLink…: taken to a multiple of 4; to the next instruction; each decodes. -/
theorem witness_jumps :
    decodeWord 0x001000EF#32 = .instr (.jal 1 2048) ∧
    (BitVec.ofInt 32 (((alone0 0 0).pc.toNat : Int) + (2048#21).toInt)).toNat % 4 = 0 ∧
    decodeWord 0x0040006F#32 = .instr (.jal 0 4) ∧
    BitVec.ofInt 32 (((alone0 0 0).pc.toNat : Int) + (4#21).toInt) = (alone0 0 0).pc + 4 ∧
    decodeWord 0x001080E7#32 = .instr (.jalr 1 1 1) ∧
    (BitVec.ofNat 32 ((BitVec.ofInt 32 ((((alone0 0x200 0).readReg 1).toNat : Int) + (1#12).toInt)).toNat / 2 * 2)).toNat
      % 4 = 0 ∧
    aloneIs 0x001080E7 (alone0 0x200 0)
      (fun s => s.readReg 1 == 0x104 && s.work.taken == some 0x200) = true := by decide

/-- BranchesRedirect…: holding and failing, for each branch; the target a multiple of 4, or the next instruction. -/
theorem witness_branches :
    decodeWord 0x00208463#32 = .instr (.beq 1 2 8) ∧ (alone0 5 5).readReg 1 = (alone0 5 5).readReg 2 ∧
    (BitVec.ofInt 32 (((alone0 5 5).pc.toNat : Int) + (8#13).toInt)).toNat % 4 = 0 ∧
    BitVec.ofInt 32 (((alone0 5 5).pc.toNat : Int) + (4#13).toInt) = (alone0 5 5).pc + 4 ∧
    (alone0 5 6).readReg 1 ≠ (alone0 5 6).readReg 2 ∧
    ((alone0 0xFFFFFFFF 0).readReg 1).toInt < ((alone0 0xFFFFFFFF 0).readReg 2).toInt ∧
    ((alone0 0x80000000 0x7FFFFFFF).readReg 1).toInt < ((alone0 0x80000000 0x7FFFFFFF).readReg 2).toInt ∧
    ((alone0 5 5).readReg 2).toInt ≤ ((alone0 5 5).readReg 1).toInt ∧
    ((alone0 0 0xFFFFFFFF).readReg 1).toNat < ((alone0 0 0xFFFFFFFF).readReg 2).toNat ∧
    aloneIs 0x00208463 (alone0 5 5) (fun s => s.work.taken == some 0x108 && s.regs == (alone0 5 5).regs) = true ∧
    aloneIs 0x00208463 (alone0 5 6) (fun s => s.work.taken == none) = true := by decide

/-- ControlResolution…: the three clauses. -/
theorem witness_control_resolution :
    (inExecute 0x00209363 0x10 1 2).work.stage = .execute ∧
    (inExecute 0x00209363 0x10 1 2).work.new.EX.kind = .instr (.bne 1 2 6) ∧ (Instr.bne 1 2 6).opClass = .branch ∧
    (inExecute 0x00209363 0x10 1 2).work.memExc = false ∧
    resolve (inExecute 0x00209363 0x10 1 2).work.new.EX = 0x16 ∧
    resolve (inExecute 0x00209363 0x10 1 1).work.new.EX = 0x14 ∧
    resolve (inExecute 0x001000EF 0x100 0 0).work.new.EX = 0x900 ∧
    nextIs (execWord 0x00209363 (raiseMemoryException (inExecute 0x00209363 0x10 1 2)))
      (fun s => s.work.new.EX.nextPc == 0x14 && s.work.taken == none) = true := by decide

/-- LoadsReadExtend…: the last byte, halfword and word of memory, and a sign-extended load. -/
theorem witness_loads :
    decodeWord 0xFFF08183#32 = .instr (.lb 3 1 (-1)) ∧
    (BitVec.ofInt 32 ((((alone0 0x1000 0).readReg 1).toNat : Int) + (-1 : BitVec 12).toInt)).toNat = 0xFFF ∧
    0xFFF < (alone0 0x1000 0).memory.size ∧ 0xFFE % 2 = 0 ∧ 0xFFC % 4 = 0 ∧
    aloneIs 0x00008183 (alone0 0x100 0) (fun s => s.readReg 3 == 0xFFFFFF80 && s.dc.misses == 1) = true ∧
    aloneIs 0x00209183 (alone0 0x100 0) (fun s => s.readReg 3 == 0xFFFFFF01) = true ∧
    aloneIs 0x0000A183 (alone0 0x100 0) (fun s => s.readReg 3 == 0xFF017F80) = true ∧
    aloneIs 0x0000C183 (alone0 0x100 0) (fun s => s.readReg 3 == 0x80) = true ∧
    aloneIs 0x0020D183 (alone0 0x100 0) (fun s => s.readReg 3 == 0xFF01) = true ∧
    aloneIs 0xFFC0A183 (alone0 0x1000 0) (fun s => s.readReg 3 == 0) = true := by decide

/-- StoresWrite…: the last byte, halfword and word of memory. -/
theorem witness_stores :
    (alone0 0x1000 0).memory.wf = true ∧ memorySizeValid (alone0 0x1000 0).memory.size = true ∧
    decodeWord 0xFE208FA3#32 = .instr (.sb 2 1 (-1)) ∧ decodeWord 0xFE209F23#32 = .instr (.sh 2 1 (-2)) ∧
    decodeWord 0xFE20AE23#32 = .instr (.sw 2 1 (-4)) ∧
    aloneIs 0xFE208FA3 (alone0 0x1000 0x12345678) (fun s => s.memory.read8 0xFFF == 0x78) = true ∧
    aloneIs 0xFE209F23 (alone0 0x1000 0x12345678) (fun s => s.memory.read16 0xFFE == 0x5678) = true ∧
    aloneIs 0xFE20AE23 (alone0 0x1000 0x12345678) (fun s => s.memory.read32 0xFFC == 0x12345678) = true := by decide

/-- MemoryChecks…: the first address outside, the last aligned one, and the one after it. -/
theorem witness_memory_checks :
    (inMemory 0x0000A183 0x1000 0).work.stage = .memory ∧ (Instr.lw 3 1 0).opClass = .load ∧
    (inMemory 0x0000A183 0x1000 0).memory.size ≤ (inMemory 0x0000A183 0x1000 0).work.new.MEM.memAddr.toNat ∧
    (inMemory 0x0000A183 0xFFC 0).work.new.MEM.memAddr.toNat < 0x1000 ∧ 0xFFC % accessWidth (.instr (.lw 3 1 0)) = 0 ∧
    0xFFD % accessWidth (.instr (.lw 3 1 0)) ≠ 0 ∧
    isNext (execWord 0x0000A183 (inMemory 0x0000A183 0xFFC 0)) = true := by decide

/-- SystemIsRefused…: `test_system_live` and `test_system_squashed`, and that their states are as it says. -/
theorem witness_system : opcodeOf 0x00000073#32 = 0x73#7 ∧ decodeWord 0x00000073#32 = .instr (.system 0 0 0 0) ∧
    (inDecode 0x00000073 .normal).work.stage = .decode ∧ (inDecode 0x00000073 .normal).work.new.ID.raw = 0x00000073#32 ∧
    (inDecode 0x00000073 .normal).work.new.ID.status = .normal ∧
    (inDecode 0x00000073 .squashed).work.new.ID.status ≠ .normal := by decide

/-- ExecuteChangesOnlyItsLatch. -/
theorem witness_execute : (inExecute 0x002081B3 0 1 2).work.stage = .execute ∧
    isNext (exec (.add 3 1 2) (inExecute 0x002081B3 0 1 2)) = true := by decide

/-! ## Witnesses: caches, memory, registers -/

theorem good_cv1 : cv1.Good :=
  Cache.good_access (Cache.good_access (Cache.good_access (Cache.good_access (Cache.good_cold (by decide)) _ _) _ _) _ _) _ _

/-- CacheHit. -/
theorem witness_cache_hit : cv1.Good ∧ cv1.config.degenerate = false ∧
    (cv1.setAt (cv1.config.indexOf 0x004))[0]? = some ⟨true, 0, 3⟩ ∧ (0 : BitVec 64) = cv1.config.tagOf 0x004 ∧
    (cv1.access 0x004 .read).1 = .hit :=
  ⟨good_cv1, by decide⟩

/-- InvalidatedMisses…: a way that matches loses its valid bit alone (R104); and a good cache that has no sets. -/
theorem witness_cache_invalidate : (cv1.invalidate 0x004).setAt 0 = [⟨false, 0, 3⟩, ⟨true, 4, 4⟩] ∧
    (Cache.cold { cacheSize := 16, blockSize := 16, ways := 2, missLatency := 0 }).Good :=
  ⟨by decide, Cache.good_cold (by decide)⟩

/-- CacheMiss: with every way valid, and with an invalid way. -/
theorem witness_cache_miss : cv1.Good ∧ cv1.config.degenerate = false ∧
    (∀ way ∈ cv1.setAt (cv1.config.indexOf 0x040), way.valid = true → way.tag ≠ cv1.config.tagOf 0x040) ∧
    (∀ way ∈ cv1.setAt (cv1.config.indexOf 0x010), way.valid = true → way.tag ≠ cv1.config.tagOf 0x010) ∧
    ((cv1.access 0x040 .read).2.setAt 0) = [⟨true, 2, 5⟩, ⟨true, 4, 4⟩] :=
  ⟨good_cv1, by decide⟩

/-- DegenerateCache…: CV4's, and one with no ways. -/
theorem witness_degenerate : (16 : Nat) / 16 / 2 = 0 ∧
    (Cache.cold { cacheSize := 16, blockSize := 16, ways := 2, missLatency := 0 }).access 0 .read =
      (.miss, Cache.cold { cacheSize := 16, blockSize := 16, ways := 2, missLatency := 0 }) ∧
    ((Cache.cold { cacheSize := 64, blockSize := 16, ways := 0, missLatency := 0 }).access 0 .read).1 = .miss := by decide

/-- MemoryIsLittleEndian at the end of memory, and CanonicalMemories…. -/
theorem witness_memory : memory0.wf = true ∧ 0xFFC + 4 ≤ memory0.size ∧ (memory0.write 0xFFC 4 0x12345678).wf = true ∧
    memory0.write 0x103 1 0 = { size := 0x1000, cells := [(0x100, 0x80), (0x101, 0x7F), (0x102, 0x01)] } ∧
    memory0.read32 0x100 = 0xFF017F80 := by decide

/-- RegisterZeroIsHardwired: two registers, one of them not 0. -/
theorem witness_registers : (31 : Reg) ≠ 0 ∧ (1 : Reg) ≠ 31 ∧ ((State.reset.writeReg 31 7).readReg 31) = 7 ∧
    ((State.reset.writeReg 0 7).readReg 0) = 0 := by decide

/-! ## Witnesses: the host's operations, and sequential execution -/

/-- `halt` and four NOPs (43_system_halt.md R263), then zeros: a memory of 32 bytes. -/
def haltImage : List Byte :=
  [0xED, 0xFE, 0xED, 0xFE, 0x13, 0, 0, 0, 0x13, 0, 0, 0, 0x13, 0, 0, 0, 0x13, 0, 0, 0] ++ List.replicate 12 0

/-- The core of `haltImage`. -/
def halt0 : State :=
  match init Config.resetCache Config.resetCache 32 haltImage with
  | .next s => s
  | _ => State.reset

theorem halt0_eq : init Config.resetCache Config.resetCache 32 haltImage = .next halt0 := rfl

/-- InitGives…, InitEstablishes…, InitLoads…: admitted arguments, at both ends of the sizes' range. -/
theorem witness_init : Config.resetCache.valid = true ∧ memorySizeValid 32 = true ∧ haltImage.length = 32 ∧
    memorySizeValid 4 = true ∧ memorySizeValid (2 ^ 32) = true ∧ halt0.memory.byteAt 8 = 0x13 ∧
    haltImage[8]? = some 0x13 ∧ halt0.ic.config.degenerate = false := by decide

/-- InitGives…: an I-cache that has no sets (20_memory.md CV4's shape). -/
theorem witness_init_degenerate :
    let few : CacheConfig := { cacheSize := 16, blockSize := 16, ways := 2, missLatency := 3 }
    few.valid = true ∧ few.degenerate = true ∧ isNext (init few few 4 [1, 2, 3, 4]) = true := by decide

/-- InitRefuses…: refused for a size that is no power of two, a memory of 2 bytes, and an image one byte shorter or longer
than the memory (R321); the image of exactly its size is admitted. -/
theorem witness_init_refused :
    init { Config.resetCache with cacheSize := 48 } Config.resetCache 32 haltImage = .refused .invalidConfig ∧
    init Config.resetCache Config.resetCache 2 [1, 2] = .refused .invalidConfig ∧
    init Config.resetCache Config.resetCache 4 [1, 2, 3] = .refused .invalidConfig ∧
    init Config.resetCache Config.resetCache 4 [1, 2, 3, 4, 5] = .refused .invalidConfig ∧
    isNext (init Config.resetCache Config.resetCache 4 [1, 2, 3, 4]) = true := ⟨rfl, rfl, rfl, rfl, by decide⟩

/-- RunTillHalt…, RunCycles…, Finalize…: a running core, and a run of two ticks. -/
theorem witness_run : halt0.mode = .running ∧ halt0.finalized = false ∧ 0 < 2 ∧ isNext (runCycles 2 halt0) = true := by
  decide

/-- The state after a tick that completes. -/
def after (s : State) : State :=
  match step s with
  | .next t => t
  | _ => s

theorem step_after {s : State} (h : isNext (step s) = true) : step s = .next (after s) := by
  obtain ⟨t, ht⟩ := next_of_isNext h
  simp [after, ht]

/-- SequentialEquivalence: the run of `haltImage`; its halt commits in the fourth tick (R381: `N + 2` from 0). -/
theorem witness_sequential :
    ClearRun 3 halt0 (after (after (after halt0))) ∧ (after (after (after halt0))).storeClear ∧
    step (after (after (after halt0))) = .next (after (after (after (after halt0)))) ∧
    (after (after (after (after halt0)))).mode = .halted ∧ (after (after (after (after halt0)))).errorNote = none := by
  have c : ∀ s : State, (s.latches.EX.writesMem = false) → s.storeClear := by
    intro s h _ h2; rw [h] at h2; cases h2
  exact ⟨⟨after (after halt0), ⟨after halt0, ⟨halt0, rfl, c _ (by decide), step_after (by decide)⟩, c _ (by decide),
    step_after (by decide)⟩, c _ (by decide), step_after (by decide)⟩, c _ (by decide), step_after (by decide), by decide,
    by decide⟩

/-- Finalize…: a core that does not run. -/
theorem witness_finalize : (after (after (after (after halt0)))).mode ≠ .running ∧
    (after (after (after (after halt0)))).finalized = false ∧
    isNext (finalize (after (after (after (after halt0))))) = true := by decide

end Sys2Proof.Tests
end

section
/-! The proofs of the scope family: what no tick changes, what `init` accepts, and that the invariant holds after it. -/

namespace Sys2Proof.Machine

/-! ## What no tick changes (R11, R55, R60, R94, R376) -/

/-- What a core keeps from `init` to `finalize`: the size of memory, both cache configurations and whether it is
finalized. -/
def State.configuration (s : State) : Nat × CacheConfig × CacheConfig × Bool :=
  (s.memory.size, s.ic.config, s.dc.config, s.finalized)

theorem configuration_eq_iff {s s' : State} :
    s'.configuration = s.configuration ↔ s'.memory.size = s.memory.size ∧ s'.ic.config = s.ic.config ∧
      s'.dc.config = s.dc.config ∧ s'.finalized = s.finalized := by
  simp [State.configuration]

theorem wbStage_configuration {s s' : State} (h : wbStage s = .next s') : s'.configuration = s.configuration := by
  obtain ⟨r, d, b, rfl, -⟩ := wbStage_frame h
  rfl

theorem memStage_configuration {s s' : State} (h : memStage s = .next s') : s'.configuration = s.configuration := by
  obtain ⟨l, dc, m, d, e, rfl, -, -, hdc, -, hsize, -⟩ := memStage_frame h
  exact configuration_eq_iff.mpr ⟨hsize, rfl, hdc, rfl⟩

theorem exStage_configuration {s s' : State} (h : exStage s = .next s') : s'.configuration = s.configuration := by
  obtain ⟨g, l, t, rfl, -⟩ := exStage_frame h
  rfl

theorem idStage_configuration {s s' : State} (h : idStage s = .next s') : s'.configuration = s.configuration := by
  obtain ⟨g, l, b, rfl, -⟩ := idStage_frame h
  rfl

@[simp] theorem redirect_configuration (b : Bool) (s : State) : (redirect b s).configuration = s.configuration := by
  rcases redirect_cases b s with ⟨-, he⟩ | ⟨t, -, he⟩ <;> rw [he]
  cases b <;> simp [State.configuration]

@[simp] theorem fetched_configuration (s : State) : (fetched s).configuration = s.configuration := by
  simp [fetched, State.configuration]

/-- IF makes at most one access and one invalidation of the I-cache, and neither changes its configuration. -/
theorem ifStage_configuration {s s' : State} (h : ifStage s = .next s') : s'.configuration = s.configuration := by
  rcases ifStage_cases h with
    ⟨-, rfl⟩ | ⟨-, -, -, -, rfl⟩ | ⟨-, -, -, rfl⟩ | ⟨-, -, -, rfl⟩ | ⟨-, -, -, -, rfl⟩
  · rfl
  · simp [State.configuration]
  · rfl
  · rw [waitStage_eq, redirect_configuration]; rfl
  · rw [redirect_configuration, fetched_configuration]

/-- Every tick, freeze ticks included, keeps the configuration of the core. -/
theorem step_configuration {s s' : State} (h : step s = .next s') : s'.configuration = s.configuration := by
  obtain ⟨-, -, ⟨-, rfl⟩ | ⟨-, s1, s2, s3, s4, s5, h1, h2, h3, h4, h5, rfl⟩⟩ := step_eq_next.mp h
  · rfl
  · calc (endTick s5).configuration
      _ = s5.configuration := rfl
      _ = s4.configuration := ifStage_configuration h5
      _ = s3.configuration := idStage_configuration h4
      _ = s2.configuration := exStage_configuration h3
      _ = (hazardStage s1).configuration := memStage_configuration h2
      _ = s1.configuration := rfl
      _ = (beginTick s).configuration := wbStage_configuration h1
      _ = s.configuration := rfl

/-- Settles O39: every stage of a tick keeps the configuration, and only a core that is not finalized ticks. -/
theorem noTickChangesTheConfiguration : Obligations.NoTickChangesTheConfiguration := by
  intro s s' h
  obtain ⟨-, hfin, -⟩ := step_eq_next.mp h
  obtain ⟨hsize, hic, hdc, hfin'⟩ := configuration_eq_iff.mp (step_configuration h)
  exact ⟨hsize, hic, hdc, hfin'.trans hfin⟩

/-! ## What `init` accepts and makes (R11, R81, R320 to R323) -/

theorem isPowerOfTwo_iff (n : Nat) : isPowerOfTwo n = true ↔ ∃ k, n = 2 ^ k := by
  rw [isPowerOfTwo, beq_iff_eq]
  constructor
  · intro h
    exact ⟨n.log2, h.symm⟩
  · rintro ⟨k, rfl⟩
    rw [Nat.log2_two_pow]

theorem cacheConfigValid_iff (c : CacheConfig) :
    c.valid = true ↔ (∃ k, c.cacheSize = 2 ^ k) ∧ (∃ k, c.blockSize = 2 ^ k) ∧ ∃ k, c.ways = 2 ^ k := by
  simp only [CacheConfig.valid, Bool.and_eq_true, isPowerOfTwo_iff, and_assoc]

theorem memorySizeValid_iff (size : Nat) :
    memorySizeValid size = true ↔ 4 ≤ size ∧ size ≤ 2 ^ 32 ∧ size % 4 = 0 := by
  simp only [memorySizeValid, Bool.and_eq_true, decide_eq_true_eq, beq_iff_eq, and_assoc]

/-- What `init` accepts (R321). -/
structure ValidArguments (icfg dcfg : CacheConfig) (size : Nat) (image : List Byte) : Prop where
  icache : icfg.valid = true
  dcache : dcfg.valid = true
  memory : memorySizeValid size = true
  length : image.length = size

/-- The state after the initial fetch (R61, R322, R323). -/
def initialState (icfg dcfg : CacheConfig) (image : List Byte) : State :=
  let s := State.cold icfg dcfg (imageMemory image)
  let r := s.ic.access Config.resetPc .read
  { s with
    ic := r.2
    latches := { s.latches with
      IF := decodeLatch (s.memory.read32 Config.resetPc.toNat) Config.resetPc .speculative }
    iMissRemaining := if r.1 = .miss then r.2.config.missLatency else 0
    pc := Config.resetPc + 4 }

/-- A memory of a valid size holds the word at the reset address, so the initial fetch is never refused. -/
theorem init_of_valid {icfg dcfg : CacheConfig} {size : Nat} {image : List Byte}
    (h : ValidArguments icfg dcfg size image) : init icfg dcfg size image = .next (initialState icfg dcfg image) := by
  obtain ⟨hi, hd, hm, hl⟩ := h
  have hsize := ((memorySizeValid_iff _).mp hm).1
  have hfetch : ¬ image.length < 4 := by omega
  rw [init, if_pos (by simp [hi, hd, hm, hl])]
  exact if_neg hfetch

theorem init_of_invalid {icfg dcfg : CacheConfig} {size : Nat} {image : List Byte}
    (h : ¬ ValidArguments icfg dcfg size image) : init icfg dcfg size image = .refused .invalidConfig := by
  refine if_neg fun hc => h ?_
  simp only [Bool.and_eq_true, beq_iff_eq] at hc
  obtain ⟨⟨⟨hi, hd⟩, hm⟩, hl⟩ := hc
  exact ⟨hi, hd, hm, hl⟩

theorem init_eq_next {icfg dcfg : CacheConfig} {size : Nat} {image : List Byte} {s : State} :
    init icfg dcfg size image = .next s ↔ ValidArguments icfg dcfg size image ∧ s = initialState icfg dcfg image := by
  by_cases h : ValidArguments icfg dcfg size image
  · simp [init_of_valid h, h, eq_comm]
  · simp [init_of_invalid h, h]

/-- Settles O55: the checks of `init` are the ranges of R11, R81 and R321. -/
theorem initRefusesInvalidConfigurations : Obligations.InitRefusesInvalidConfigurations := by
  intro icfg dcfg size image power ranges good
  have hgood : good ↔ ValidArguments icfg dcfg size image := by
    constructor
    · rintro ⟨hi, hd, hmin, hmax, hmod, hl⟩
      exact ⟨(cacheConfigValid_iff _).mpr hi, (cacheConfigValid_iff _).mpr hd,
        (memorySizeValid_iff _).mpr ⟨hmin, hmax, hmod⟩, hl⟩
    · rintro ⟨hi, hd, hm, hl⟩
      obtain ⟨hmin, hmax, hmod⟩ := (memorySizeValid_iff _).mp hm
      exact ⟨(cacheConfigValid_iff _).mp hi, (cacheConfigValid_iff _).mp hd, hmin, hmax, hmod, hl⟩
  exact ⟨fun h => init_of_invalid (mt hgood.mpr h), fun h => ⟨_, init_of_valid (hgood.mp h)⟩⟩

/-! ## The invariant after `init` -/

/-- The latch of the initial fetch: SPECULATIVE, at the aligned reset address. -/
theorem goodFetch_initialState (icfg dcfg : CacheConfig) (image : List Byte) :
    (initialState icfg dcfg image).latches.IF.GoodFetch where
  coherent := decoded_decodeLatch_coherent _ _ _
  status := .inr (.inl (status_decodeLatch _ _ _))
  aligned := by simp [initialState, Config.resetPc]

/-- The cold miss of the initial fetch waits for the latency of the I-cache; a hit, for nothing. -/
theorem iMissRemaining_initialState_le (icfg dcfg : CacheConfig) (image : List Byte) :
    (initialState icfg dcfg image).iMissRemaining ≤ (initialState icfg dcfg image).ic.config.missLatency := by
  dsimp only [initialState]
  split
  · exact le_rfl
  · exact Nat.zero_le _

theorem initialState_inv {icfg dcfg : CacheConfig} {size : Nat} {image : List Byte}
    (h : ValidArguments icfg dcfg size image) : (initialState icfg dcfg image).Inv where
  memory := ⟨imageMemory_wf image, by simpa [initialState, State.cold, h.length] using h.memory⟩
  zeroRegister := by simp [initialState, State.cold]
  pcAligned := by simp [initialState, Config.resetPc]
  fetch := goodFetch_initialState icfg dcfg image
  decode := Latch.good_idleLatch
  execute := Latch.good_idleLatch
  access := Latch.good_idleLatch
  writeback := Latch.good_idleLatch
  icache := Cache.good_access (Cache.good_cold h.icache) _ _
  dcache := Cache.good_cold h.dcache
  stalls := ⟨Nat.zero_le _, iMissRemaining_initialState_le icfg dcfg image, Nat.zero_le _⟩
  commits := le_rfl
  snapshots := ⟨rfl, trivial⟩
  fetchedInside := by
    intro _
    have hsize := ((memorySizeValid_iff _).mp h.memory).1
    simpa [initialState, State.cold, Config.resetPc, h.length] using hsize
  stopped := nofun
  resting := rfl

/-- Settles O52: `init` ends in a state only on valid arguments, and then in `initialState`. -/
theorem initEstablishesTheInvariant : Obligations.InitEstablishesTheInvariant := by
  intro icfg dcfg size image s h
  obtain ⟨hvalid, rfl⟩ := init_eq_next.mp h
  exact initialState_inv hvalid

end Sys2Proof.Machine
end

section
/-! The proofs of the state family: register 0, the snapshot of a tick, the reset table, and that every step keeps the
invariant. -/

namespace Sys2Proof.Machine

/-! ## The invariant along a tick -/

/-- What of the invariant holds of the working state after ID: the start-of-tick values that IF reads are as the
invariant has them, and the working values are fit to be published. -/
structure State.ReadyForFetch (s : State) : Prop where
  memory : s.memory.wf = true ∧ memorySizeValid s.memory.size = true
  zeroRegister : s.regs[0] = 0
  pcAligned : s.pc.toNat % 4 = 0
  fetch : s.latches.IF.GoodFetch
  fetchedInside : s.latches.IF.pc.toNat + 4 ≤ s.memory.size
  icache : s.ic.Good
  dcache : s.dc.Good
  stalls : s.work.lbeNext ≤ 1 ∧ s.iMissRemaining ≤ s.ic.config.missLatency ∧
    s.work.dNext ≤ s.dc.config.missLatency
  commits : s.dynamicInstructions ≤ s.cycleCount + 1
  snapshots : snapshotCount s.sink = s.cycleCount ∧ snapshotsNumbered s.sink
  pending : s.work.pcNext = s.pc ∧ s.work.iNext = s.iMissRemaining
  taken : ∀ a, s.work.taken = some a → a.toNat % 4 = 0
  decode : s.work.new.ID.coherent ∧ (s.work.illegal = false → s.work.new.ID.Good)
  execute : s.work.new.EX.Good
  access : s.work.new.MEM.Good
  writeback : s.work.new.WB.Good

/-- A tick's hazard detection leaves at most one cycle of a load-branch stall to come (R336). -/
theorem lbeNext_hazard_le {lbe : Nat} (h : lbe ≤ 1) (id ex : Latch) : (hazard id ex lbe).lbeNext ≤ 1 := by
  unfold hazard
  split_ifs <;> simp only <;> omega

/-- WB, the hazards, MEM, EX and ID lead from the invariant to a state that is ready for IF. -/
theorem readyForFetch {s s1 s2 s3 s4 : State} (hI : s.Inv) (hrun : s.mode = .running)
    (h1 : wbStage (beginTick s) = .next s1) (h2 : memStage (hazardStage s1) = .next s2)
    (h3 : exStage s2 = .next s3) (h4 : idStage s3 = .next s4) : s4.ReadyForFetch := by
  obtain ⟨regs, commits, halt, rfl, hzero, -, hcommits⟩ := wbStage_frame h1
  obtain ⟨lMEM, dc, m, d, e, rfl, hMEM, hdc, hdcfg, hwf, hsize, hd, -⟩ := memStage_frame h2
  obtain ⟨g, lEX, t, rfl, hEX, ht⟩ := exStage_frame h3
  obtain ⟨g', lID, b, rfl, hID, -⟩ := idStage_frame h4
  obtain ⟨hcoherent, -, hlegal⟩ := hID hI.decode hI.fetch.coherent
  obtain ⟨hlbe, himiss, -⟩ := hI.stalls
  have hdNext : d ≤ s.dc.config.missLatency := by
    rcases hd with rfl | rfl
    · exact Nat.zero_le _
    · exact le_rfl
  exact {
    memory := ⟨hwf hI.memory.1, hsize ▸ hI.memory.2⟩
    zeroRegister := hzero.trans hI.zeroRegister
    pcAligned := hI.pcAligned
    fetch := hI.fetch
    fetchedInside := hsize ▸ hI.fetchedInside hrun
    icache := hI.icache
    dcache := hdc hI.dcache
    stalls := ⟨lbeNext_hazard_le hlbe _ _, himiss, hdcfg ▸ hdNext⟩
    commits := hcommits.trans (Nat.succ_le_succ hI.commits)
    snapshots := hI.snapshots
    pending := ⟨rfl, rfl⟩
    taken := by
      rintro a rfl
      rcases ht with hnone | ⟨a', ha, haligned, -⟩
      · exact absurd hnone nofun
      · cases ha; exact haligned
    decode := ⟨hcoherent, hlegal⟩
    execute := hEX hI.decode
    access := hMEM hI.execute
    writeback := hI.access }

/-! ## The end of a tick -/

/-- The latch of trap entry: the NOP at the aligned handler address, squashed (R362). -/
theorem goodFetch_handlerLatch : handlerLatch.GoodFetch where
  coherent := decoded_decodeLatch_coherent _ _ _
  status := .inr (.inr (status_decodeLatch _ _ _))
  aligned := by decide

/-- A tick that raises an exception stops the core, also where the draw of a tie decides how (R373). -/
theorem modeAfter_ne_running {exc : Bool} (h : exc = true) (halt : Bool) (n : Nat) :
    modeAfter exc halt n ≠ .running := by
  subst h
  cases halt with
  | false => simp [modeAfter]
  | true => cases hdraw : Config.haltWinsTie n <;> simp [modeAfter, hdraw]

/-- A tick that raises no exception does not leave the core errored (R373). -/
theorem modeAfter_ne_errored {exc : Bool} (h : exc = false) (halt : Bool) (n : Nat) :
    modeAfter exc halt n ≠ .errored := by
  subst h
  cases halt <;> simp [modeAfter]

/-- The snapshot of a tick carries the number of the snapshots before it (R378, R384). -/
theorem snapshots_emitSnapshot {s : State} (h : snapshotCount s.sink = s.cycleCount ∧ snapshotsNumbered s.sink) :
    snapshotCount (emitSnapshot s).sink = (emitSnapshot s).cycleCount ∧ snapshotsNumbered (emitSnapshot s).sink :=
  ⟨congrArg (· + 1) h.1, h.1.symm, h.2⟩

/-- Trap entry squashes what ID decoded, so a word that raised is no longer live, and it clears every pending stall
(R284, R286). -/
theorem inv_endTick_takeException {s : State} (h : s.ReadyForFetch) (he : s.work.exc = true) :
    (endTick (takeException s)).Inv where
  memory := h.memory
  zeroRegister := h.zeroRegister
  pcAligned := (by decide : Config.handler.toNat % 4 = 0)
  fetch := goodFetch_handlerLatch
  decode := Latch.good_squash h.decode.1
  execute := by
    show Latch.Good (if s.work.memExc then s.work.new.EX.squash else s.work.new.EX)
    split
    · exact Latch.good_squash h.execute.coherent
    · exact h.execute
  access := h.access
  writeback := h.writeback
  icache := h.icache
  dcache := h.dcache
  stalls := ⟨Nat.zero_le _, Nat.zero_le _, Nat.zero_le _⟩
  commits := h.commits
  snapshots := snapshots_emitSnapshot h.snapshots
  fetchedInside := fun hrun => absurd hrun (modeAfter_ne_running he _ _)
  stopped := fun _ => ⟨rfl, rfl, rfl, rfl, rfl⟩
  resting := rfl

/-- IF ends a tick in a state with the invariant (R286, R362 to R369, R372). -/
theorem inv_endTick {s s' : State} (h : s.ReadyForFetch) (hs : ifStage s = .next s') : (endTick s').Inv := by
  obtain ⟨hpc, hiNext⟩ := h.pending
  obtain ⟨hlbe, himiss, hdNext⟩ := h.stalls
  rcases ifStage_frame hs h.fetch h.pcAligned h.taken hpc hiNext himiss with
    ⟨he, rfl⟩ | ⟨he, l, ic, p, k, rfl, hl, hp, hic, hcfg, hk, hinside⟩
  · exact inv_endTick_takeException h he
  · have hillegal : s.work.illegal = false := (Bool.or_eq_false_iff.mp he).2
    exact {
      memory := h.memory
      zeroRegister := h.zeroRegister
      pcAligned := hp
      fetch := hl
      decode := h.decode.2 hillegal
      execute := h.execute
      access := h.access
      writeback := h.writeback
      icache := hic h.icache
      dcache := h.dcache
      stalls := ⟨hlbe, hcfg ▸ hk, hdNext⟩
      commits := h.commits
      snapshots := snapshots_emitSnapshot h.snapshots
      fetchedInside := fun _ => hinside.elim (fun e => e ▸ h.fetchedInside) id
      stopped := fun herr => absurd herr (modeAfter_ne_errored he _ _)
      resting := rfl }

/-- A freeze tick puts a bubble in WB, counts the two misses down and leaves the rest (R328). -/
theorem inv_freezeTick {s : State} (hI : s.Inv) (hrun : s.mode = .running) : (freezeTick s).Inv := by
  obtain ⟨hlbe, himiss, hdmiss⟩ := hI.stalls
  exact { hI with
    writeback := Latch.good_bubbleLatch
    stalls := ⟨hlbe, (Nat.sub_le _ _).trans himiss, (Nat.sub_le _ _).trans hdmiss⟩
    commits := hI.commits.trans (Nat.le_succ _)
    snapshots := snapshots_emitSnapshot hI.snapshots
    stopped := fun herr => absurd (hrun.symm.trans herr) nofun
    resting := rfl }

/-- Settles O50: a freeze tick keeps the invariant, and the stages of any other tick lead from it, by way of
`State.ReadyForFetch`, back to it. -/
theorem everyStepKeepsTheInvariant : Obligations.EveryStepKeepsTheInvariant := by
  intro s s' hI h
  obtain ⟨hrun, -, ⟨-, rfl⟩ | ⟨-, s1, s2, s3, s4, s5, h1, h2, h3, h4, h5, rfl⟩⟩ := step_eq_next.mp h
  · exact inv_freezeTick hI hrun
  · exact inv_endTick (readyForFetch hI hrun h1 h2 h3 h4) h5

/-! ## The snapshot of a tick (R46, R378) -/

theorem redirect_records (b : Bool) (s : State) :
    (redirect b s).cycleCount = s.cycleCount ∧ (redirect b s).sink = s.sink := by
  rcases redirect_cases b s with ⟨-, he⟩ | ⟨t, -, he⟩ <;> rw [he] <;> exact ⟨rfl, rfl⟩

/-- IF counts nothing and emits nothing; only the end of the tick does. -/
theorem ifStage_records {s s' : State} (h : ifStage s = .next s') :
    s'.cycleCount = s.cycleCount ∧ s'.sink = s.sink := by
  rcases ifStage_cases h with
    ⟨-, rfl⟩ | ⟨-, -, -, -, rfl⟩ | ⟨-, -, -, rfl⟩ | ⟨-, -, -, rfl⟩ | ⟨-, -, -, -, rfl⟩
  · exact ⟨rfl, rfl⟩
  · exact ⟨rfl, rfl⟩
  · exact ⟨rfl, rfl⟩
  · exact redirect_records _ _
  · exact redirect_records _ (fetched s)

/-- No stage before IF counts or emits. -/
theorem stages_before_fetch_records {s s1 s2 s3 s4 : State} (h1 : wbStage (beginTick s) = .next s1)
    (h2 : memStage (hazardStage s1) = .next s2) (h3 : exStage s2 = .next s3) (h4 : idStage s3 = .next s4) :
    s4.cycleCount = s.cycleCount ∧ s4.sink = s.sink := by
  obtain ⟨_, _, _, rfl, -⟩ := wbStage_frame h1
  obtain ⟨_, _, _, _, _, rfl, -⟩ := memStage_frame h2
  obtain ⟨_, _, _, rfl, -⟩ := exStage_frame h3
  obtain ⟨_, _, _, rfl, -⟩ := idStage_frame h4
  exact ⟨rfl, rfl⟩

/-- What a tick emits is the snapshot of the latches it publishes (R378). -/
theorem sink_endTick (s : State) :
    (endTick s).sink = .snapshot (snapshotOf s.cycleCount (endTick s).latches) :: s.sink := rfl

/-- Settles O38: a freeze tick and the end of any other tick emit the snapshot of the latches they publish and count,
and nothing before the end of a tick emits or counts. -/
theorem everyTickEmitsItsSnapshot : Obligations.EveryTickEmitsItsSnapshot := by
  intro s s' h
  obtain ⟨-, -, ⟨-, rfl⟩ | ⟨-, s1, s2, s3, s4, s5, h1, h2, h3, h4, h5, rfl⟩⟩ := step_eq_next.mp h
  · exact ⟨rfl, rfl⟩
  · obtain ⟨hcycle4, hsink4⟩ := stages_before_fetch_records h1 h2 h3 h4
    obtain ⟨hcycle5, hsink5⟩ := ifStage_records h5
    refine ⟨congrArg (· + 1) (hcycle5.trans hcycle4), ?_⟩
    rw [sink_endTick, hsink5, hsink4, hcycle5, hcycle4]
    rfl

/-! ## The reset table (R61, R322, R323) -/

@[simp] theorem indexOf_resetPc (c : CacheConfig) : c.indexOf Config.resetPc = 0 := by
  simp [CacheConfig.indexOf, Config.resetPc]

@[simp] theorem tagOf_resetPc (c : CacheConfig) : c.tagOf Config.resetPc = 0 := by
  simp [CacheConfig.tagOf, Config.resetPc]

/-- Every set of a cold cache holds cold ways (R61). -/
theorem setAt_cold {c : CacheConfig} {i : Nat} (h : i < c.numSets) :
    (Cache.cold c).setAt i = List.replicate c.ways .cold := by
  simp [Cache.setAt, Cache.cold, h]

/-- A miss in a set of cold ways installs into way 0 (R100). -/
theorem victimWay_replicate_cold {n : Nat} (h : 0 < n) : victimWay (List.replicate n .cold) = 0 := by
  obtain ⟨m, rfl⟩ := Nat.exists_eq_succ_of_ne_zero h.ne'
  rfl

/-- The ways of set `i` after the initial fetch of a cache that has sets: the block of address 0 in way 0 of set 0. -/
def resetSet (c : CacheConfig) (i : Nat) : List Way :=
  if i = 0 then (List.replicate c.ways Way.cold).set 0 { valid := true, tag := 0, lruStamp := 1 }
  else List.replicate c.ways .cold

/-- The initial fetch misses in a cold cache that has sets, and installs the block of address 0 (R323). -/
theorem access_cold_resetPc {c : CacheConfig} (h : c.degenerate = false) :
    (Cache.cold c).access Config.resetPc .read =
      (.miss, { Cache.cold c with
        misses := 1, clock := 1, sets := (Cache.cold c).sets.set 0 (resetSet c 0) }) := by
  have hsets : 0 < c.numSets := indexOf_resetPc c ▸ indexOf_lt c h Config.resetPc
  have hset : (Cache.cold c).setAt ((Cache.cold c).config.indexOf Config.resetPc) = List.replicate c.ways .cold := by
    rw [indexOf_resetPc, setAt_cold hsets]
  rcases Cache.access_cases (c := Cache.cold c) h Config.resetPc .read with ⟨w, hf, -⟩ | ⟨-, he⟩
  · rw [hset] at hf
    obtain ⟨_, hm, -⟩ := List.findIdx?_eq_some_iff_getElem.mp hf
    simp [Way.matches, Way.cold] at hm
  · rw [he, hset, victimWay_replicate_cold (ways_pos h), indexOf_resetPc, tagOf_resetPc]
    rfl

/-- The initial fetch misses in every cold cache (R105, R323). -/
theorem access_cold_resetPc_miss (c : CacheConfig) : ((Cache.cold c).access Config.resetPc .read).1 = .miss := by
  cases h : c.degenerate with
  | true => rw [Cache.access_of_degenerate h]
  | false => rw [access_cold_resetPc h]

/-- The counters of the I-cache after the initial fetch (R323). -/
theorem counters_access_cold_resetPc (c : CacheConfig) :
    let r := ((Cache.cold c).access Config.resetPc .read).2
    r.hits = 0 ∧ r.misses = (if c.degenerate then 0 else 1) ∧ r.clock = r.misses := by
  cases h : c.degenerate with
  | true => rw [Cache.access_of_degenerate h]; exact ⟨rfl, rfl, rfl⟩
  | false => rw [access_cold_resetPc h]; exact ⟨rfl, rfl, rfl⟩

/-- The sets of the I-cache after the initial fetch (R323). -/
theorem setAt_access_cold_resetPc {c : CacheConfig} {i : Nat} (hi : i < c.numSets) :
    ((Cache.cold c).access Config.resetPc .read).2.setAt i = resetSet c i := by
  have hd : c.degenerate = false := beq_false_of_ne (Nat.ne_zero_of_lt hi)
  rw [access_cold_resetPc hd]
  by_cases h0 : i = 0
  · subst h0
    simp [Cache.setAt, Cache.cold, hi]
  · have hset : resetSet c i = (Cache.cold c).setAt i := by rw [setAt_cold hi, resetSet, if_neg h0]
    rw [hset]
    simp [Cache.setAt, List.getElem?_set_ne (Ne.symm h0)]

/-- The ways of a set after the initial fetch. -/
theorem getElem?_resetSet {c : CacheConfig} {j : Nat} (hj : j < c.ways) (i : Nat) :
    (resetSet c i)[j]? = some (if i = 0 ∧ j = 0 then { valid := true, tag := 0, lruStamp := 1 } else .cold) := by
  unfold resetSet
  by_cases hi : i = 0
  · by_cases h0 : j = 0
    · subst h0
      simp [hi, hj]
    · simp [hi, h0, hj, List.getElem_set_ne (Ne.symm h0)]
  · simp [hi, hj]

/-- Settles O53: on admitted arguments `init` ends in `initialState`, whose I-cache is the cold cache after one access
at address 0. -/
theorem initGivesTheResetTable : Obligations.InitGivesTheResetTable := by
  intro icfg dcfg size image hi hd hm hl
  have hshaped := (Cache.shaped_iff _).mp (Cache.good_access (Cache.good_cold hi) Config.resetPc .read).shaped
  rw [Cache.config_access] at hshaped
  obtain ⟨hsets, hways⟩ := hshaped
  obtain ⟨hhits, hmisses, hclock⟩ := counters_access_cold_resetPc icfg
  have hwait : (initialState icfg dcfg image).iMissRemaining = icfg.missLatency :=
    (if_pos (access_cold_resetPc_miss icfg)).trans (congrArg CacheConfig.missLatency (Cache.config_access _ _ _))
  refine ⟨_, init_of_valid ⟨hi, hd, hm, hl⟩, ?_, rfl, rfl, rfl, rfl, rfl, rfl, rfl, rfl, hwait, rfl, rfl, rfl, rfl, rfl,
    rfl, rfl, Cache.config_access _ _ _, rfl, hhits, rfl, rfl, rfl, hmisses, hclock, rfl, hsets, hways, ?_, hl⟩
  · intro r
    simp [State.readReg, initialState, State.cold]
  · intro i j hi hj
    exact (congrArg (·[j]?) (setAt_access_cold_resetPc hi)).trans (getElem?_resetSet hj i)

/-! ## Register 0 (R14, R32) -/

/-- A write to register 0 has no effect (R32). -/
theorem writeReg_zero (s : State) (v : Word) : s.writeReg 0 v = s := if_pos rfl

/-- Settles O49: the law of `readReg_writeReg`, for the written register and for any other. -/
theorem registerZeroIsHardwired : Obligations.RegisterZeroIsHardwired := by
  intro s r r' v
  refine ⟨readReg_zero s, writeReg_zero s v, fun hr => ?_, fun hne => ?_, writeReg_eq s r v⟩
  · rw [readReg_writeReg, if_pos ⟨rfl, hr⟩]
  · rw [readReg_writeReg, if_neg (fun h => hne h.1)]

/-! ## Reset (log 1, log 2) -/

/-- The parameters and the image of `State.reset` are admitted (R11, R81, R321). -/
theorem validArguments_reset :
    ValidArguments Config.resetCache Config.resetCache Config.resetMemorySize
      (List.replicate Config.resetMemorySize 0) where
  icache := by decide
  dcache := by decide
  memory := by decide
  length := List.length_replicate

/-- The initial fetch from the image of zeros makes `State.reset`. -/
theorem initialState_reset :
    initialState Config.resetCache Config.resetCache (List.replicate Config.resetMemorySize 0) = State.reset := by
  unfold initialState
  rw [imageMemory_replicate]
  decide

/-- Settles O51: `State.reset` is an `initialState`, and every `initialState` has the invariant. -/
theorem resetHasTheInvariant : Obligations.ResetHasTheInvariant := by
  unfold Obligations.ResetHasTheInvariant
  rw [← initialState_reset]
  exact ⟨init_of_valid validArguments_reset, initialState_inv validArguments_reset⟩

end Sys2Proof.Machine
end

section
/-! The proofs of the memory family: what a cache access and an invalidation do, the bytes of memory, and the image that
`init` loads. -/

namespace Sys2Proof.Machine

/-! ## Memory (R82 to R84) -/

/-- A byte that a write stores is the slice of the value in its place (R84). -/
theorem Memory.toNat_byteAt_write {m : Memory} (h : m.wf = true) {a n k : Nat} (v : Word) (ha : a + n ≤ m.size)
    (hk : k < n) : ((m.write a n v).byteAt (a + k)).toNat = v.toNat / 2 ^ (8 * k) % 2 ^ 8 := by
  rw [Memory.byteAt_write h, if_pos (by omega), Nat.add_sub_cancel_left, BitVec.extractLsb'_toNat,
    Nat.shiftRight_eq_div_pow]

/-- The low part of two parts put together counts once, the high part above it. -/
theorem toNat_append_eq_add {m n : Nat} (high : BitVec m) (low : BitVec n) :
    (high ++ low).toNat = low.toNat + 2 ^ n * high.toNat := by
  rw [BitVec.toNat_append, ← Nat.shiftLeft_add_eq_or_of_lt low.isLt, Nat.shiftLeft_eq, Nat.mul_comm, Nat.add_comm]

/-- A word has its least significant byte at the lowest address (R82, R83). -/
theorem Memory.toNat_read32 (m : Memory) (a : Nat) :
    (m.read32 a).toNat = (m.byteAt a).toNat + 2 ^ 8 * (m.byteAt (a + 1)).toNat +
      2 ^ 16 * (m.byteAt (a + 2)).toNat + 2 ^ 24 * (m.byteAt (a + 3)).toNat := by
  simp only [Memory.read32, toNat_append_eq_add]
  omega

/-- Settles O47: the bytes that a write stores, and the value read back by a read of each width. -/
theorem memoryIsLittleEndian : Obligations.MemoryIsLittleEndian := by
  intro m a n v h hin hn
  refine ⟨fun k hk => Memory.toNat_byteAt_write h v hin hk, fun other ho => Memory.byteAt_write_of_outside h a n v ho,
    Memory.wf_write h a n v, ?_, ?_, ?_, Memory.toNat_read32 m a⟩
  · rintro rfl
    rw [Memory.read8_write h a v hin, BitVec.extractLsb'_toNat, Nat.shiftRight_zero]
  · rintro rfl
    rw [Memory.read16_write h a v hin, BitVec.extractLsb'_toNat, Nat.shiftRight_zero]
  · rintro rfl
    exact Memory.read32_write h a v hin

/-! ## The image (R55, R92) -/

/-- The memory of an image holds each of its bytes at the byte's index (R92). -/
theorem getElem?_image {image : List Byte} {a : Nat} (h : a < image.length) :
    image[a]? = some ((imageMemory image).byteAt a) := by
  rw [byteAt_imageMemory, List.getElem?_eq_getElem h, Option.getD_some]

/-- Settles O54: `init` ends in a state only on valid arguments, and then with the image as its memory. -/
theorem initLoadsTheImage : Obligations.InitLoadsTheImage := by
  intro icfg dcfg size image s h
  obtain ⟨⟨-, -, -, hlength⟩, rfl⟩ := init_eq_next.mp h
  exact ⟨hlength, hlength, fun a ha => getElem?_image (hlength ▸ ha)⟩

/-! ## A cache without sets (R95, R105) -/

theorem degenerate_of_no_ways_or_sets {c : CacheConfig} (h : c.ways = 0 ∨ c.cacheSize / c.blockSize / c.ways = 0) :
    c.degenerate = true := by
  rcases h with h | h
  · simp [CacheConfig.degenerate, CacheConfig.numSets, h]
  · exact beq_iff_eq.mpr h

theorem Cache.invalidate_of_degenerate {c : Cache} (h : c.config.degenerate = true) (a : Word) : c.invalidate a = c :=
  if_pos h

/-- Settles O45: a cache with no sets or no ways is degenerate. -/
theorem degenerateCacheAlwaysMisses : Obligations.DegenerateCacheAlwaysMisses := by
  intro c a op h
  have hd := degenerate_of_no_ways_or_sets h
  exact ⟨Cache.access_of_degenerate hd a op, Cache.invalidate_of_degenerate hd a⟩

/-! ## The ways of a set (R100 to R102) -/

theorem Way.matches_iff {w : Way} {tag : BitVec 64} : w.matches tag = true ↔ w.valid = true ∧ w.tag = tag := by
  simp [Way.matches]

/-- Of two valid ways of a good set neither the tags nor the stamps are equal. -/
theorem waysGood_getElem?_ne {clock : Nat} {ways : List Way} (h : waysGood clock ways) {i j : Nat} {v w : Way}
    (hv : ways[i]? = some v) (hw : ways[j]? = some w) (hne : i ≠ j) (hvv : v.valid = true) (hwv : w.valid = true) :
    v.tag ≠ w.tag ∧ v.lruStamp ≠ w.lruStamp := by
  obtain ⟨hi, rfl⟩ := List.getElem?_eq_some_iff.mp hv
  obtain ⟨hj, rfl⟩ := List.getElem?_eq_some_iff.mp hw
  have hp := List.pairwise_iff_getElem.mp h.1
  rcases Nat.lt_or_gt_of_ne hne with hlt | hgt
  · exact hp i j hi hj hlt hvv hwv
  · obtain ⟨htag, hstamp⟩ := hp j i hj hi hgt hwv hvv
    exact ⟨htag.symm, hstamp.symm⟩

/-- Only one way of a good set holds a tag (R101). -/
theorem index_eq_of_matches {clock : Nat} {ways : List Way} (h : waysGood clock ways) {i j : Nat} {v w : Way}
    {tag : BitVec 64} (hv : ways[i]? = some v) (hw : ways[j]? = some w) (hmv : v.matches tag = true)
    (hmw : w.matches tag = true) : i = j := by
  obtain ⟨hvv, hvt⟩ := Way.matches_iff.mp hmv
  obtain ⟨hwv, hwt⟩ := Way.matches_iff.mp hmw
  by_contra hne
  exact (waysGood_getElem?_ne h hv hw hne hvv hwv).1 (hvt.trans hwt.symm)

/-- The way that a search for a tag finds. -/
theorem findIdx?_matches_eq_some {ways : List Way} {tag : BitVec 64} {w : Nat}
    (h : ways.findIdx? (·.matches tag) = some w) : ∃ way, ways[w]? = some way ∧ way.matches tag = true := by
  obtain ⟨hw, hm, -⟩ := List.findIdx?_eq_some_iff_getElem.mp h
  exact ⟨_, List.getElem?_eq_getElem hw, hm⟩

/-- The way of a miss: the first invalid one, or, when every way is valid, the one with the smallest stamp (R100,
R102). -/
theorem victimWay_spec {clock : Nat} {ways : List Way} (h : waysGood clock ways) (hne : ways ≠ []) :
    ∃ old, ways[victimWay ways]? = some old ∧
      (old.valid = false ∧ (∀ j way, j < victimWay ways → ways[j]? = some way → way.valid = true) ∨
       (∀ way ∈ ways, way.valid = true) ∧
         ∀ j way, j ≠ victimWay ways → ways[j]? = some way → old.lruStamp < way.lruStamp) := by
  cases hf : ways.findIdx? (fun w => !w.valid) with
  | some v =>
    have hvictim : victimWay ways = v := by simp only [victimWay, hf]
    obtain ⟨hv, hinvalid, hbefore⟩ := List.findIdx?_eq_some_iff_getElem.mp hf
    rw [hvictim]
    refine ⟨_, List.getElem?_eq_getElem hv, .inl ⟨by simpa using hinvalid, fun j way hj hway => ?_⟩⟩
    obtain ⟨hjl, rfl⟩ := List.getElem?_eq_some_iff.mp hway
    simpa using hbefore j hj
  | none =>
    have hvictim : victimWay ways = oldestWay ways := by simp only [victimWay, hf]
    have hvalid : ∀ way ∈ ways, way.valid = true := by simpa using hf
    have hold := List.getElem?_eq_getElem (oldestWay_lt hne)
    rw [hvictim]
    refine ⟨_, hold, .inr ⟨hvalid, fun j way hj hway => ?_⟩⟩
    have hmem := List.mem_of_getElem? hway
    have hstamp := (waysGood_getElem?_ne h hold hway hj.symm (hvalid _ (List.getElem_mem _)) (hvalid way hmem)).2
    exact lt_of_le_of_ne (oldestWay_le hold way hmem) hstamp

/-! ## A way of a cache after one set changed -/

theorem Cache.indexOf_lt_length {c : Cache} (h : c.Good) (hd : c.config.degenerate = false) (a : Word) :
    c.config.indexOf a < c.sets.length :=
  (c.shaped_iff.mp h.shaped).1 ▸ indexOf_lt c.config hd a

/-- A cache without sets has no way. -/
theorem Cache.setAt_of_degenerate {c : Cache} (h : c.Good) (hd : c.config.degenerate = true) (i : Nat) :
    c.setAt i = [] := by
  have hlength : c.sets.length = 0 := (c.shaped_iff.mp h.shaped).1.trans (beq_iff_eq.mp hd)
  simp [Cache.setAt, List.length_eq_zero_iff.mp hlength]

/-- The set that an address indexes in a good cache is good. -/
theorem Cache.waysGood_setAt {c : Cache} (h : c.Good) (hd : c.config.degenerate = false) (a : Word) :
    waysGood c.clock (c.setAt (c.config.indexOf a)) :=
  h.sets _ (Cache.setAt_mem h.shaped hd a)

/-- The set that an address indexes has a way. -/
theorem Cache.setAt_ne_nil {c : Cache} (h : c.Good) (hd : c.config.degenerate = false) (a : Word) :
    c.setAt (c.config.indexOf a) ≠ [] := by
  have hlength := (c.shaped_iff.mp h.shaped).2 _ (Cache.setAt_mem h.shaped hd a)
  exact List.ne_nil_of_length_pos (hlength ▸ ways_pos hd)

/-- A change of one set changes no other. -/
theorem Cache.setAt_of_sets_eq {c c' : Cache} {k : Nat} {ways : List Way} (h : c'.sets = c.sets.set k ways)
    (hk : k < c.sets.length) (i : Nat) : c'.setAt i = if i = k then ways else c.setAt i := by
  unfold Cache.setAt
  rw [h]
  split_ifs with hi
  · subst hi
    simp [hk]
  · simp [List.getElem?_set_ne (Ne.symm hi)]

/-- A change of one way of one set changes no other way. -/
theorem Cache.getElem?_setAt_of_sets_eq {c c' : Cache} {k w : Nat} {ways : List Way} {new : Way}
    (h : c'.sets = c.sets.set k ways) (hk : k < c.sets.length)
    (hways : ∀ j, ways[j]? = if j = w then some new else (c.setAt k)[j]?) (i j : Nat) :
    (c'.setAt i)[j]? = if i = k ∧ j = w then some new else (c.setAt i)[j]? := by
  rw [Cache.setAt_of_sets_eq h hk]
  by_cases hi : i = k
  · subst hi
    simpa using hways j
  · simp [hi]

/-! ## An access (R100 to R103) -/

/-- Settles O43: in a good set the way that holds the tag is the one the access finds. -/
theorem cacheHit : Obligations.CacheHit := by
  intro c a op w way hc hd hway hvalid htag
  have hmatch : way.matches (c.config.tagOf a) = true := Way.matches_iff.mpr ⟨hvalid, htag⟩
  rcases Cache.access_cases hd a op with ⟨w', hf, he⟩ | ⟨hf, -⟩
  · obtain ⟨way', hway', hmatch'⟩ := findIdx?_matches_eq_some hf
    obtain rfl := index_eq_of_matches (Cache.waysGood_setAt hc hd a) hway hway' hmatch hmatch'
    refine ⟨_, he, rfl, Cache.getElem?_setAt_of_sets_eq rfl (Cache.indexOf_lt_length hc hd a) fun j => ?_⟩
    by_cases hj : j = w
    · subst hj
      simp [hway]
    · simp [hj, Ne.symm hj]
  · have hno := List.findIdx?_eq_none_iff.mp hf way (List.mem_of_getElem? hway)
    exact absurd hmatch (Bool.eq_false_iff.mp hno)

/-- Settles O44: an access that finds no way installs into the victim's way. -/
theorem cacheMiss : Obligations.CacheMiss := by
  intro c a op hc hd set hnone
  have hne : set ≠ [] := Cache.setAt_ne_nil hc hd a
  rcases Cache.access_cases hd a op with ⟨w, hf, -⟩ | ⟨-, he⟩
  · obtain ⟨way, hway, hmatch⟩ := findIdx?_matches_eq_some hf
    obtain ⟨hvalid, htag⟩ := Way.matches_iff.mp hmatch
    exact absurd htag (hnone way (List.mem_of_getElem? hway) hvalid)
  · obtain ⟨old, hold, hvictim⟩ := victimWay_spec (Cache.waysGood_setAt hc hd a) hne
    refine ⟨_, _, old, he, rfl, hold, hvictim,
      Cache.getElem?_setAt_of_sets_eq rfl (Cache.indexOf_lt_length hc hd a) fun j => ?_⟩
    rw [List.getElem?_set]
    by_cases hj : victimWay set = j
    · rw [if_pos hj, if_pos hj.symm, if_pos (hj ▸ victimWay_lt hne)]
    · rw [if_neg hj, if_neg (Ne.symm hj)]

/-- After an access the indexed set has a valid way with the tag (R102). -/
theorem Cache.exists_way_access {c : Cache} (hc : c.Good) (hd : c.config.degenerate = false) (a : Word) (op : CacheOp) :
    ∃ (w : Nat) (way : Way), ((c.access a op).2.setAt (c.config.indexOf a))[w]? = some way ∧ way.valid = true ∧
      way.tag = c.config.tagOf a := by
  by_cases h : ∀ way ∈ c.setAt (c.config.indexOf a), way.valid = true → way.tag ≠ c.config.tagOf a
  · obtain ⟨c', v, old, he, -, -, -, hways⟩ := cacheMiss c a op hc hd h
    rw [he]
    exact ⟨v, _, (hways _ v).trans (if_pos ⟨rfl, rfl⟩), rfl, rfl⟩
  · push Not at h
    obtain ⟨way, hmem, hvalid, htag⟩ := h
    obtain ⟨w, hway⟩ := List.mem_iff_getElem?.mp hmem
    obtain ⟨c', he, -, hways⟩ := cacheHit c a op w way hc hd hway hvalid htag
    rw [he]
    exact ⟨w, _, (hways _ w).trans (if_pos ⟨rfl, rfl⟩), hvalid, htag⟩

/-- An access to an address just accessed hits (R102). -/
theorem Cache.access_access_hit {c : Cache} (hc : c.Good) (hd : c.config.degenerate = false) (a : Word)
    (op op' : CacheOp) : ((c.access a op).2.access a op').1 = .hit := by
  obtain ⟨w, way, hway, hvalid, htag⟩ := Cache.exists_way_access hc hd a op
  rw [← Cache.config_access c a op] at hd hway htag
  obtain ⟨c', he, -⟩ := cacheHit _ a op' w way (Cache.good_access hc a op) hd hway hvalid htag
  rw [he]

/-! ## An invalidation (R104) -/

/-- What an invalidation of a tag makes of a way. -/
def Way.invalidated (tag : BitVec 64) (way : Way) : Way :=
  if way.valid = true ∧ way.tag = tag then { way with valid := false } else way

theorem Way.not_matches_invalidated (tag : BitVec 64) (way : Way) : (way.invalidated tag).matches tag = false := by
  unfold Way.invalidated
  split_ifs with h
  · rfl
  · exact Bool.eq_false_iff.mpr (mt Way.matches_iff.mp h)

/-- The two outcomes of an invalidation in a cache that has sets (R104). -/
theorem Cache.invalidate_cases {c : Cache} (h : c.config.degenerate = false) (a : Word) :
    (∃ w, (c.setAt (c.config.indexOf a)).findIdx? (·.matches (c.config.tagOf a)) = some w ∧
      c.invalidate a = { c with
        sets := c.sets.set (c.config.indexOf a)
          ((c.setAt (c.config.indexOf a)).modify w fun way => { way with valid := false }) }) ∨
    ((c.setAt (c.config.indexOf a)).findIdx? (·.matches (c.config.tagOf a)) = none ∧ c.invalidate a = c) := by
  cases hf : (c.setAt (c.config.indexOf a)).findIdx? (·.matches (c.config.tagOf a)) with
  | none => exact .inr ⟨rfl, by simp [Cache.invalidate, h, hf]⟩
  | some w => exact .inl ⟨w, rfl, by simp [Cache.invalidate, h, hf]⟩

/-- An invalidation changes only the sets. -/
theorem Cache.invalidate_eq (c : Cache) (a : Word) : c.invalidate a = { c with sets := (c.invalidate a).sets } := by
  cases hd : c.config.degenerate with
  | true => rw [Cache.invalidate_of_degenerate hd]
  | false =>
    rcases Cache.invalidate_cases hd a with ⟨w, -, he⟩ | ⟨-, he⟩
    · rw [he]
    · rw [he]

/-- To clear the valid bit of the way that a search for a tag finds in a good set is to invalidate every way. -/
theorem modify_eq_map_invalidated {clock : Nat} {ways : List Way} {tag : BitVec 64} {w : Nat}
    (h : waysGood clock ways) (hf : ways.findIdx? (·.matches tag) = some w) :
    (ways.modify w fun way => { way with valid := false }) = ways.map (Way.invalidated tag) := by
  obtain ⟨way, hway, hmatch⟩ := findIdx?_matches_eq_some hf
  refine List.ext_getElem? fun j => ?_
  rw [List.getElem?_modify, List.getElem?_map]
  cases hj : ways[j]? with
  | none => rfl
  | some other =>
    by_cases hm : other.matches tag = true
    · obtain rfl := index_eq_of_matches h hway hj hmatch hm
      simp [Way.invalidated, Way.matches_iff.mp hm]
    · have hne : w ≠ j := by
        rintro rfl
        exact hm (Option.some.inj (hj.symm.trans hway) ▸ hmatch)
      simp [Way.invalidated, mt Way.matches_iff.mpr hm, hne]

/-- A set in which no way holds a tag has no way to invalidate. -/
theorem map_invalidated_of_findIdx?_eq_none {ways : List Way} {tag : BitVec 64}
    (hf : ways.findIdx? (·.matches tag) = none) : ways.map (Way.invalidated tag) = ways := by
  have hno := List.findIdx?_eq_none_iff.mp hf
  have hid : ∀ way ∈ ways, way.invalidated tag = id way := fun way hway =>
    if_neg (mt Way.matches_iff.mpr (Bool.eq_false_iff.mp (hno way hway)))
  rw [List.map_congr_left hid, List.map_id]

/-- The sets of a good cache after an invalidation: in the indexed set the way that holds the tag becomes invalid
(R104). -/
theorem Cache.setAt_invalidate {c : Cache} (hc : c.Good) (hd : c.config.degenerate = false) (a : Word) (i : Nat) :
    (c.invalidate a).setAt i =
      if i = c.config.indexOf a then (c.setAt i).map (Way.invalidated (c.config.tagOf a)) else c.setAt i := by
  rcases Cache.invalidate_cases hd a with ⟨w, hf, he⟩ | ⟨hf, he⟩
  · rw [he, Cache.setAt_of_sets_eq rfl (Cache.indexOf_lt_length hc hd a),
      modify_eq_map_invalidated (Cache.waysGood_setAt hc hd a) hf]
    split_ifs with hi
    · rw [hi]
    · rfl
  · rw [he]
    split_ifs with hi
    · rw [hi, map_invalidated_of_findIdx?_eq_none hf]
    · rfl

/-- The ways of a good cache after an invalidation (R104). -/
theorem Cache.getElem?_setAt_invalidate {c : Cache} (hc : c.Good) (a : Word) (i j : Nat) :
    ((c.invalidate a).setAt i)[j]? =
      ((c.setAt i)[j]?).map fun way : Way =>
        if i = c.config.indexOf a ∧ way.valid = true ∧ way.tag = c.config.tagOf a then { way with valid := false }
        else way := by
  cases hd : c.config.degenerate with
  | true => rw [Cache.invalidate_of_degenerate hd, Cache.setAt_of_degenerate hc hd]; rfl
  | false =>
    rw [Cache.setAt_invalidate hc hd]
    by_cases hi : i = c.config.indexOf a
    · simp only [hi, if_true, true_and, List.getElem?_map]
      rfl
    · simp [hi]

/-- After an invalidation no way of the indexed set holds the tag (R104). -/
theorem Cache.not_matches_invalidate {c : Cache} (hc : c.Good) (hd : c.config.degenerate = false) (a : Word) :
    ∀ way ∈ (c.invalidate a).setAt (c.config.indexOf a), way.valid = true → way.tag ≠ c.config.tagOf a := by
  rw [Cache.setAt_invalidate hc hd, if_pos rfl]
  intro way hway hvalid htag
  obtain ⟨old, -, rfl⟩ := List.mem_map.mp hway
  exact Bool.eq_false_iff.mp (Way.not_matches_invalidated _ old) (Way.matches_iff.mpr ⟨hvalid, htag⟩)

/-- An access to an address just invalidated is a miss that counts (R104). -/
theorem Cache.access_invalidate_miss {c : Cache} (hc : c.Good) (hd : c.config.degenerate = false) (a : Word)
    (op : CacheOp) :
    ((c.invalidate a).access a op).1 = .miss ∧ ((c.invalidate a).access a op).2.misses = c.misses + 1 := by
  have hnone := Cache.not_matches_invalidate hc hd a
  rw [← Cache.config_invalidate c a] at hd hnone
  obtain ⟨c', -, -, he, hc', -⟩ := cacheMiss _ a op (Cache.good_invalidate hc a) hd hnone
  rw [he]
  exact ⟨rfl, (congrArg Cache.misses hc').trans (congrArg (· + 1) (Cache.misses_invalidate c a))⟩

/-- Settles O46: a cache that has sets by the laws above; one that has none keeps its state and always misses. -/
theorem invalidatedMissesAndInstalledHits : Obligations.InvalidatedMissesAndInstalledHits := by
  intro c a op op' hc
  refine ⟨Cache.invalidate_eq c a, fun hd => Cache.invalidate_of_degenerate hd a,
    Cache.getElem?_setAt_invalidate hc a, ?_,
    fun hd => ⟨(Cache.access_invalidate_miss hc hd a op).2, Cache.access_access_hit hc hd a op op'⟩⟩
  cases hd : c.config.degenerate with
  | true => rw [Cache.invalidate_of_degenerate hd, Cache.access_of_degenerate hd]
  | false => exact (Cache.access_invalidate_miss hc hd a op).1

end Sys2Proof.Machine
end

section
/-! The proofs of the encoding family: decoding and encoding, the opcode table, the fields, flags and immediates of a
latch, and `li`. -/

namespace Sys2Proof

/-! ## Decoding inside a class (R142, R147) -/

/-- The decoding of a word of class `c` (R147), before the HALT and NOP words are looked for. -/
def decodeClass (c : OpClass) (w : Word) : Decoded :=
  match c with
  | .lui => .instr (.lui (rdOf w) (uImmOf w))
  | .auipc => .instr (.auipc (rdOf w) (uImmOf w))
  | .jal => .instr (.jal (rdOf w) (jOffsetOf w))
  | .jalr => decodeJalr w
  | .branch => decodeBranch w
  | .load => decodeLoad w
  | .store => decodeStore w
  | .opImm => decodeOpImm w
  | .op => decodeOp w
  | .system => .instr (.system (iImmOf w) (rs1Of w) (funct3Of w) (rdOf w))
  | .halt | .none => .illegal

/-- The HALT and NOP words come first (R143, R154), then the class of the major opcode. -/
theorem decodeWord_eq (w : Word) :
    decodeWord w =
      if w = Config.haltWord then .instr .halt
      else if w = Config.nopWord then .instr .nop
      else decodeClass (majorClass (opcodeOf w)) w := rfl

open Laws in
/-- The fields of every encoded instruction are those its term says. -/
theorem encodedFields (i : Instr) : EncodedFields.Statement i := by
  cases i
  exacts [EncodedFields.halt, EncodedFields.nop,
    EncodedFields.add .., EncodedFields.sub .., EncodedFields.sll .., EncodedFields.slt .., EncodedFields.sltu ..,
    EncodedFields.xor .., EncodedFields.srl .., EncodedFields.sra .., EncodedFields.or .., EncodedFields.and ..,
    EncodedFields.addi .., EncodedFields.slti .., EncodedFields.sltiu .., EncodedFields.xori .., EncodedFields.ori ..,
    EncodedFields.andi .., EncodedFields.slli .., EncodedFields.srli .., EncodedFields.srai .., EncodedFields.lui ..,
    EncodedFields.auipc .., EncodedFields.jal .., EncodedFields.jalr .., EncodedFields.beq .., EncodedFields.bne ..,
    EncodedFields.blt .., EncodedFields.bge .., EncodedFields.bltu .., EncodedFields.bgeu .., EncodedFields.lb ..,
    EncodedFields.lh .., EncodedFields.lw .., EncodedFields.lbu .., EncodedFields.lhu .., EncodedFields.sb ..,
    EncodedFields.sh .., EncodedFields.sw .., EncodedFields.system ..]

/-- The encoded word is of the instruction's class (R142); HALT's is of none (R143). -/
theorem majorClass_encode {i : Instr} (h : i ≠ .halt) : majorClass (opcodeOf (encode i)) = i.opClass :=
  (encodedFields i).1 h

theorem opClass_ne_none (i : Instr) : i.opClass ≠ .none := by
  cases i <;> simp [Instr.opClass]

/-- Only HALT has the HALT word (R143). -/
theorem encode_eq_haltWord_iff {i : Instr} : encode i = Config.haltWord ↔ i = .halt := by
  constructor
  · intro h
    by_contra hi
    have hc := majorClass_encode hi
    rw [h, majorClass_haltWord] at hc
    exact opClass_ne_none i hc.symm
  · rintro rfl; rfl

theorem encode_addi_eq_nopWord {rd rs1 : Reg} {imm : BitVec 12} (h : encode (.addi rd rs1 imm) = Config.nopWord) :
    rd = 0 ∧ rs1 = 0 ∧ imm = 0 := by
  obtain ⟨-, -, hd, h1, hi, -⟩ := nopWord_fields
  rw [← h] at hd h1 hi
  simpa [encode] using And.intro hd (And.intro h1 hi)

/-- Among well-formed instructions only NOP has the NOP word: an ADDI with its fields is not well formed (R146). -/
theorem encode_eq_nopWord_iff {i : Instr} (hwf : i.WF) : encode i = Config.nopWord ↔ i = .nop := by
  refine ⟨fun h => ?_, by rintro rfl; rfl⟩
  have hhalt : i ≠ .halt := by rintro rfl; exact absurd h (by decide)
  have hc : i.opClass = .opImm := by rw [← majorClass_encode hhalt, h]; decide
  have h3 : funct3Of (encode i) = 0#3 := by rw [h]; exact nopWord_fields.2.1
  cases i <;> simp [Instr.opClass] at hc
  case nop => rfl
  case addi rd rs1 imm =>
    obtain ⟨rfl, rfl, rfl⟩ := encode_addi_eq_nopWord h
    exact absurd hwf (by decide)
  all_goals simp [encode] at h3

theorem evenOffset_iff {n : Nat} {offset : BitVec n} : evenOffset offset = true ↔ offset.getLsbD 0 = false := by
  rw [evenOffset, Bool.not_eq_true']

/-- Decoding in its class gives an encoded instruction back. -/
theorem decodeClass_encode {i : Instr} (hwf : i.WF) (hhalt : i ≠ .halt) (hnop : i ≠ .nop) :
    decodeClass i.opClass (encode i) = .instr i := by
  cases i with
  | halt => exact absurd rfl hhalt
  | nop => exact absurd rfl hnop
  | add | sub | sll | slt | sltu | xor | srl | sra | or | and =>
    simp [decodeClass, Instr.opClass, encode, decodeOp]
  | addi | slti | sltiu | xori | ori | andi => simp [decodeClass, Instr.opClass, encode, decodeOpImm]
  | slli | srli | srai =>
    simp [decodeClass, Instr.opClass, encode, decodeOpImm, decodeShiftLeftImm, decodeShiftRightImm]
  | lui | auipc => simp [decodeClass, Instr.opClass, encode]
  | jal rd offset =>
    simp [decodeClass, Instr.opClass, encode, jOffsetOf_encodeJ _ _ _ (evenOffset_iff.mp hwf)]
  | jalr => simp [decodeClass, Instr.opClass, encode, decodeJalr]
  | beq rs1 rs2 offset | bne rs1 rs2 offset | blt rs1 rs2 offset | bge rs1 rs2 offset | bltu rs1 rs2 offset
  | bgeu rs1 rs2 offset =>
    simp [decodeClass, Instr.opClass, encode, decodeBranch, bOffsetOf_encodeB _ _ _ _ _ (evenOffset_iff.mp hwf)]
  | lb | lh | lw | lbu | lhu => simp [decodeClass, Instr.opClass, encode, decodeLoad]
  | sb | sh | sw => simp [decodeClass, Instr.opClass, encode, decodeStore]
  | system => simp [decodeClass, Instr.opClass, encode]

theorem decodeWord_encode {i : Instr} (hwf : i.WF) : decodeWord (encode i) = .instr i := by
  rw [decodeWord_eq]
  by_cases hhalt : i = .halt
  · rw [if_pos (encode_eq_haltWord_iff.mpr hhalt), hhalt]
  by_cases hnop : i = .nop
  · rw [hnop]; rfl
  rw [if_neg (mt encode_eq_haltWord_iff.mp hhalt), if_neg (mt (encode_eq_nopWord_iff hwf).mp hnop),
    majorClass_encode hhalt, decodeClass_encode hwf hhalt hnop]

/-- Settles O1: the class of an encoded instruction selects its part of the decoder, which reads every field back from its
place. -/
theorem decodeOfEncodeIsTheInstruction : Obligations.DecodeOfEncodeIsTheInstruction := by
  intro i rest hwf
  refine ⟨decodeWord_encode hwf, ?_⟩
  rw [encodeBytes, decodeBytes_bytesOfWord, decodeWord_encode hwf]

/-! ## What decodes encodes back -/

/-- An ADDI is well formed unless its fields are those of the NOP word (R146). -/
theorem wf_addi_iff {rd rs1 : Reg} {imm : BitVec 12} :
    (Instr.addi rd rs1 imm).WF ↔ ¬ ((rd = 0 ∧ rs1 = 0) ∧ imm = 0) := by
  simp [Instr.WF, Instr.wellFormed, -not_and, not_and_or]

theorem evenOffset_bOffsetOf (w : Word) : evenOffset (bOffsetOf w) = true := by
  rw [evenOffset_iff, getLsbD_bOffsetOf]; rfl

theorem evenOffset_jOffsetOf (w : Word) : evenOffset (jOffsetOf w) = true := by
  rw [evenOffset_iff, getLsbD_jOffsetOf]; rfl

/-- The major opcode of a class (R142). -/
def OpClass.majorOpcode : OpClass → BitVec 7
  | .lui => 0x37
  | .auipc => 0x17
  | .jal => 0x6F
  | .jalr => 0x67
  | .branch => 0x63
  | .load => 0x03
  | .store => 0x23
  | .opImm => 0x13
  | .op => 0x33
  | .system => 0x73
  | .halt | .none => 0

theorem opcode_eq_majorOpcode {op : BitVec 7} (h : majorClass op ≠ .none) : op = (majorClass op).majorOpcode := by
  revert h
  unfold majorClass
  split <;> simp [OpClass.majorOpcode]

theorem funct3_eq_seven {f : BitVec 3} (h0 : f ≠ 0#3) (h1 : f ≠ 1#3) (h2 : f ≠ 2#3) (h3 : f ≠ 3#3) (h4 : f ≠ 4#3)
    (h5 : f ≠ 5#3) (h6 : f ≠ 6#3) : f = 7#3 := by
  bv_omega

section classes
variable {w : Word} {i : Instr}

theorem encode_of_decodeOp (ho : opcodeOf w = 0x33#7) (h : decodeOp w = .instr i) : i.WF ∧ encode i = w := by
  have hw := encodeR_fields w
  unfold decodeOp at h
  split at h <;> cases h
  all_goals
    rename_i h7 h3
    rw [h7, h3, ho] at hw
    exact ⟨rfl, hw⟩

theorem encode_of_decodeOpImm (ho : opcodeOf w = 0x13#7) (hnop : w ≠ Config.nopWord)
    (h : decodeOpImm w = .instr i) : i.WF ∧ encode i = w := by
  have hI := encodeI_fields w
  have hR := encodeR_fields w
  unfold decodeOpImm at h
  split at h
  case h_1 h3 =>
    cases h
    rw [h3, ho] at hI
    exact ⟨wf_addi_iff.mpr fun ⟨⟨hd, h1⟩, hi⟩ => hnop (eq_nopWord_of_fields ho h3 hd h1 hi), hI⟩
  case h_2 h3 =>
    unfold decodeShiftLeftImm at h
    split at h <;> cases h
    rename_i h7
    rw [h7, h3, ho] at hR
    exact ⟨rfl, hR⟩
  case h_6 h3 =>
    unfold decodeShiftRightImm at h
    split at h <;> cases h
    all_goals
      rename_i h7
      rw [h7, h3, ho] at hR
      exact ⟨rfl, hR⟩
  case h_8 h0 h1 h2 h3 h4 h5 h6 =>
    cases h
    rw [funct3_eq_seven h0 h1 h2 h3 h4 h5 h6, ho] at hI
    exact ⟨rfl, hI⟩
  all_goals
    rename_i h3
    cases h
    rw [h3, ho] at hI
    exact ⟨rfl, hI⟩

/-- A word other than the NOP word that decodes in its class to an instruction is that instruction's word. -/
theorem encode_of_decodeClass (hnop : w ≠ Config.nopWord)
    (h : decodeClass (majorClass (opcodeOf w)) w = .instr i) : i.WF ∧ encode i = w := by
  have hclass : majorClass (opcodeOf w) ≠ .none := fun hc => by rw [hc] at h; cases h
  have ho := opcode_eq_majorOpcode hclass
  generalize majorClass (opcodeOf w) = c at h ho
  cases c with
  | halt | none => cases h
  | lui | auipc => cases h; exact ⟨rfl, (congrArg (encodeU _ _) ho.symm).trans (encodeU_fields w)⟩
  | jal => cases h; exact ⟨evenOffset_jOffsetOf w, (congrArg (encodeJ _ _) ho.symm).trans (encodeJ_fields w)⟩
  | system => cases h; exact ⟨rfl, (congrArg (encodeI _ _ _ _) ho.symm).trans (encodeI_fields w)⟩
  | jalr | load =>
    have hw := encodeI_fields w
    simp only [decodeClass, decodeJalr, decodeLoad] at h
    split at h <;> cases h
    all_goals
      rename_i h3
      rw [h3, ho] at hw
      exact ⟨rfl, hw⟩
  | store =>
    have hw := encodeS_fields w
    simp only [decodeClass, decodeStore] at h
    split at h <;> cases h
    all_goals
      rename_i h3
      rw [h3, ho] at hw
      exact ⟨rfl, hw⟩
  | branch =>
    have hw := encodeB_fields w
    simp only [decodeClass, decodeBranch] at h
    split at h <;> cases h
    all_goals
      rename_i h3
      rw [h3, ho] at hw
      exact ⟨evenOffset_bOffsetOf w, hw⟩
  | opImm => exact encode_of_decodeOpImm ho hnop h
  | op => exact encode_of_decodeOp ho h

theorem wf_and_encode_of_decodeWord (h : decodeWord w = .instr i) : i.WF ∧ encode i = w := by
  rw [decodeWord_eq] at h
  split_ifs at h with hhalt hnop
  · cases h; exact ⟨rfl, hhalt.symm⟩
  · cases h; exact ⟨rfl, hnop.symm⟩
  · exact encode_of_decodeClass hnop h

/-- The decoder and the encoder are inverse on well-formed instructions. -/
theorem decodeWord_eq_instr_iff : decodeWord w = .instr i ↔ i.WF ∧ encode i = w :=
  ⟨wf_and_encode_of_decodeWord, fun ⟨hwf, hw⟩ => hw ▸ decodeWord_encode hwf⟩

end classes

/-- Settles O2: class by class, the fields that the decoder reads are all the bits of the word. -/
theorem encodeOfDecodeIsTheWord : Obligations.EncodeOfDecodeIsTheWord :=
  fun _ _ => wf_and_encode_of_decodeWord

/-! ## The opcode table (R154) -/

/-- The name of what a word decodes to, if it is an instruction. -/
def Decoded.mnemonic? : Decoded → Option String
  | .instr i => some i.mnemonic
  | .reserved _ | .illegal => none

/-- The bits that select an instruction of class `c`: the major opcode, with `funct3` and `funct7` where R147 reads
them. -/
def selectMask (c : OpClass) (funct3 : BitVec 3) : Word :=
  match c with
  | .lui | .auipc | .jal | .system => 0x0000007F#32
  | .op => 0xFE00707F#32
  | .opImm => if funct3 = 0b001#3 ∨ funct3 = 0b101#3 then 0xFE00707F#32 else 0x0000707F#32
  | .jalr | .branch | .load | .store | .halt | .none => 0x0000707F#32

section masks
variable (w : Word) {m p : Word}

theorem opcodeOf_and (hm : opcodeOf m = .allOnes 7) : opcodeOf (w &&& m) = opcodeOf w := by
  unfold opcodeOf at hm ⊢
  rw [BitVec.extractLsb'_and, hm, BitVec.and_allOnes]

theorem funct3Of_and (hm : funct3Of m = .allOnes 3) : funct3Of (w &&& m) = funct3Of w := by
  unfold funct3Of at hm ⊢
  rw [BitVec.extractLsb'_and, hm, BitVec.and_allOnes]

theorem funct7Of_and (hm : funct7Of m = .allOnes 7) : funct7Of (w &&& m) = funct7Of w := by
  unfold funct7Of at hm ⊢
  rw [BitVec.extractLsb'_and, hm, BitVec.and_allOnes]

variable {w}

theorem opcodeOf_congr (h : w &&& m = p &&& m) (hm : opcodeOf m = .allOnes 7) : opcodeOf w = opcodeOf p := by
  rw [← opcodeOf_and w hm, h, opcodeOf_and p hm]

theorem funct3Of_congr (h : w &&& m = p &&& m) (hm : funct3Of m = .allOnes 3) : funct3Of w = funct3Of p := by
  rw [← funct3Of_and w hm, h, funct3Of_and p hm]

theorem funct7Of_congr (h : w &&& m = p &&& m) (hm : funct7Of m = .allOnes 7) : funct7Of w = funct7Of p := by
  rw [← funct7Of_and w hm, h, funct7Of_and p hm]

theorem opcodeOf_selectMask (c : OpClass) (f3 : BitVec 3) : opcodeOf (selectMask c f3) = .allOnes 7 := by
  unfold selectMask
  split
  case h_6 => split <;> decide
  all_goals decide

theorem funct3Of_selectMask {c : OpClass} (hc : c ∉ [.lui, .auipc, .jal, .system]) (f3 : BitVec 3) :
    funct3Of (selectMask c f3) = .allOnes 3 := by
  unfold selectMask
  split
  case h_1 | h_2 | h_3 | h_4 => exact absurd hc (by decide)
  case h_6 => split <;> decide
  all_goals decide

theorem funct7Of_selectMask {c : OpClass} {f3 : BitVec 3} (hc : c = .op ∨ c = .opImm ∧ (f3 = 0b001#3 ∨ f3 = 0b101#3)) :
    funct7Of (selectMask c f3) = .allOnes 7 := by
  rcases hc with rfl | ⟨rfl, hshift⟩
  · rw [selectMask]; decide
  · rw [selectMask, if_pos hshift]; decide

end masks

section congr
variable {w p : Word}

theorem mnemonic?_decodeOp_congr (h3 : funct3Of w = funct3Of p) (h7 : funct7Of w = funct7Of p) :
    (decodeOp w).mnemonic? = (decodeOp p).mnemonic? := by
  unfold decodeOp
  rw [h3, h7]
  split <;> rfl

theorem mnemonic?_decodeOpImm_congr (h3 : funct3Of w = funct3Of p)
    (h7 : funct3Of p = 0b001#3 ∨ funct3Of p = 0b101#3 → funct7Of w = funct7Of p) :
    (decodeOpImm w).mnemonic? = (decodeOpImm p).mnemonic? := by
  unfold decodeOpImm decodeShiftLeftImm decodeShiftRightImm
  rw [h3]
  split
  case h_2 h1 => rw [h7 (.inl h1)]; split <;> rfl
  case h_6 h5 => rw [h7 (.inr h5)]; split <;> rfl
  all_goals rfl

/-- Words that agree in the selecting bits of a class decode in it to the same instruction. -/
theorem mnemonic?_decodeClass_congr {c : OpClass}
    (h : w &&& selectMask c (funct3Of p) = p &&& selectMask c (funct3Of p)) :
    (decodeClass c w).mnemonic? = (decodeClass c p).mnemonic? := by
  cases c with
  | lui | auipc | jal | system | halt | none => rfl
  | jalr | branch | load | store =>
    have h3 := funct3Of_congr h (funct3Of_selectMask (by decide) _)
    simp only [decodeClass, decodeJalr, decodeBranch, decodeLoad, decodeStore, h3]
    split <;> rfl
  | op =>
    exact mnemonic?_decodeOp_congr (funct3Of_congr h (funct3Of_selectMask (by decide) _))
      (funct7Of_congr h (funct7Of_selectMask (.inl rfl)))
  | opImm =>
    exact mnemonic?_decodeOpImm_congr (funct3Of_congr h (funct3Of_selectMask (by decide) _))
      fun hshift => funct7Of_congr h (funct7Of_selectMask (.inr ⟨rfl, hshift⟩))

end congr

theorem selects_iff {r : OpcodeRow} {w : Word} : r.selects w = true ↔ w &&& r.mask = r.pattern := beq_iff_eq

/-- The mask of a row is the selecting bits of its pattern, and its pattern decodes to its own instruction. -/
theorem otherRows_decode : ∀ r ∈ otherRows,
    r.mask = selectMask (majorClass (opcodeOf r.pattern)) (funct3Of r.pattern) ∧ r.pattern &&& r.mask = r.pattern ∧
      (decodeClass (majorClass (opcodeOf r.pattern)) r.pattern).mnemonic? = some r.mnemonic := by
  decide

/-- A row that selects a word is the row of what the word decodes to in its class. -/
theorem mnemonic?_of_selects {r : OpcodeRow} {w : Word} (hr : r ∈ otherRows) (h : r.selects w = true) :
    (decodeClass (majorClass (opcodeOf w)) w).mnemonic? = some r.mnemonic := by
  obtain ⟨hm, hp, hd⟩ := otherRows_decode r hr
  have hw : w &&& r.mask = r.pattern &&& r.mask := (selects_iff.mp h).trans hp.symm
  rw [hm] at hw
  rw [opcodeOf_congr hw (opcodeOf_selectMask _ _), mnemonic?_decodeClass_congr hw, hd]

section encoded
variable (w : Word)

/-- The major opcode alone, as the mask of the U, J and SYSTEM rows leaves it. -/
theorem and_opcodeMask : w &&& 0x0000007F#32 = encodeU 0 0 (opcodeOf w) := by
  have hm : (0x0000007F#32 : Word) = encodeU 0 0 (.allOnes 7) := by decide
  apply BitVec.eq_of_getLsbD_eq
  intro k hk
  rw [BitVec.getLsbD_and, hm]
  simp only [getLsbD_encodeU, opcodeOf, BitVec.getLsbD_extractLsb', BitVec.getLsbD_allOnes]
  grind

theorem and_funct3Mask : w &&& 0x0000707F#32 = encodeI 0 0 (funct3Of w) 0 (opcodeOf w) := by
  have hm : (0x0000707F#32 : Word) = encodeI 0 0 (.allOnes 3) 0 (.allOnes 7) := by decide
  apply BitVec.eq_of_getLsbD_eq
  intro k hk
  rw [BitVec.getLsbD_and, hm]
  simp only [getLsbD_encodeI, opcodeOf, funct3Of, BitVec.getLsbD_extractLsb', BitVec.getLsbD_allOnes]
  grind

theorem and_funct7Mask : w &&& 0xFE00707F#32 = encodeR (funct7Of w) 0 0 (funct3Of w) 0 (opcodeOf w) := by
  have hm : (0xFE00707F#32 : Word) = encodeR (.allOnes 7) 0 0 (.allOnes 3) 0 (.allOnes 7) := by decide
  apply BitVec.eq_of_getLsbD_eq
  intro k hk
  rw [BitVec.getLsbD_and, hm]
  simp only [getLsbD_encodeR, opcodeOf, funct3Of, funct7Of, BitVec.getLsbD_extractLsb', BitVec.getLsbD_allOnes]
  grind

end encoded

/-- The row of an instruction other than HALT and NOP. -/
def Instr.row (i : Instr) : OpcodeRow :=
  let mask := selectMask i.opClass (funct3Of (encode i))
  ⟨i.mnemonic, encode i &&& mask, mask⟩

theorem row_selects_encode (i : Instr) : i.row.selects (encode i) = true := selects_iff.mpr rfl

theorem row_mem_otherRows {i : Instr} (hhalt : i ≠ .halt) (hnop : i ≠ .nop) : i.row ∈ otherRows := by
  cases i
  case halt => exact absurd rfl hhalt
  case nop => exact absurd rfl hnop
  all_goals
    simp [Instr.row, Instr.opClass, Instr.mnemonic, selectMask, encode, and_opcodeMask, and_funct3Mask, and_funct7Mask]
    decide

/-- Two rows that no word fits: their patterns differ in a bit that both masks hold. -/
def OpcodeRow.disjoint (r r' : OpcodeRow) : Prop := r.pattern &&& r'.mask ≠ r'.pattern &&& r.mask

theorem not_selects_of_disjoint {r r' : OpcodeRow} {w : Word} (hd : r.disjoint r') (h : r.selects w = true) :
    r'.selects w ≠ true := by
  intro h'
  apply hd
  rw [← selects_iff.mp h, ← selects_iff.mp h', BitVec.and_assoc, BitVec.and_assoc, BitVec.and_comm r.mask]

theorem otherRows_disjoint : otherRows.Pairwise OpcodeRow.disjoint := by
  unfold OpcodeRow.disjoint
  decide

/-- At most one row other than HALT and NOP selects a word (R154). -/
theorem selected_length_le_one (w : Word) : (otherRows.filter (·.selects w)).length ≤ 1 := by
  have hp := otherRows_disjoint.filter (·.selects w)
  have hsel : ∀ r ∈ otherRows.filter (·.selects w), r.selects w = true := fun r hr => (List.mem_filter.mp hr).2
  generalize otherRows.filter (·.selects w) = rows at hp hsel
  match rows with
  | [] | [r] => simp
  | r :: r' :: rest =>
    have hr' := not_selects_of_disjoint (List.rel_of_pairwise_cons hp List.mem_cons_self) (hsel r (by simp))
    exact absurd (hsel r' (by simp)) hr'

/-- The row of what a word decodes to in its class selects the word. -/
theorem row_of_decodeClass {w : Word} {i : Instr} (hnop : w ≠ Config.nopWord)
    (h : decodeClass (majorClass (opcodeOf w)) w = .instr i) : i.row ∈ otherRows ∧ i.row.selects w = true := by
  obtain ⟨-, rfl⟩ := encode_of_decodeClass hnop h
  refine ⟨row_mem_otherRows ?_ ?_, row_selects_encode i⟩
  · rintro rfl
    exact absurd h (by decide)
  · rintro rfl
    exact hnop rfl

/-- The first other row that selects a word, if it is not the NOP word, is the row of what it decodes to in its class. -/
theorem find?_otherRows {w : Word} (hnop : w ≠ Config.nopWord) :
    (otherRows.find? (·.selects w)).map (·.mnemonic) = (decodeClass (majorClass (opcodeOf w)) w).mnemonic? := by
  cases hf : otherRows.find? (·.selects w) with
  | some r =>
    have hsel : r.selects w = true := List.find?_some (p := fun r : OpcodeRow => r.selects w) hf
    exact (mnemonic?_of_selects (List.mem_of_find?_eq_some hf) hsel).symm
  | none =>
    cases hd : decodeClass (majorClass (opcodeOf w)) w with
    | reserved | illegal => rfl
    | instr i =>
      obtain ⟨hmem, hsel⟩ := row_of_decodeClass hnop hd
      exact absurd hsel (List.find?_eq_none.mp hf _ hmem)

/-- The HALT and NOP rows select no other word. -/
theorem find?_wholeWordRows {w : Word} (hhalt : w ≠ Config.haltWord) (hnop : w ≠ Config.nopWord) :
    wholeWordRows.find? (·.selects w) = none := by
  have hmask : w &&& 0xFFFFFFFF#32 = w := BitVec.and_allOnes
  refine List.find?_eq_none.mpr fun r hr hsel => ?_
  have hw := selects_iff.mp hsel
  simp only [wholeWordRows, List.mem_cons, List.not_mem_nil, or_false] at hr
  rcases hr with rfl | rfl
  · exact hhalt (hmask.symm.trans hw)
  · exact hnop (hmask.symm.trans hw)

theorem selectedMnemonic_eq (w : Word) :
    ((wholeWordRows ++ otherRows).find? (·.selects w)).map (·.mnemonic) = (decodeWord w).mnemonic? := by
  rw [decodeWord_eq]
  split_ifs with hhalt hnop
  · rw [hhalt]; decide
  · rw [hnop]; decide
  · rw [List.find?_append, find?_wholeWordRows hhalt hnop, Option.none_or, find?_otherRows hnop]

/-- Settles O3: a row that selects a word is the row of what the word decodes to, and different rows are disjoint. -/
theorem opcodeTableRowsSelectWhatDecodes : Obligations.OpcodeTableRowsSelectWhatDecodes := by
  intro w
  refine ⟨(selectedMnemonic_eq w).trans ?_, selected_length_le_one w⟩
  cases decodeWord w <;> rfl

/-! ## Illegal and RESERVED words (R148, R149) -/

theorem majorClass_eq_none_iff {op : BitVec 7} : majorClass op = .none ↔
    op ∉ [0x37#7, 0x17#7, 0x6F#7, 0x67#7, 0x63#7, 0x03#7, 0x23#7, 0x13#7, 0x33#7, 0x73#7] := by
  revert op
  decide

theorem majorClass_ne_halt (op : BitVec 7) : majorClass op ≠ .halt := by
  unfold majorClass
  split <;> simp

/-- A word of a listed class decodes in it to an instruction, or its function fields are unassigned (R149). -/
theorem decodeClass_of_listed {c : OpClass} (hhalt : c ≠ .halt) (hnone : c ≠ .none) (w : Word) :
    (∃ i, decodeClass c w = .instr i) ∨ decodeClass c w = .reserved c := by
  cases c with
  | halt => exact absurd rfl hhalt
  | none => exact absurd rfl hnone
  | lui | auipc | jal | system => exact .inl ⟨_, rfl⟩
  | jalr | branch | load | store | op =>
    simp only [decodeClass, decodeJalr, decodeBranch, decodeLoad, decodeStore, decodeOp]
    split <;> simp
  | opImm =>
    simp only [decodeClass, decodeOpImm, decodeShiftLeftImm, decodeShiftRightImm]
    split
    case h_2 | h_6 => split <;> simp
    all_goals simp

section unassigned
variable {w : Word}

/-- A word is illegal exactly when it is not the HALT word and its major opcode is of no class (R148). -/
theorem decodeWord_eq_illegal_iff :
    decodeWord w = .illegal ↔ w ≠ Config.haltWord ∧ majorClass (opcodeOf w) = .none := by
  rw [decodeWord_eq]
  split_ifs with hhalt hnop
  · simp [hhalt]
  · rw [hnop]; decide
  by_cases hc : majorClass (opcodeOf w) = .none
  · simp [hc, hhalt, decodeClass]
  · rcases decodeClass_of_listed (majorClass_ne_halt _) hc w with ⟨i, hi⟩ | hr
    · simp [hi, hc]
    · simp [hr, hc]

/-- A word is RESERVED exactly when it is of a listed class and no row of the table selects it (R149). -/
theorem decodeWord_reserved_iff :
    (∃ c, decodeWord w = .reserved c) ↔
      majorClass (opcodeOf w) ≠ .none ∧ ∀ r ∈ otherRows, r.selects w = false := by
  rw [decodeWord_eq]
  split_ifs with hhalt hnop
  · simp [hhalt, majorClass_haltWord]
  · have haddi : ¬ ∀ r ∈ otherRows, r.selects w = false := by rw [hnop]; decide
    simp [haddi]
  have hfind := find?_otherRows hnop
  by_cases hc : majorClass (opcodeOf w) = .none
  · simp [hc, decodeClass]
  rcases decodeClass_of_listed (majorClass_ne_halt _) hc w with ⟨i, hi⟩ | hr
  · obtain ⟨hmem, hsel⟩ := row_of_decodeClass hnop hi
    simp only [hi, reduceCtorEq, exists_false, false_iff, not_and]
    exact fun _ h => absurd hsel (by simp [h _ hmem])
  · rw [hr] at hfind ⊢
    have hnone : otherRows.find? (·.selects w) = none := Option.map_eq_none_iff.mp hfind
    exact ⟨fun _ => ⟨hc, fun r hmem => by simpa using List.find?_eq_none.mp hnone r hmem⟩, fun _ => ⟨_, rfl⟩⟩

/-- Every listed major opcode ends in `11` (R148). -/
theorem majorClass_eq_none_of_low_bits (h : w.extractLsb' 0 2 ≠ 0b11#2) : majorClass (opcodeOf w) = .none := by
  have hlow : ∀ op : BitVec 7, majorClass op ≠ .none → op.extractLsb' 0 2 = 0b11#2 := by decide
  have hw : (opcodeOf w).extractLsb' 0 2 = w.extractLsb' 0 2 := by
    apply BitVec.eq_of_getLsbD_eq
    intro k hk
    simp only [opcodeOf, BitVec.getLsbD_extractLsb']
    grind
  by_contra hc
  exact h (hw ▸ hlow _ hc)

end unassigned

/-- Settles O4: `majorClass` answers `none` exactly off the list of the ten opcodes. -/
theorem illegalAndReservedWords : Obligations.IllegalAndReservedWords := by
  intro w
  have hlisted := majorClass_eq_none_iff (op := opcodeOf w)
  refine ⟨?_, ?_, fun hhalt hlow => ?_⟩
  · rw [← hlisted]; exact decodeWord_eq_illegal_iff
  · rw [← not_iff_comm.mp hlisted.symm]; exact decodeWord_reserved_iff
  · exact decodeWord_eq_illegal_iff.mpr ⟨hhalt, majorClass_eq_none_of_low_bits hlow⟩

end Sys2Proof

namespace Sys2Proof.Machine

/-! ## The latch that decoding makes (R131, R144 to R146) -/

section latch
variable {raw : Word} (pc : Word) (st : Status)

/-- A register field that the instruction's term fixes is the bits of the word, and so is one it does not fix. -/
theorem regFields_of_decodeWord {i : Instr} (h : decodeWord raw = .instr i) :
    i.regFields.rs1.getD (rs1Of raw) = rs1Of raw ∧ i.regFields.rs2.getD (rs2Of raw) = rs2Of raw ∧
      i.regFields.rd.getD (rdOf raw) = rdOf raw := by
  obtain ⟨-, hraw⟩ := wf_and_encode_of_decodeWord h
  obtain ⟨-, hrs1, hrs2, hrd⟩ := encodedFields i
  rw [hraw] at hrs1 hrs2 hrd
  have hgetD : ∀ (o : Option Reg) (r : Reg), (∀ r', o = some r' → r = r') → o.getD r = r := by
    intro o r hr
    cases o with
    | none => rfl
    | some r' => exact (hr r' rfl).symm
  exact ⟨hgetD _ _ hrs1, hgetD _ _ hrs2, hgetD _ _ hrd⟩

theorem registers_decodeLatch (raw : Word) :
    (decodeLatch raw pc st).rs1 = rs1Of raw ∧ (decodeLatch raw pc st).rs2 = rs2Of raw ∧
      (decodeLatch raw pc st).rd = rdOf raw := by
  cases h : decodeWord raw with
  | instr i => rw [decodeLatch_instr h]; exact regFields_of_decodeWord h
  | reserved c => rw [decodeLatch_reserved h]; exact ⟨rfl, rfl, rfl⟩
  | illegal => rw [decodeLatch_illegal h]; exact ⟨rfl, rfl, rfl⟩

theorem decodeWord_eq_halt_iff : decodeWord raw = .instr .halt ↔ raw = Config.haltWord :=
  decodeWord_eq_instr_iff.trans ⟨fun h => h.2.symm, fun h => ⟨rfl, h.symm⟩⟩

theorem decodeWord_eq_nop_iff : decodeWord raw = .instr .nop ↔ raw = Config.nopWord :=
  decodeWord_eq_instr_iff.trans ⟨fun h => h.2.symm, fun h => ⟨rfl, h.symm⟩⟩

theorem isNop_decodeLatch (raw : Word) : (decodeLatch raw pc st).isNop = true ↔ raw = Config.nopWord := by
  rw [← decodeWord_eq_nop_iff]
  cases h : decodeWord raw with
  | instr i => simp [decodeLatch_instr h, latchOf]
  | reserved c => simp [decodeLatch_reserved h, latchOfNoInstr]
  | illegal => simp [decodeLatch_illegal h, latchOfNoInstr]

theorem isHalt_decodeLatch (raw : Word) : (decodeLatch raw pc st).isHalt = true ↔ raw = Config.haltWord := by
  rw [← decodeWord_eq_halt_iff]
  cases h : decodeWord raw with
  | instr i => simp [decodeLatch_instr h, latchOf]
  | reserved c => simp [decodeLatch_reserved h, latchOfNoInstr]
  | illegal => simp [decodeLatch_illegal h, latchOfNoInstr]

theorem isLegal_decodeLatch (raw : Word) : (decodeLatch raw pc st).isLegal = false ↔ decodeWord raw = .illegal := by
  cases h : decodeWord raw with
  | instr i => simp [decodeLatch_instr h]
  | reserved c => simp [decodeLatch_reserved h, latchOfNoInstr]
  | illegal => simp [decodeLatch_illegal h, latchOfNoInstr]

/-- A word with unassigned function fields is RESERVED in the class of its major opcode (R149). -/
theorem class_of_reserved {c : OpClass} (h : decodeWord raw = .reserved c) :
    raw ≠ Config.haltWord ∧ majorClass (opcodeOf raw) = c := by
  rw [decodeWord_eq] at h
  split_ifs at h with hhalt hnop
  by_cases hc : majorClass (opcodeOf raw) = .none
  · rw [hc] at h; cases h
  rcases decodeClass_of_listed (majorClass_ne_halt _) hc raw with ⟨i, hi⟩ | hr
  · rw [hi] at h; cases h
  · rw [hr] at h; exact ⟨hhalt, Decoded.reserved.inj h⟩

theorem opcode_decodeLatch (raw : Word) : (decodeLatch raw pc st).opcode =
    if raw = Config.haltWord then .halt else majorClass (opcodeOf raw) := by
  cases h : decodeWord raw with
  | instr i =>
    rw [decodeLatch_instr h, opcode_latchOf]
    obtain ⟨-, rfl⟩ := wf_and_encode_of_decodeWord h
    by_cases hi : i = .halt
    · rw [hi]; rfl
    · rw [if_neg (mt encode_eq_haltWord_iff.mp hi), majorClass_encode hi]
  | reserved c =>
    obtain ⟨hhalt, hc⟩ := class_of_reserved h
    rw [decodeLatch_reserved h, if_neg hhalt, hc]
    rfl
  | illegal =>
    obtain ⟨hhalt, hc⟩ := decodeWord_eq_illegal_iff.mp h
    rw [decodeLatch_illegal h, if_neg hhalt, hc]
    rfl

theorem values_decodeLatch (raw : Word) :
    (decodeLatch raw pc st).op1Val = 0 ∧ (decodeLatch raw pc st).op2Val = 0 ∧ (decodeLatch raw pc st).aluResult = 0 ∧
      (decodeLatch raw pc st).memAddr = 0 ∧ (decodeLatch raw pc st).memResult = 0 := by
  unfold decodeLatch
  split <;> exact ⟨rfl, rfl, rfl, rfl, rfl⟩

/-- The six flags of a latch. -/
def Latch.flags (l : Latch) : ControlFlags :=
  ⟨l.readsRs1, l.readsRs2, l.writesRd, l.readsMem, l.writesMem, l.doesArith⟩

/-- The flags are those of the latch's class (R145). -/
theorem flags_decodeLatch (raw : Word) :
    (decodeLatch raw pc st).flags =
      controlFlags (decodeLatch raw pc st).opcode (decodeLatch raw pc st).isNop := by
  unfold decodeLatch
  split <;> rfl

end latch

/-- Settles O6: field by field, by what the word decodes to. -/
theorem decodeSetsTheLatchFields : Obligations.DecodeSetsTheLatchFields := by
  intro raw pc st
  obtain ⟨hrs1, hrs2, hrd⟩ := registers_decodeLatch pc st raw
  exact ⟨raw_decodeLatch .., pc_decodeLatch .., nextPc_decodeLatch .., status_decodeLatch .., hrs1, hrs2, hrd,
    isNop_decodeLatch .., isHalt_decodeLatch .., isLegal_decodeLatch .., opcode_decodeLatch .., values_decodeLatch ..⟩

/-- The table of R145 column by column, for a class and for the second OP_IMM row. -/
theorem controlFlags_columns (c : OpClass) (isNop : Bool) (h : isNop = true → c = .opImm) :
    let f := controlFlags c isNop
    (f.readsRs1 = true ↔ c ∈ [.jalr, .branch, .load, .store, .opImm, .op]) ∧
    (f.readsRs2 = true ↔ c ∈ [.branch, .store, .op]) ∧
    (f.writesRd = true ↔ c ∈ [.lui, .auipc, .jal, .jalr, .load, .opImm, .op] ∧ isNop ≠ true) ∧
    (f.readsMem = true ↔ c = .load) ∧
    (f.writesMem = true ↔ c = .store) ∧
    (f.doesArith = true ↔ c ∈ [.lui, .auipc, .jal, .jalr, .opImm, .op] ∧ isNop ≠ true) := by
  cases isNop with
  | true => rw [h rfl]; decide
  | false => cases c <;> decide

/-- Settles O7: the columns of the table, read at the class and the NOP flag of the latch. -/
theorem controllerFlagsOfEveryClass : Obligations.ControllerFlagsOfEveryClass := by
  intro raw pc st
  have hflags := flags_decodeLatch pc st raw
  have hnop := isNop_decodeLatch pc st raw
  have hcols := controlFlags_columns (decodeLatch raw pc st).opcode (decodeLatch raw pc st).isNop fun h => by
    rw [opcode_decodeLatch, hnop.mp h]; rfl
  rw [← hflags] at hcols
  simp only [ne_eq, hnop] at hcols
  exact hcols

/-! ## Immediates (R137 to R141) -/

section immediates
variable {i : Instr}

/-- The I-immediate, also of NOP, whose twelve bits are 0 (R137). -/
theorem imm_of_iType (hc : i.opClass = .opImm ∨ i.opClass = .load ∨ i.opClass = .jalr ∨ i.opClass = .system)
    (hshift : ¬ (i.opClass = .opImm ∧ (funct3Of (encode i) = 0b001#3 ∨ funct3Of (encode i) = 0b101#3))) :
    i.imm = (iImmOf (encode i)).signExtend 32 := by
  cases i <;> simp [Instr.opClass] at hc
  case nop => decide
  case slli | srli | srai => exact absurd hshift (by simp [Instr.opClass, encode])
  all_goals simp [Instr.imm, encode]

/-- The immediate of a shift is its amount, the bits of `rs2` (R138). -/
theorem imm_of_shift (hc : i.opClass = .opImm)
    (h3 : funct3Of (encode i) = 0b001#3 ∨ funct3Of (encode i) = 0b101#3) :
    i.imm = (rs2Of (encode i)).zeroExtend 32 := by
  cases i <;> simp [Instr.opClass] at hc
  case slli | srli | srai => simp [Instr.imm, encode]
  case nop => exact absurd h3 (by decide)
  all_goals simp [encode] at h3

theorem imm_of_store (hc : i.opClass = .store) : i.imm = (sImmOf (encode i)).signExtend 32 := by
  cases i <;> simp [Instr.opClass] at hc
  all_goals simp [Instr.imm, encode]

theorem imm_of_branch (hwf : i.WF) (hc : i.opClass = .branch) : i.imm = (bOffsetOf (encode i)).signExtend 32 := by
  cases i <;> simp [Instr.opClass] at hc
  all_goals simp [Instr.imm, encode, bOffsetOf_encodeB _ _ _ _ _ (evenOffset_iff.mp hwf)]

theorem imm_of_upper (hc : i.opClass = .lui ∨ i.opClass = .auipc) : i.imm = uImmOf (encode i) ++ 0#12 := by
  cases i <;> simp [Instr.opClass] at hc
  all_goals simp [Instr.imm, encode]

theorem imm_of_jal (hwf : i.WF) (hc : i.opClass = .jal) : i.imm = (jOffsetOf (encode i)).signExtend 32 := by
  cases i <;> simp [Instr.opClass] at hc
  simp [Instr.imm, encode, jOffsetOf_encodeJ _ _ _ (evenOffset_iff.mp hwf)]

theorem imm_of_no_immediate (hc : i.opClass = .op ∨ i.opClass = .halt) : i.imm = 0 := by
  cases i <;> simp [Instr.opClass] at hc
  all_goals rfl

end immediates

section bits
variable (w : Word)

theorem getLsbD_signExtend_iImmOf {k : Nat} (hk : k < 32) :
    ((iImmOf w).signExtend 32).getLsbD k = if k < 11 then w.getLsbD (k + 20) else w.getLsbD 31 := by
  rw [BitVec.getLsbD_signExtend, BitVec.msb_eq_getLsbD_last]
  simp only [iImmOf, BitVec.getLsbD_extractLsb']
  grind

theorem getLsbD_signExtend_sImmOf {k : Nat} (hk : k < 32) :
    ((sImmOf w).signExtend 32).getLsbD k =
      if k < 5 then w.getLsbD (k + 7) else if k < 11 then w.getLsbD (k + 20) else w.getLsbD 31 := by
  rw [BitVec.getLsbD_signExtend, BitVec.msb_eq_getLsbD_last]
  simp only [getLsbD_sImmOf]
  grind

theorem getLsbD_signExtend_bOffsetOf {k : Nat} (hk : k < 32) :
    ((bOffsetOf w).signExtend 32).getLsbD k =
      if k = 0 then false else if k < 5 then w.getLsbD (k + 7) else if k < 11 then w.getLsbD (k + 20)
      else if k = 11 then w.getLsbD 7 else w.getLsbD 31 := by
  rw [BitVec.getLsbD_signExtend, BitVec.msb_eq_getLsbD_last]
  simp only [getLsbD_bOffsetOf]
  grind

theorem getLsbD_signExtend_jOffsetOf {k : Nat} (hk : k < 32) :
    ((jOffsetOf w).signExtend 32).getLsbD k =
      if k = 0 then false else if k < 11 then w.getLsbD (k + 20) else if k = 11 then w.getLsbD 20
      else if k < 20 then w.getLsbD k else w.getLsbD 31 := by
  rw [BitVec.getLsbD_signExtend, BitVec.msb_eq_getLsbD_last]
  simp only [getLsbD_jOffsetOf]
  grind

theorem toNat_zeroExtend_rs2Of : ((rs2Of w).zeroExtend 32).toNat = w.toNat / 2 ^ 20 % 32 := by
  rw [rs2Of, BitVec.toNat_setWidth, BitVec.extractLsb'_toNat, Nat.shiftRight_eq_div_pow]
  omega

theorem toNat_uImmOf_append : (uImmOf w ++ 0#12).toNat = w.toNat / 2 ^ 12 * 2 ^ 12 := by
  have hw := w.isLt
  rw [toNat_append_eq_add, uImmOf, BitVec.extractLsb'_toNat, Nat.shiftRight_eq_div_pow]
  simp
  omega

end bits

theorem imm_decodeLatch_eq_zero {raw : Word} (h : ∀ i, decodeWord raw ≠ .instr i) (pc : Word) (st : Status) :
    (decodeLatch raw pc st).imm = 0 := by
  unfold decodeLatch
  split
  next i hi => exact absurd hi (h i)
  all_goals rfl

/-- Settles O8: the immediate of each format as a field of the word, and the bits of that field. -/
theorem immediatesOfEveryFormat : Obligations.ImmediatesOfEveryFormat := by
  intro raw pc st
  refine ⟨fun h => imm_decodeLatch_eq_zero h pc st, fun i hi => ?_⟩
  have himm : (decodeLatch raw pc st).imm = i.imm := by rw [decodeLatch_instr hi]; rfl
  obtain ⟨hwf, rfl⟩ := wf_and_encode_of_decodeWord hi
  rw [himm]
  refine ⟨fun hc k hk => ?_, fun ⟨hc, h3⟩ => ?_, fun hc k hk => ?_, fun hc k hk => ?_, fun hc => ?_, fun hc k hk => ?_,
    imm_of_no_immediate⟩
  · have hi : i.imm = (iImmOf (encode i)).signExtend 32 := by
      rcases hc with ⟨hc, hshift⟩ | hc
      · exact imm_of_iType (.inl hc) hshift
      · exact imm_of_iType (.inr hc) fun h => by simp [h.1] at hc
    rw [hi, getLsbD_signExtend_iImmOf _ hk]
  · rw [imm_of_shift hc h3, toNat_zeroExtend_rs2Of]
  · rw [imm_of_store hc, getLsbD_signExtend_sImmOf _ hk]
  · rw [imm_of_branch hwf hc, getLsbD_signExtend_bOffsetOf _ hk]
  · rw [imm_of_upper hc, toNat_uImmOf_append]
  · rw [imm_of_jal hwf hc, getLsbD_signExtend_jOffsetOf _ hk]

/-- Settles O5: each word is evaluated. -/
theorem exampleWordsDecode : Obligations.ExampleWordsDecode := by
  unfold Obligations.ExampleWordsDecode
  decide

/-! ## An instruction that computes, alone in the pipe (R170, R172) -/

/-- The instruction `i` in ID at `s.pc`, live, its operands captured from the register file (R144, R357). -/
def State.decodedAlone (s : State) (i : Instr) (raw : Word) : Latch := s.capture (latchOf i raw s.pc .normal)

theorem enterId_alone (i : Instr) (raw : Word) (s : State) :
    enterId i (s.alone raw) = (s.alone raw).setNewID (s.decodedAlone i raw) := by
  have hID : (s.alone raw).work.new.ID = decodeLatch raw s.pc .normal := rfl
  simp only [enterId, hID, raw_decodeLatch, pc_decodeLatch, status_decodeLatch]
  rfl

/-- The commit of a latch that writes a register (R333, R334). -/
theorem commit_with_work (s : State) (w : Work) (hw : w.new.WB.writesRd = true) :
    commit { s with work := w } =
      { s.writeReg w.new.WB.rd w.new.WB.writeValue with
        dynamicInstructions := s.dynamicInstructions + 1
        work := { w with haltNow := w.new.WB.isHalt } } := by
  simp only [commit, hw, if_true, State.writeReg]
  split <;> rfl

/-- The classes of the instructions that compute a value in EX and write it at WB (R170). -/
def isComputeClass (c : OpClass) : Prop := c = .op ∨ c = .opImm ∨ c = .lui ∨ c = .auipc

/-- What WB reads of the latch of a computing instruction: it writes a register, and not from memory, and halts
nothing (R145, R333). -/
theorem flags_of_compute {i : Instr} (hc : isComputeClass i.opClass) (hnop : i ≠ .nop) (raw pc : Word) (st : Status) :
    (latchOf i raw pc st).writesRd = true ∧ (latchOf i raw pc st).readsMem = false ∧
      (latchOf i raw pc st).isHalt = false := by
  have hhalt : i ≠ .halt := by rintro rfl; simp [Instr.opClass, isComputeClass] at hc
  have hflags : (controlFlags i.opClass false).writesRd = true ∧ (controlFlags i.opClass false).readsMem = false := by
    rcases hc with h | h | h | h <;> rw [h] <;> exact ⟨rfl, rfl⟩
  simpa [latchOf, beq_eq_false_iff_ne.mpr hnop, hhalt] using hflags

/-- The working values when a latch `d` has come alone through ID, EX and MEM with the ALU result `v`. -/
def Work.beforeCommit (d : Latch) (v : Word) : Work :=
  let e := { d with aluResult := v }
  { Work.rest with stage := .writeback, new := { Work.rest.new with ID := d, EX := e, MEM := e, WB := e } }

theorem toWriteback_alone (s : State) (raw : Word) (d : Latch) (v : Word) :
    (setAluResult v ((s.alone raw).setNewID d).toExecute).toMemory.toWriteback =
      { s with work := Work.beforeCommit d v } := by
  simp only [State.toWriteback, State.toMemory, State.toExecute, setAluResult, State.alone, State.setNewID,
    State.setNewEX, State.setNewMEM, State.setNewWB, State.atStage, Work.beforeCommit]

/-- The commit of a latch that came alone, writes a register and reads no memory. -/
theorem committed_alone (s : State) {d : Latch} (v : Word) (hwrites : d.writesRd = true)
    (hreads : d.readsMem = false) (hhalt : d.isHalt = false) :
    Committed s (commit { s with work := Work.beforeCommit d v }) d.rd v none := by
  have hvalue : (Work.beforeCommit d v).new.WB.writeValue = v := by
    simp [Work.beforeCommit, Latch.writeValue, hreads]
  rw [commit_with_work s _ hwrites, hvalue]
  exact ⟨rfl, rfl, rfl, rfl, hhalt⟩

/-- An instruction that computes, alone, completes and does nothing but write its ALU result. -/
theorem writesAlone_of_compute {i : Instr} (raw : Word) (s : State) (hc : isComputeClass i.opClass) (hnop : i ≠ .nop) :
    WritesAlone i raw s (s.decodedAlone i raw).rd (aluValue (s.decodedAlone i raw)) := by
  have hs : i.opClass ≠ .system := fun h => by simp [h, isComputeClass] at hc
  have hl : i.opClass ≠ .load := fun h => by simp [h, isComputeClass] at hc
  have ht : i.opClass ≠ .store := fun h => by simp [h, isComputeClass] at hc
  obtain ⟨hwrites, hreads, hhalt⟩ := flags_of_compute hc hnop raw s.pc .normal
  have hdecode : exec i (s.alone raw) = .next ((s.alone raw).setNewID (s.decodedAlone i raw)) := by
    rw [exec_at_decode i rfl, if_neg (fun h => hs h.1), enterId_alone]
  have hexecute : exec i ((s.alone raw).setNewID (s.decodedAlone i raw)).toExecute =
      .next (setAluResult (aluValue (s.decodedAlone i raw)) ((s.alone raw).setNewID (s.decodedAlone i raw)).toExecute) :=
    exec_at_execute_value rfl hc rfl
  refine ⟨_, ⟨_, _, _, hdecode, hexecute, exec_at_memory_other rfl hl ht hs, ?_⟩,
    committed_alone s (aluValue (s.decodedAlone i raw)) hwrites hreads hhalt, ?_⟩
  · rw [toWriteback_alone, exec_at_writeback i rfl, if_neg hs]
  · rw [commit_with_work s _ hwrites]
    rfl

/-! ## `li` (R153) -/

theorem writesAlone_addi (rd rs1 : Reg) (imm : BitVec 12) (raw : Word) (s : State) :
    WritesAlone (.addi rd rs1 imm) raw s rd (s.readReg rs1 + imm.signExtend 32) :=
  writesAlone_of_compute raw s (.inr (.inl rfl)) (by simp)

theorem writesAlone_lui (rd : Reg) (imm : BitVec 20) (raw : Word) (s : State) :
    WritesAlone (.lui rd imm) raw s rd (imm ++ 0#12) :=
  writesAlone_of_compute raw s (.inr (.inr (.inl rfl))) (by simp)

/-- The registers after one commit. -/
theorem Committed.readReg {s s' : State} {rd : Reg} {v : Word} {t : Option Word} (h : Committed s s' rd v t) (r : Reg) :
    s'.readReg r = if r = rd ∧ rd ≠ 0 then v else s.readReg r := by
  rw [h.state, ← readReg_writeReg]
  rfl

/-- An instruction that only writes register 0 leaves every register (R32). -/
theorem WritesAlone.keeps_registers {i : Instr} {raw : Word} {s : State} {v : Word} (h : WritesAlone i raw s 0 v) :
    ∃ s', ExecAlone i raw s s' ∧ ∀ r, s'.readReg r = s.readReg r := by
  obtain ⟨s', halone, hcommit, -⟩ := h
  exact ⟨s', halone, fun r => by rw [hcommit.readReg, if_neg fun h => h.2 rfl]⟩

theorem toNat_signExtend_low (imm : Word) : ((imm.extractLsb' 0 12).signExtend 32).toNat =
    imm.toNat % 4096 + if 2048 ≤ imm.toNat % 4096 then 2 ^ 32 - 4096 else 0 := by
  rw [BitVec.toNat_signExtend, BitVec.toNat_setWidth, BitVec.msb_eq_decide, BitVec.extractLsb'_toNat]
  simp
  omega

/-- An immediate of 12 signed bits is its own low half, extended. -/
theorem signExtend_low_of_small {imm : Word} (h : -2048 ≤ imm.toInt ∧ imm.toInt ≤ 2047) :
    (imm.extractLsb' 0 12).signExtend 32 = imm := by
  have hlt := imm.isLt
  rw [BitVec.toInt_eq_toNat_cond] at h
  apply BitVec.eq_of_toNat_eq
  rw [toNat_signExtend_low]
  split_ifs at h ⊢ <;> omega

/-- The upper part, rounded by the sign of the low half, and the low half, extended, make the immediate. -/
theorem upper_add_signExtend_low (imm : Word) :
    (imm + 0x800#32).extractLsb' 12 20 ++ 0#12 + (imm.extractLsb' 0 12).signExtend 32 = imm := by
  have hlt := imm.isLt
  apply BitVec.eq_of_toNat_eq
  rw [BitVec.toNat_add, toNat_append_eq_add, BitVec.extractLsb'_toNat, BitVec.toNat_add, toNat_signExtend_low,
    Nat.shiftRight_eq_div_pow]
  simp
  split_ifs <;> omega

/-- Settles O12: the low half of the immediate, added to 0 or to the upper part that LUI left in `x[rd]`. -/
theorem loadImmediatePseudoLoadsItsValue : Obligations.LoadImmediatePseudoLoadsItsValue := by
  intro rd imm s
  refine ⟨fun hrd => ?_, ?_⟩
  · have hwf : ∀ (rs1 : Reg) (low : BitVec 12), (Instr.addi rd rs1 low).WF := fun _ _ =>
      wf_addi_iff.mpr fun h => hrd h.1.1
    by_cases hsmall : -2048 ≤ imm.toInt ∧ imm.toInt ≤ 2047
    · refine .inl ⟨_, if_pos hsmall, hwf _ _, ?_⟩
      have hw := writesAlone_addi rd 0 (imm.extractLsb' 0 12) (encode (.addi rd 0 (imm.extractLsb' 0 12))) s
      rwa [readReg_zero, signExtend_low_of_small hsmall, zero_add] at hw
    · obtain ⟨s', halone, hcommit, -⟩ := writesAlone_lui rd ((imm + 0x800#32).extractLsb' 12 20)
        (encode (.lui rd ((imm + 0x800#32).extractLsb' 12 20))) s
      refine .inr ⟨_, _, s', if_neg hsmall, rfl, hwf _ _, halone, ?_, fun r hr => ?_⟩
      · have hw := writesAlone_addi rd rd (imm.extractLsb' 0 12) (encode (.addi rd rd (imm.extractLsb' 0 12))) s'
        rwa [hcommit.readReg, if_pos ⟨rfl, hrd⟩, upper_add_signExtend_low] at hw
      · rw [hcommit.readReg, if_neg fun h => hr h.1]
  · rintro rfl i hi
    rw [Pseudo.expand] at hi
    split_ifs at hi <;> simp only [List.mem_cons, List.not_mem_nil, or_false] at hi
    · rw [hi]; exact (writesAlone_addi ..).keeps_registers
    · rcases hi with hi | hi <;> rw [hi]
      · exact (writesAlone_lui ..).keeps_registers
      · exact (writesAlone_addi ..).keeps_registers

end Sys2Proof.Machine
end

section
/-! The proofs of the integer family: each operation of the ALU in exact arithmetic, and the instructions that compute,
alone in the pipe. -/

namespace Sys2Proof.Machine

/-! ## The ALU's operations in exact arithmetic (R13, R174 to R194) -/

section exactArithmetic
variable {w : Nat} (a b : BitVec w)

theorem sub_eq_ofInt : a - b = BitVec.ofInt w ((a.toNat : Int) - (b.toNat : Int)) := by
  simp [Int.sub_eq_add_neg, BitVec.ofInt_add, BitVec.ofInt_neg, BitVec.sub_eq_add_neg]

/-- The sum of a word and a signed number, as the immediate of ADDI. -/
theorem add_ofInt_eq_ofInt (i : Int) : a + BitVec.ofInt w i = BitVec.ofInt w ((a.toNat : Int) + i) := by
  simp [BitVec.ofInt_add]

theorem and_eq_ofNat : a &&& b = BitVec.ofNat w (a.toNat &&& b.toNat) := by simp [BitVec.ofNat_and]

theorem or_eq_ofNat : a ||| b = BitVec.ofNat w (a.toNat ||| b.toNat) := by simp [BitVec.ofNat_or]

theorem xor_eq_ofNat : a ^^^ b = BitVec.ofNat w (a.toNat ^^^ b.toNat) := by simp [BitVec.ofNat_xor]

/-- A left shift is a product. -/
theorem shiftLeft_eq_ofNat (n : Nat) : a <<< n = BitVec.ofNat w (a.toNat * 2 ^ n) := by
  apply BitVec.eq_of_toNat_eq
  rw [BitVec.toNat_shiftLeft, BitVec.toNat_ofNat, Nat.shiftLeft_eq]

/-- A logical right shift is a quotient. -/
theorem ushiftRight_eq_ofNat (n : Nat) : a >>> n = BitVec.ofNat w (a.toNat / 2 ^ n) := by
  rw [← Nat.shiftRight_eq_div_pow, ← BitVec.toNat_ushiftRight, BitVec.ofNat_toNat, BitVec.setWidth_eq]

/-- An arithmetic right shift is a quotient of the signed value, rounded down. -/
theorem sshiftRight_eq_ofInt (n : Nat) : a.sshiftRight n = BitVec.ofInt w (a.toInt / 2 ^ n) := by
  rw [BitVec.sshiftRight_eq, Int.shiftRight_eq_div_pow, Nat.cast_pow, Nat.cast_ofNat]

end exactArithmetic

/-- A 12-bit immediate keeps its signed value in the latch (R137). -/
theorem toInt_signExtend_imm (imm : BitVec 12) : (imm.signExtend 32).toInt = imm.toInt :=
  BitVec.toInt_signExtend_of_le (by decide)

/-- The amount of an immediate shift is its field, which holds no more than five bits (R138). -/
theorem shamt_amount (shamt : Reg) : (shamt.zeroExtend 32).toNat % 32 = shamt.toNat := by
  have hlt := shamt.isLt
  rw [BitVec.toNat_setWidth_of_le (by decide), Nat.mod_eq_of_lt hlt]

/-- The upper immediate is its 20 bits times `2^12` (R141). -/
theorem upper_eq_ofNat (imm : BitVec 20) : (imm ++ 0#12 : Word) = BitVec.ofNat 32 (imm.toNat * 2 ^ 12) := by
  have hlt := imm.isLt
  apply BitVec.eq_of_toNat_eq
  rw [toNat_append_eq_add, BitVec.toNat_ofNat, BitVec.toNat_ofNat]
  omega

/-! ## The instructions that compute (R170, R172) -/

/-- An instruction that computes and has a destination, alone, writes its ALU result there and does nothing else. -/
theorem writesAlone_of_aluValue {i : Instr} {raw : Word} {s : State} {rd : Reg} {v : Word}
    (hc : isComputeClass i.opClass) (hrd : i.regFields.rd = some rd) (hv : aluValue (s.decodedAlone i raw) = v) :
    WritesAlone i raw s rd v := by
  have hnop : i ≠ .nop := by rintro rfl; cases hrd
  have hdest : (s.decodedAlone i raw).rd = rd := congrArg (·.getD (rdOf raw)) hrd
  rw [← hdest, ← hv]
  exact writesAlone_of_compute raw s hc hnop

theorem writesAlone_of_op {i : Instr} {raw : Word} {s : State} {rd : Reg} {v : Word}
    (hc : i.opClass = .op) (hrd : i.regFields.rd = some rd) (hv : aluValue (s.decodedAlone i raw) = v) :
    WritesAlone i raw s rd v :=
  writesAlone_of_aluValue (.inl hc) hrd hv

theorem writesAlone_of_opImm {i : Instr} {raw : Word} {s : State} {rd : Reg} {v : Word}
    (hc : i.opClass = .opImm) (hrd : i.regFields.rd = some rd) (hv : aluValue (s.decodedAlone i raw) = v) :
    WritesAlone i raw s rd v :=
  writesAlone_of_aluValue (.inr (.inl hc)) hrd hv

/-- Settles O9: by definition the ALU value of each instruction is its operation on the two registers that ID captured
(R357), and that operation is the exact arithmetic of the statement. -/
theorem registerRegisterResults : Obligations.RegisterRegisterResults := by
  intro raw rd rs1 rs2 s a b n
  refine ⟨fun _ => writesAlone_of_op rfl rfl ?add, fun _ => writesAlone_of_op rfl rfl ?sub,
    fun _ => writesAlone_of_op rfl rfl ?sll, fun _ => writesAlone_of_op rfl rfl ?slt,
    fun _ => writesAlone_of_op rfl rfl ?sltu, fun _ => writesAlone_of_op rfl rfl ?xor,
    fun _ => writesAlone_of_op rfl rfl ?srl, fun _ => writesAlone_of_op rfl rfl ?sra,
    fun _ => writesAlone_of_op rfl rfl ?or, fun _ => writesAlone_of_op rfl rfl ?and⟩
  case add => exact BitVec.add_def a b
  case sub => exact sub_eq_ofInt a b
  case sll => exact shiftLeft_eq_ofNat a n
  case slt | sltu => rfl
  case xor => exact xor_eq_ofNat a b
  case srl => exact ushiftRight_eq_ofNat a n
  case sra => exact sshiftRight_eq_ofInt a n
  case or => exact or_eq_ofNat a b
  case and => exact and_eq_ofNat a b

/-- Settles O10: the immediate in the latch is the word of the immediate's signed value, and a shift's amount is its
field. -/
theorem registerImmediateResults : Obligations.RegisterImmediateResults := by
  intro raw rd rs1 shamt imm s a b n
  have hn : (shamt.zeroExtend 32).toNat % 32 = n := shamt_amount shamt
  refine ⟨fun _ => writesAlone_of_opImm rfl rfl ?addi, fun _ => writesAlone_of_opImm rfl rfl ?slti,
    fun _ => writesAlone_of_opImm rfl rfl ?sltiu, fun _ => writesAlone_of_opImm rfl rfl ?xori,
    fun _ => writesAlone_of_opImm rfl rfl ?ori, fun _ => writesAlone_of_opImm rfl rfl ?andi,
    fun _ => writesAlone_of_opImm rfl rfl ?slli, fun _ => writesAlone_of_opImm rfl rfl ?srli,
    fun _ => writesAlone_of_opImm rfl rfl ?srai⟩
  case addi => exact add_ofInt_eq_ofInt a imm.toInt
  case slti => rw [← toInt_signExtend_imm]; rfl
  case sltiu => rfl
  case xori => exact xor_eq_ofNat a b
  case ori => exact or_eq_ofNat a b
  case andi => exact and_eq_ofNat a b
  case slli => rw [← hn]; exact shiftLeft_eq_ofNat a _
  case srli => rw [← hn]; exact ushiftRight_eq_ofNat a _
  case srai => rw [← hn]; exact sshiftRight_eq_ofInt a _

/-- Settles O11: LUI's value is the immediate in the latch, AUIPC's its sum with the latch's own address. -/
theorem upperImmediateResults : Obligations.UpperImmediateResults := by
  intro raw rd imm s
  refine ⟨fun _ => ?lui, fun _ => writesAlone_of_aluValue (.inr (.inr (.inr rfl))) rfl ?auipc⟩
  case lui =>
    rw [← upper_eq_ofNat]
    exact writesAlone_lui rd imm raw s
  case auipc =>
    have hv : aluValue (s.decodedAlone (.auipc rd imm) raw) = s.pc + (imm ++ 0#12) := rfl
    rw [hv, upper_eq_ofNat, BitVec.ofNat_add, BitVec.ofNat_toNat, BitVec.setWidth_eq]

end Sys2Proof.Machine
end

section
/-! The proofs of the control family: what control resolution answers in EX, and the jumps and branches alone in the
pipe. -/

namespace Sys2Proof.Machine

/-! ## Control resolution in EX (R221, R222, R350 to R353) -/

/-- The state after a resolution to `a` that is neither suppressed nor refused. -/
def State.resolvedTo (s : State) (a : Word) : State :=
  { s with work := { s.work with
      new := { s.work.new with EX := { s.work.new.EX with nextPc := a } }
      taken := if a = s.work.new.EX.pc + 4 then s.work.taken else some a } }

/-- What control resolution answers in every state. -/
theorem resolveTo_eq (a : Word) (s : State) :
    resolveTo a s =
      if s.work.memExc = true then .next s
      else if a = s.work.new.EX.pc + 4 ∨ a.toNat % 4 = 0 then .next (s.resolvedTo a)
      else .refused .misalignedTarget := by
  by_cases hm : s.work.memExc = true
  · rw [resolveTo, if_pos hm, if_pos hm]
  rw [resolveTo, if_neg hm, if_neg hm]
  by_cases hp : a = s.work.new.EX.pc + 4
  · refine (if_pos hp).trans ?_
    rw [if_pos (.inl hp), State.resolvedTo, if_pos hp]
    rfl
  · refine (if_neg hp).trans ?_
    by_cases ha : a.toNat % 4 = 0
    · rw [if_neg (not_not.mpr ha), if_pos (.inr ha), State.resolvedTo, if_neg hp]
      rfl
    · rw [if_pos ha, if_neg (not_or.mpr ⟨hp, ha⟩)]

/-- The EX work of a control instruction on a latch that holds it. A branch's ALU value is the one its latch has, so
setting it changes nothing (R349). -/
theorem exec_at_execute_control {i : Instr} {s : State} (hs : s.work.stage = .execute)
    (hc : isControlClass i.opClass) (hk : s.work.new.EX.kind = .instr i) :
    exec i s =
      if s.work.memExc = true then .next (setAluResult (aluValue s.work.new.EX) s)
      else if resolve s.work.new.EX = s.work.new.EX.pc + 4 ∨ (resolve s.work.new.EX).toNat % 4 = 0 then
        .next (setAluResult (aluValue s.work.new.EX) (s.resolvedTo (resolve s.work.new.EX)))
      else .refused .misalignedTarget := by
  obtain ⟨hbranch, hjump⟩ := aluValue_of_kind hk
  rcases hc with hc | hc
  · rw [exec_at_execute_branch hs hc hk, resolveTo_eq, hbranch (.inl hc)]
    rfl
  · rw [exec_at_execute_jump hs hc hk, resolveTo_eq, hjump hc]
    split_ifs <;> rfl

/-- Settles O15: the three answers of control resolution are the three clauses. -/
theorem controlResolutionInExecute : Obligations.ControlResolutionInExecute := by
  intro i s hc hs hk l target
  have hctl : isControlClass i.opClass := by rcases hc with h | h | h <;> simp [isControlClass, h]
  rw [exec_at_execute_control hs hctl hk]
  refine ⟨?_, fun hm ht => ⟨_, (if_neg (by simp [hm])).trans (if_pos ht), rfl, rfl⟩,
    fun hm => ⟨_, if_pos hm, rfl, rfl⟩⟩
  split_ifs with hm ht
  · exact ⟨nofun, fun ⟨hf, _⟩ => absurd (hm.symm.trans hf) nofun⟩
  · exact ⟨nofun, fun ⟨_, hp, ha⟩ => absurd ht (not_or.mpr ⟨hp, ha⟩)⟩
  · exact iff_of_true rfl ⟨Bool.eq_false_iff.mpr hm, not_or.mp ht⟩

/-! ## A control instruction alone in the pipe -/

theorem exec_alone {i : Instr} (raw : Word) (s : State) (hs : i.opClass ≠ .system) :
    exec i (s.alone raw) = .next ((s.alone raw).setNewID (s.decodedAlone i raw)) := by
  rw [exec_at_decode i rfl, if_neg fun h => hs h.1, enterId_alone]

/-- The working values when the latch `d` of a control instruction has come alone through ID, EX and MEM. -/
def Work.resolvedAlone (d : Latch) : Work :=
  let e := { d with nextPc := resolve d, aluResult := aluValue d }
  { Work.rest with
    stage := .writeback
    new := { Work.rest.new with ID := d, EX := e, MEM := e, WB := e }
    taken := if resolve d = d.pc + 4 then none else some (resolve d) }

/-- EX of a control instruction alone, whose latch then moves through MEM to WB. -/
theorem exec_execute_control_alone {i : Instr} (raw : Word) (s : State) {d : Latch} (hc : isControlClass i.opClass)
    (hk : d.kind = .instr i) (ht : resolve d = d.pc + 4 ∨ (resolve d).toNat % 4 = 0) :
    ∃ s2, exec i ((s.alone raw).setNewID d).toExecute = .next s2 ∧
      s2.toMemory.toWriteback = { s with work := Work.resolvedAlone d } := by
  refine ⟨_, (exec_at_execute_control rfl hc hk).trans ((if_neg Bool.false_ne_true).trans (if_pos ht)), ?_⟩
  simp only [State.toWriteback, State.toMemory, State.toExecute, setAluResult, State.alone, State.setNewID,
    State.setNewEX, State.setNewMEM, State.setNewWB, State.atStage, State.resolvedTo, Work.resolvedAlone, Work.rest]
  -- what is left is the decision `resolve d = d.pc + 4`, on `d` as the latch in EX and as itself
  rfl

/-- A control instruction alone, unless taken to an address that is not a multiple of 4, comes to its commit. -/
theorem execAlone_of_control {i : Instr} (raw : Word) (s : State) (hc : isControlClass i.opClass)
    (ht : resolve (s.decodedAlone i raw) = s.pc + 4 ∨ (resolve (s.decodedAlone i raw)).toNat % 4 = 0) :
    ExecAlone i raw s (commit { s with work := Work.resolvedAlone (s.decodedAlone i raw) }) := by
  obtain ⟨hs, hl, hst⟩ : i.opClass ≠ .system ∧ i.opClass ≠ .load ∧ i.opClass ≠ .store := by
    rcases hc with h | h | h <;> simp [h]
  obtain ⟨s2, hexecute, hwork⟩ := exec_execute_control_alone raw s (d := s.decodedAlone i raw) hc rfl ht
  refine ⟨_, s2, _, exec_alone raw s hs, hexecute, exec_at_memory_other rfl hl hst hs, ?_⟩
  rw [exec_at_writeback i rfl, if_neg hs, hwork]

/-- What WB reads of the latch of a control instruction: a jump writes a register, a branch does not, and neither
reads memory or halts (R145, R333). -/
theorem flags_of_control {i : Instr} (hc : isControlClass i.opClass) (raw pc : Word) (st : Status) :
    (latchOf i raw pc st).writesRd = (i.opClass != .branch) ∧ (latchOf i raw pc st).readsMem = false ∧
      (latchOf i raw pc st).isHalt = false := by
  have hhalt : i ≠ .halt := by rintro rfl; simp [Instr.opClass, isControlClass] at hc
  rcases hc with h | h | h <;> simp [latchOf, controlFlags, h, hhalt]

/-- `i` alone completes, all it does is to write `v` to `x[rd]` and to redirect to `target` unless that is the next
address, and its `next_pc` becomes `target`. -/
def ResolvesAlone (i : Instr) (raw : Word) (s : State) (rd : Reg) (v target : Word) : Prop :=
  ∃ s', ExecAlone i raw s s' ∧ Committed s s' rd v (if target = s.pc + 4 then none else some target) ∧
    s'.work.new.EX.nextPc = target

theorem resolvesAlone_of_jump {i : Instr} {raw : Word} {s : State} {rd : Reg} {target : Word}
    (hc : i.opClass = .jal ∨ i.opClass = .jalr) (hrd : i.regFields.rd = some rd)
    (hr : resolve (s.decodedAlone i raw) = target) (ht : target = s.pc + 4 ∨ target.toNat % 4 = 0) :
    ResolvesAlone i raw s rd (s.pc + 4) target := by
  subst hr
  obtain ⟨hflag, hreads, hhalt⟩ := flags_of_control (.inr hc) raw s.pc .normal
  have hwrites : (Work.resolvedAlone (s.decodedAlone i raw)).new.WB.writesRd = true :=
    hflag.trans (by rcases hc with h | h <;> rw [h] <;> rfl)
  have hdest : (Work.resolvedAlone (s.decodedAlone i raw)).new.WB.rd = rd := congrArg (·.getD (rdOf raw)) hrd
  have hlink : (Work.resolvedAlone (s.decodedAlone i raw)).new.WB.writeValue = s.pc + 4 :=
    (if_neg (Bool.eq_false_iff.mp hreads)).trans ((aluValue_of_kind rfl).2 hc)
  refine ⟨_, execAlone_of_control raw s (.inr hc) ht, ?_⟩
  rw [commit_with_work s _ hwrites, hdest, hlink]
  exact ⟨⟨rfl, rfl, rfl, rfl, hhalt⟩, rfl⟩

/-- The commit of a latch that writes no register (R334). -/
theorem commit_without_write (s : State) (w : Work) (hw : w.new.WB.writesRd = false) :
    commit { s with work := w } = { s with
      dynamicInstructions := s.dynamicInstructions + 1
      work := { w with haltNow := w.new.WB.isHalt } } := by
  simp [commit, hw]

theorem resolvesAlone_of_branch {i : Instr} {raw : Word} {s : State} {target : Word} (hc : i.opClass = .branch)
    (hr : resolve (s.decodedAlone i raw) = target) (ht : target = s.pc + 4 ∨ target.toNat % 4 = 0) :
    ResolvesAlone i raw s 0 0 target := by
  subst hr
  obtain ⟨hflag, -, hhalt⟩ := flags_of_control (.inl hc) raw s.pc .normal
  have hwrites : (Work.resolvedAlone (s.decodedAlone i raw)).new.WB.writesRd = false := hflag.trans (by rw [hc]; rfl)
  refine ⟨_, execAlone_of_control raw s (.inl hc) ht, ?_⟩
  rw [commit_without_write s _ hwrites]
  exact ⟨⟨by rw [writeReg_zero], rfl, rfl, rfl, hhalt⟩, rfl⟩

/-! ## Jumps and branches (R225 to R232) -/

/-- The target of a jump or branch that is relative to its own address (R221). -/
theorem add_signExtend_eq_ofInt {n : Nat} (a : Word) (offset : BitVec n) :
    a + offset.signExtend 32 = BitVec.ofInt 32 ((a.toNat : Int) + offset.toInt) :=
  add_ofInt_eq_ofInt a offset.toInt

/-- Clearing bit 0 rounds down to an even number (R226). -/
theorem clearBit0_eq_ofNat (a : Word) : a &&& 0xFFFFFFFE#32 = BitVec.ofNat 32 (a.toNat / 2 * 2) := by
  have hshift : a &&& 0xFFFFFFFE#32 = a >>> 1 <<< 1 := (BitVec.shiftLeft_ushiftRight (n := 1)).symm
  rw [hshift, shiftLeft_eq_ofNat, BitVec.toNat_ushiftRight, Nat.shiftRight_eq_div_pow, pow_one]

/-- Settles O13: the targets in exact arithmetic; the rest is what a jump alone does. -/
theorem jumpsLinkAndRedirect : Obligations.JumpsLinkAndRedirect := by
  intro raw rd rs1 offset imm s completes
  refine ⟨fun _ => resolvesAlone_of_jump (.inl rfl) rfl ?jal, fun _ => resolvesAlone_of_jump (.inr rfl) rfl ?jalr⟩
  case jal => exact add_signExtend_eq_ofInt s.pc offset
  case jalr =>
    rw [← add_signExtend_eq_ofInt, ← clearBit0_eq_ofNat]
    rfl

/-- A branch alone, whose next pc is decided by `condition`. -/
theorem branch_alone {i : Instr} {raw : Word} {s : State} {condition : Prop} [Decidable condition]
    (hc : i.opClass = .branch) {offset : BitVec 13} {target : Word}
    (htarget : target = s.pc + offset.signExtend 32)
    (hr : resolve (s.decodedAlone i raw) = if condition then s.pc + offset.signExtend 32 else s.pc + 4) :
    (¬ condition → ∃ s', ExecAlone i raw s s' ∧ Committed s s' 0 0 none ∧ s'.work.new.EX.nextPc = s.pc + 4) ∧
    (condition → target = s.pc + 4 ∨ target.toNat % 4 = 0 → ResolvesAlone i raw s 0 0 target) := by
  subst htarget
  constructor
  · intro hn
    simpa [ResolvesAlone] using resolvesAlone_of_branch hc (hr.trans (if_neg hn)) (.inl rfl)
  · intro hy
    exact resolvesAlone_of_branch hc (hr.trans (if_pos hy))

/-- Settles O14: by definition the next pc of each branch is decided by its comparison of the two registers that ID
captured (R357). -/
theorem branchesRedirectOnTheirComparison : Obligations.BranchesRedirectOnTheirComparison := by
  intro raw rs1 rs2 offset s a b target completes
  have htarget : target = s.pc + offset.signExtend 32 := (add_signExtend_eq_ofInt s.pc offset).symm
  exact ⟨fun _ => branch_alone rfl htarget rfl, fun _ => branch_alone rfl htarget rfl,
    fun _ => branch_alone rfl htarget rfl, fun _ => branch_alone rfl htarget rfl,
    fun _ => branch_alone rfl htarget rfl, fun _ => branch_alone rfl htarget rfl⟩

end Sys2Proof.Machine
end

section
/-! The proofs of the load and store family: the checks and the access of MEM, exactly, and the loads and stores alone
in the pipe. -/

namespace Sys2Proof.Machine

/-! ## The access of MEM (R242, R254) -/

/-- A D-cache miss starts the miss latency, and a hit starts nothing (R341). -/
def State.waitOnMiss (s : State) (r : CacheResult) : State :=
  { s with work := { s.work with dNext := if r = .miss then s.dc.config.missLatency else s.work.dNext } }

/-- What the access of MEM answers in every state: the bound check, then the alignment check, then the access. -/
theorem accessMemory_eq (n : Nat) (op : CacheOp) (perform : Nat → State → State) (s : State) :
    accessMemory n op perform s =
      let a := s.work.new.MEM.memAddr
      if s.memory.size ≤ a.toNat then .next (raiseMemoryException s)
      else if a.toNat % n ≠ 0 then .refused .misalignedData
      else .next ((perform a.toNat { s with dc := (s.dc.access a op).2 }).waitOnMiss (s.dc.access a op).1) := by
  cases h : (s.dc.access s.work.new.MEM.memAddr op).1 <;> simp [accessMemory, State.waitOnMiss, h]

/-- An access in bounds and aligned completes. -/
theorem accessMemory_in_bounds {n : Nat} {op : CacheOp} {perform : Nat → State → State} {s : State}
    (hin : s.work.new.MEM.memAddr.toNat < s.memory.size) (hal : s.work.new.MEM.memAddr.toNat % n = 0) :
    accessMemory n op perform s =
      .next ((perform s.work.new.MEM.memAddr.toNat
        { s with dc := (s.dc.access s.work.new.MEM.memAddr op).2 }).waitOnMiss
          (s.dc.access s.work.new.MEM.memAddr op).1) := by
  rw [accessMemory_eq]
  exact (if_neg (Nat.not_le.mpr hin)).trans (if_neg (not_not.mpr hal))

/-- The MEM work of a load or store is an access of its width that raises nothing of its own. -/
theorem exec_at_memory_access {i : Instr} {s : State} (hs : s.work.stage = .memory)
    (hc : i.opClass = .load ∨ i.opClass = .store) : ∃ op perform,
      exec i s = accessMemory (accessWidth (.instr i)) op perform s ∧
      ∀ a t, (perform a t).work.memExc = t.work.memExc := by
  rcases hc with hc | hc
  · exact ⟨_, _, exec_at_memory_load hs hc, fun _ _ => rfl⟩
  · exact ⟨_, _, exec_at_memory_store hs hc, fun _ _ => rfl⟩

/-- Settles O18: the three answers of the access of MEM are the three clauses. -/
theorem memoryChecksComeInOrder : Obligations.MemoryChecksComeInOrder := by
  intro i s hc hs l n
  obtain ⟨op, perform, hexec, hquiet⟩ := exec_at_memory_access hs hc
  rw [hexec, accessMemory_eq]
  refine ⟨fun hout => ⟨_, if_pos hout, rfl, rfl, rfl, rfl⟩, fun hin hmis => ?refused, fun hin hal => ?completes⟩
  case refused => exact (if_neg (Nat.not_le.mpr hin)).trans (if_pos hmis)
  case completes => exact ⟨_, (if_neg (Nat.not_le.mpr hin)).trans (if_neg (not_not.mpr hal)), hquiet _ _⟩

/-! ## A load or store alone in the pipe -/

/-- The latch `d` of a load or store after EX: it holds the address (R241). -/
def Latch.addressed (d : Latch) : Latch := { d with memAddr := d.op1Val + d.imm }

/-- The working values when the latch `d` of a load or store has come alone through ID and EX. -/
def Work.beforeAccess (d : Latch) : Work :=
  { Work.rest with stage := .memory, new := { Work.rest.new with ID := d, EX := d.addressed, MEM := d.addressed } }

theorem toMemory_alone (s : State) (raw : Word) (d : Latch) :
    (setMemAddr ((s.alone raw).setNewID d).toExecute).toMemory = { s with work := Work.beforeAccess d } := by
  simp only [State.toMemory, State.toExecute, setMemAddr, State.alone, State.setNewID, State.setNewEX, State.setNewMEM,
    State.atStage, Work.beforeAccess, Latch.addressed]

/-- A load or store alone whose MEM work completes comes to its commit. -/
theorem execAlone_of_memory {i : Instr} {raw : Word} {s t : State} (hc : i.opClass = .load ∨ i.opClass = .store)
    (hmem : exec i { s with work := Work.beforeAccess (s.decodedAlone i raw) } = .next t) :
    ExecAlone i raw s (commit t.toWriteback) := by
  have hs : i.opClass ≠ .system := by rcases hc with h | h <;> simp [h]
  refine ⟨_, _, t, exec_alone raw s hs, exec_at_execute_memory rfl hc, ?_, ?_⟩
  · rw [toMemory_alone, hmem]
  · rw [exec_at_writeback i rfl, if_neg hs]

/-- What WB reads of the latch of a load or store: a load writes the value it read, a store writes nothing, and neither
halts (R145, R333). -/
theorem flags_of_memory {i : Instr} (hc : i.opClass = .load ∨ i.opClass = .store) (raw pc : Word) (st : Status) :
    (latchOf i raw pc st).writesRd = (i.opClass == .load) ∧ (latchOf i raw pc st).readsMem = (i.opClass == .load) ∧
      (latchOf i raw pc st).isHalt = false := by
  have hhalt : i ≠ .halt := by rintro rfl; simp [Instr.opClass] at hc
  rcases hc with h | h <;> simp [latchOf, controlFlags, h, hhalt]

theorem committedRegs_of_write {s : State} {rd : Reg} {v : Word} (hw : s.work.new.WB.writesRd = true)
    (hrd : s.work.new.WB.rd = rd) (hv : s.work.new.WB.writeValue = v) : committedRegs s = (s.writeReg rd v).regs := by
  rw [committedRegs, if_pos hw, hrd, hv]

theorem committedRegs_of_no_write {s : State} (hw : s.work.new.WB.writesRd = false) :
    committedRegs s = (s.writeReg 0 0).regs := by
  rw [committedRegs, if_neg (Bool.eq_false_iff.mp hw), writeReg_zero]

/-- The commit of a state that is `s` but for its working values, and they are quiet. -/
theorem committed_commit {s t : State} {rd : Reg} {v : Word} (hframe : t = { s with work := t.work })
    (hquiet : t.work.memExc = false ∧ t.work.illegal = false ∧ t.work.new.WB.isHalt = false)
    (hregs : committedRegs t = (t.writeReg rd v).regs) : Committed s (commit t) rd v t.work.taken := by
  have hsame : (t.writeReg rd v).regs = (s.writeReg rd v).regs := by
    rw [hframe, State.writeReg, State.writeReg]
    split <;> rfl
  rw [commit_eq, hregs, hsame]
  refine ⟨?_, rfl, hquiet⟩
  rw [hframe, writeReg_eq s]

/-- `i` alone completes: all it does is to write `v` to `x[rd]`, to leave `m` as the memory, and to make the access `op`
of the D-cache at `address`, which on a miss starts the miss latency. -/
def AccessesAlone (i : Instr) (raw : Word) (s : State) (address : Word) (op : CacheOp) (m : Memory) (rd : Reg)
    (v : Word) : Prop :=
  ∃ s', ExecAlone i raw s s' ∧ Committed { s with dc := (s.dc.access address op).2, memory := m } s' rd v none ∧
    s'.work.dNext = if (s.dc.access address op).1 = .miss then s.dc.config.missLatency else 0

/-- The miss latency that an access alone starts is that of the configuration, which an access does not change. -/
theorem dNext_commit_access {t : State} {c : Cache} {address : Word} {op : CacheOp}
    (h : t.work.dNext = if (c.access address op).1 = .miss then (c.access address op).2.config.missLatency else 0) :
    (commit t).work.dNext = if (c.access address op).1 = .miss then c.config.missLatency else 0 := by
  rw [commit_eq, h, Cache.config_access]

theorem accessesAlone_of_load {i : Instr} {raw : Word} {s : State} {rd : Reg} {address v : Word}
    (hc : i.opClass = .load) (hrd : i.regFields.rd = some rd)
    (haddr : (s.decodedAlone i raw).addressed.memAddr = address)
    (hin : address.toNat < s.memory.size) (hal : address.toNat % accessWidth (.instr i) = 0)
    (hv : loadValue (.instr i) s.memory address.toNat = v) :
    AccessesAlone i raw s address .read s.memory rd v := by
  subst haddr hv
  obtain ⟨hwrites, hreads, hhalt⟩ := flags_of_memory (.inl hc) raw s.pc .normal
  rw [hc] at hreads hwrites
  have hmem := (exec_at_memory_load (s := { s with work := Work.beforeAccess (s.decodedAlone i raw) }) rfl hc).trans
    (accessMemory_in_bounds hin hal)
  exact ⟨_, execAlone_of_memory (.inl hc) hmem, committed_commit rfl ⟨rfl, rfl, hhalt⟩
    (committedRegs_of_write hwrites (congrArg (·.getD (rdOf raw)) hrd) (if_pos hreads)), dNext_commit_access rfl⟩

theorem accessesAlone_of_store {i : Instr} {raw : Word} {s : State} {address v : Word} (hc : i.opClass = .store)
    (haddr : (s.decodedAlone i raw).addressed.memAddr = address) (hv : (s.decodedAlone i raw).op2Val = v)
    (hin : address.toNat < s.memory.size) (hal : address.toNat % accessWidth (.instr i) = 0) :
    AccessesAlone i raw s address .write (s.memory.write address.toNat (accessWidth (.instr i)) v) 0 0 := by
  subst haddr hv
  obtain ⟨hwrites, -, hhalt⟩ := flags_of_memory (.inr hc) raw s.pc .normal
  rw [hc] at hwrites
  have hmem := (exec_at_memory_store (s := { s with work := Work.beforeAccess (s.decodedAlone i raw) }) rfl hc).trans
    (accessMemory_in_bounds hin hal)
  exact ⟨_, execAlone_of_memory (.inr hc) hmem, committed_commit rfl ⟨rfl, rfl, hhalt⟩
    (committedRegs_of_no_write hwrites), dNext_commit_access rfl⟩

/-! ## Loads (R243 to R247) -/

/-- The sign extension of a byte or half word, in exact arithmetic (R13). -/
theorem signExtend_eq_ofInt {w : Nat} (x : BitVec (w + 1)) (n : Nat) :
    x.signExtend n = BitVec.ofInt n (if x.toNat < 2 ^ w then (x.toNat : Int) else (x.toNat : Int) - 2 ^ (w + 1)) := by
  rw [BitVec.signExtend, BitVec.toInt_eq_toNat_cond]
  have hhalf : 2 * x.toNat < 2 ^ (w + 1) ↔ x.toNat < 2 ^ w := by rw [pow_succ]; omega
  simp only [hhalf, Nat.cast_pow, Nat.cast_ofNat]

/-- A half word has its least significant byte at the lowest address (R82, R83). -/
theorem Memory.toNat_read16 (m : Memory) (a : Nat) :
    (m.read16 a).toNat = (m.byteAt a).toNat + 2 ^ 8 * (m.byteAt (a + 1)).toNat :=
  toNat_append_eq_add (m.byteAt (a + 1)) (m.byteAt a)

/-- Settles O16: the address and the extended value in exact arithmetic; the rest is what a load alone does. -/
theorem loadsReadExtendAndWrite : Obligations.LoadsReadExtendAndWrite := by
  intro raw rd rs1 imm s address a byte half completes
  have haddr : s.readReg rs1 + imm.signExtend 32 = address := add_signExtend_eq_ofInt _ _
  have hbyte : (s.memory.read8 a).toNat = byte 0 := rfl
  have hhalf : (s.memory.read16 a).toNat = half := Memory.toNat_read16 _ _
  have hword : (s.memory.read32 a).toNat = half + 2 ^ 16 * byte 2 + 2 ^ 24 * byte 3 := Memory.toNat_read32 _ _
  refine ⟨fun _ hin hal => accessesAlone_of_load rfl rfl haddr hin hal ?lb,
    fun _ hin hal => accessesAlone_of_load rfl rfl haddr hin hal ?lh,
    fun _ hin hal => accessesAlone_of_load rfl rfl haddr hin hal ?lw,
    fun _ hin hal => accessesAlone_of_load rfl rfl haddr hin hal ?lbu,
    fun _ hin hal => accessesAlone_of_load rfl rfl haddr hin hal ?lhu⟩
  case lb => rw [← hbyte]; exact signExtend_eq_ofInt (s.memory.read8 a) 32
  case lh => rw [← hhalf]; exact signExtend_eq_ofInt (s.memory.read16 a) 32
  case lw => rw [← hword, BitVec.ofNat_toNat, BitVec.setWidth_eq]; rfl
  case lbu => rw [← hbyte, BitVec.ofNat_toNat]; rfl
  case lhu => rw [← hhalf, BitVec.ofNat_toNat]; rfl

/-! ## Stores (R248 to R250) -/

theorem accessWidth_eq_or (k : Kind) : accessWidth k = 1 ∨ accessWidth k = 2 ∨ accessWidth k = 4 := by
  unfold accessWidth
  split <;> simp

/-- An aligned access that begins in a memory of an admitted size ends in it (R81, R86). -/
theorem aligned_access_in_bounds {size a : Nat} {k : Kind} (hsize : memorySizeValid size = true) (hin : a < size)
    (hal : a % accessWidth k = 0) : a + accessWidth k ≤ size := by
  obtain ⟨-, -, hmod⟩ := (memorySizeValid_iff size).mp hsize
  rcases accessWidth_eq_or k with h | h | h <;> rw [h] at hal ⊢ <;> omega

/-- `i` alone completes: it makes one D-cache write at `address`, which on a miss starts the miss latency, and all it
does else is to store the `n` low bytes of `v` there. -/
def StoresAlone (i : Instr) (raw : Word) (s : State) (address : Word) (n : Nat) (v : Word) : Prop :=
  ∃ s' m, ExecAlone i raw s s' ∧ Committed { s with dc := (s.dc.access address .write).2, memory := m } s' 0 0 none ∧
    (∀ k < n, (m.byteAt (address.toNat + k)).toNat = v.toNat / 2 ^ (8 * k) % 2 ^ 8) ∧
    (∀ other, other < address.toNat ∨ address.toNat + n ≤ other → m.byteAt other = s.memory.byteAt other) ∧
    m.wf = true ∧ m.size = s.memory.size ∧
    s'.work.dNext = if (s.dc.access address .write).1 = .miss then s.dc.config.missLatency else 0

theorem storesAlone_of_store {i : Instr} {raw : Word} {s : State} {address v : Word} (hc : i.opClass = .store)
    (haddr : (s.decodedAlone i raw).addressed.memAddr = address) (hv : (s.decodedAlone i raw).op2Val = v)
    (hin : address.toNat < s.memory.size) (hal : address.toNat % accessWidth (.instr i) = 0)
    (hwf : s.memory.wf = true) (hsize : memorySizeValid s.memory.size = true) :
    StoresAlone i raw s address (accessWidth (.instr i)) v := by
  have hend := aligned_access_in_bounds hsize hin hal
  obtain ⟨s', halone, hcommit, hwait⟩ := accessesAlone_of_store hc haddr hv hin hal
  exact ⟨s', _, halone, hcommit, fun k hk => Memory.toNat_byteAt_write hwf v hend hk,
    fun other ho => Memory.byteAt_write_of_outside hwf _ _ v ho, Memory.wf_write hwf _ _ v, Memory.size_write _ _ _ v,
    hwait⟩

/-- Settles O17: the address in exact arithmetic; the rest is what a store alone does. -/
theorem storesWriteTheirBytes : Obligations.StoresWriteTheirBytes := by
  intro raw rs2 rs1 imm s address a completes
  have haddr : s.readReg rs1 + imm.signExtend 32 = address := add_signExtend_eq_ofInt _ _
  exact ⟨fun _ hin hal hwf hsize => storesAlone_of_store rfl haddr rfl hin hal hwf hsize,
    fun _ hin hal hwf hsize => storesAlone_of_store rfl haddr rfl hin hal hwf hsize,
    fun _ hin hal hwf hsize => storesAlone_of_store rfl haddr rfl hin hal hwf hsize⟩

end Sys2Proof.Machine
end

section
/-! The proofs of the system and halt family: the mode after a tick, SYSTEM words, and HALT and NOP alone in the
pipe. -/

namespace Sys2Proof.Machine

/-! ## The mode after a tick (R261, R373) -/

/-- The draw of a tie stops the core in one of the two ways (R373, log 4). -/
theorem modeAfter_of_tie (n : Nat) : modeAfter true true n = .errored ∨ modeAfter true true n = .halted := by
  cases h : Config.haltWinsTie n <;> simp [modeAfter, h]

theorem redirect_exc_and_haltNow (b : Bool) (s : State) :
    (redirect b s).work.exc = s.work.exc ∧ (redirect b s).work.haltNow = s.work.haltNow := by
  rcases redirect_cases b s with ⟨-, he⟩ | ⟨t, -, he⟩ <;> rw [he] <;> exact ⟨rfl, rfl⟩

/-- IF raises nothing and commits nothing, and trap entry leaves what was raised. -/
theorem ifStage_exc_and_haltNow {s s' : State} (h : ifStage s = .next s') :
    s'.work.exc = s.work.exc ∧ s'.work.haltNow = s.work.haltNow := by
  rcases ifStage_cases h with
    ⟨-, rfl⟩ | ⟨-, -, -, -, rfl⟩ | ⟨-, -, -, rfl⟩ | ⟨-, -, -, rfl⟩ | ⟨-, -, -, -, rfl⟩
  · exact ⟨rfl, rfl⟩
  · exact ⟨rfl, rfl⟩
  · exact ⟨rfl, rfl⟩
  · exact redirect_exc_and_haltNow _ _
  · exact redirect_exc_and_haltNow _ (fetched s)

/-- The mode that a non-freeze tick publishes is decided by what the state at its start raises and commits. -/
theorem mode_step {s s' : State} (hI : s.Inv) (hd : s.dMissRemaining = 0) (h : step s = .next s') :
    ∃ n, s'.mode = modeAfter s.raises s.halts n := by
  obtain ⟨s4, s5, _, _, _, _, _, _, _, _, hif, rfl, -, -, rfl, -⟩ := tick_before_fetch hI hd h
  obtain ⟨hexc, hhalt⟩ := ifStage_exc_and_haltNow hif
  refine ⟨s5.drawIndex, ?_⟩
  calc (endTick s5).mode
    _ = modeAfter s5.work.exc s5.work.haltNow s5.drawIndex := rfl
    _ = modeAfter s.raises s.halts s5.drawIndex := by rw [hexc, hhalt]; rfl

/-- Settles O37: the four cases of the mode that `mode_step` gives; where a halt ties with an exception, either draw. -/
theorem modeAfterATick : Obligations.ModeAfterATick := by
  intro s s' hI hd h
  obtain ⟨n, hmode⟩ := mode_step hI hd h
  refine ⟨fun hr hh => ?exception, fun hr hh => ?halt, fun hr hh => ?tie, fun hr hh => ?neither⟩ <;>
    rw [hmode, hr, hh]
  case exception => rfl
  case halt => rfl
  case tie => exact modeAfter_of_tie n
  case neither => rfl

/-! ## SYSTEM words (R262) -/

/-- A word of the major opcode 0x73 is no HALT or NOP word, so its class decides. -/
theorem decodeWord_of_system {raw : Word} (h : opcodeOf raw = 0x73#7) :
    decodeWord raw = .instr (.system (iImmOf raw) (rs1Of raw) (funct3Of raw) (rdOf raw)) := by
  have hhalt : raw ≠ Config.haltWord := by rintro rfl; exact absurd h (by decide)
  have hnop : raw ≠ Config.nopWord := by rintro rfl; exact absurd h (by decide)
  rw [decodeWord_eq, if_neg hhalt, if_neg hnop, h]
  rfl

/-- A latch outside IF is live when its status is NORMAL (R42). -/
theorem Latch.live_iff {l : Latch} : l.live = true ↔ l.status = .normal := beq_iff_eq

/-- An instruction that is not live as it enters ID is only decoded (R144, R357). -/
theorem enterId_of_not_live {i : Instr} {s : State} (hraw : decodeWord s.work.new.ID.raw = .instr i)
    (hlive : s.work.new.ID.status ≠ .normal) :
    enterId i s =
      s.setNewID (decodeLatch s.work.new.ID.raw s.work.new.ID.pc s.work.new.ID.status) := by
  rw [decodeLatch_instr hraw]
  exact congrArg s.setNewID (if_neg fun h => hlive (Latch.live_iff.mp h))

/-- Settles O20: the latch is that of the instruction the word decodes to, and the ID work of a SYSTEM instruction is
refused exactly when it is live. -/
theorem systemIsRefusedOnlyWhenLive : Obligations.SystemIsRefusedOnlyWhenLive := by
  intro raw hop
  have hdecode := decodeWord_of_system hop
  refine ⟨_, _, _, _, hdecode, fun pc st => ?latch, ?work⟩
  case latch =>
    rw [decodeLatch_instr hdecode]
    exact ⟨rfl, rfl, rfl, rfl, rfl, rfl, rfl, rfl, rfl, rfl, rfl⟩
  case work =>
    rintro s hs rfl
    rw [exec_at_decode _ hs]
    refine ⟨fun hn => if_pos ⟨rfl, Latch.live_iff.mpr hn⟩, fun hn => ?_⟩
    rw [if_neg fun h => hn (Latch.live_iff.mp h.2), enterId_of_not_live hdecode hn]

/-! ## HALT and NOP alone in the pipe (R260, R261, R264) -/

/-- HALT and NOP do in EX what sets their latch's ALU result to `aluValue`: HALT's leaves it, NOP's is 0. -/
theorem exec_at_execute_halt_or_nop {i : Instr} (hi : i = .halt ∨ i = .nop) {s : State} (hs : s.work.stage = .execute)
    (hk : s.work.new.EX.kind = .instr i) : exec i s = .next (setAluResult (aluValue s.work.new.EX) s) := by
  rcases hi with rfl | rfl
  · rw [exec_at_execute_halt hs, aluValue, hk]
    rfl
  · exact exec_at_execute_value hs (.inr (.inl rfl)) hk

/-- HALT and NOP alone come to their commit. -/
theorem execAlone_of_halt_or_nop {i : Instr} (hi : i = .halt ∨ i = .nop) (raw : Word) (s : State) :
    ExecAlone i raw s
      (commit { s with work := Work.beforeCommit (s.decodedAlone i raw) (aluValue (s.decodedAlone i raw)) }) := by
  obtain ⟨hs, hl, hst⟩ : i.opClass ≠ .system ∧ i.opClass ≠ .load ∧ i.opClass ≠ .store := by
    rcases hi with rfl | rfl <;> decide
  refine ⟨_, _, _, exec_alone raw s hs, exec_at_execute_halt_or_nop hi rfl rfl,
    exec_at_memory_other rfl hl hst hs, ?_⟩
  rw [exec_at_writeback i rfl, if_neg hs]
  exact congrArg (fun t => Host.Outcome.next (commit t)) (toWriteback_alone s raw _ _)

/-- The commit of HALT or NOP alone writes nothing, and halts exactly when it is HALT's. -/
theorem commit_of_halt_or_nop {i : Instr} (hi : i = .halt ∨ i = .nop) (raw : Word) (s : State) (v : Word) :
    commit { s with work := Work.beforeCommit (s.decodedAlone i raw) v } = { s with
      dynamicInstructions := s.dynamicInstructions + 1
      work := { Work.beforeCommit (s.decodedAlone i raw) v with haltNow := i == .halt } } :=
  commit_without_write s _ (by rcases hi with rfl | rfl <;> rfl)

/-- Settles O19: both come alone to a commit that writes nothing, and HALT's alone halts. -/
theorem haltAndNopOnlyCommit : Obligations.HaltAndNopOnlyCommit := by
  intro s
  refine ⟨⟨_, execAlone_of_halt_or_nop (.inl rfl) _ s, ?halt⟩,
    ⟨_, execAlone_of_halt_or_nop (.inr rfl) _ s, ?nop⟩⟩
  case halt =>
    rw [commit_of_halt_or_nop (.inl rfl)]
    exact ⟨rfl, rfl, rfl, rfl⟩
  case nop =>
    rw [commit_of_halt_or_nop (.inr rfl)]
    exact ⟨by rw [writeReg_zero], rfl, rfl, rfl, rfl⟩

end Sys2Proof.Machine
end

section
/-! The proofs of the exceptions family: when a tick is refused, trap entry, and what an exception leaves unchanged. -/

namespace Sys2Proof.Machine

/-! ## IF and the whole step -/

/-- A redirection changes the I-cache, the IF latch, the next `pc` and the next I-miss (R353, R368, R369). -/
theorem redirect_frame (b : Bool) (s : State) :
    ∃ l ic p k, redirect b s = { s with
      ic := ic, work := { s.work with pcNext := p, iNext := k, new := { s.work.new with IF := l } } } := by
  rcases redirect_cases b s with ⟨-, he⟩ | ⟨t, -, he⟩ <;> rw [he]
  · exact ⟨s.work.new.IF, s.ic, s.work.pcNext, s.work.iNext, rfl⟩
  · exact ⟨_, _, _, _, rfl⟩

/-- IF takes the exception that was raised; in any other tick it changes what a redirection changes, and nothing else. -/
theorem ifStage_changes {s s' : State} (h : ifStage s = .next s') :
    s.work.exc = true ∧ s' = takeException s ∨
    s.work.exc = false ∧ ∃ l ic p k, s' = { s with
      ic := ic, work := { s.work with pcNext := p, iNext := k, new := { s.work.new with IF := l } } } := by
  rcases ifStage_cases h with
    ⟨he, rfl⟩ | ⟨he, -, -, -, rfl⟩ | ⟨he, -, -, rfl⟩ | ⟨he, -, -, rfl⟩ | ⟨he, -, -, -, rfl⟩
  · exact .inl ⟨he, rfl⟩
  · exact .inr ⟨he, _, _, s.work.pcNext, s.work.iNext, rfl⟩
  · exact .inr ⟨he, _, s.ic, s.work.pcNext, _, rfl⟩
  · refine .inr ⟨he, ?_⟩
    rw [waitStage_eq]
    obtain ⟨l, ic, p, k, hr⟩ := redirect_frame true { s.setNewIF s.latches.IF with
      work := { (s.setNewIF s.latches.IF).work with iNext := s.iMissRemaining - 1 } }
    exact ⟨l, ic, p, k, hr⟩
  · refine .inr ⟨he, ?_⟩
    obtain ⟨l, ic, p, k, hr⟩ := redirect_frame ((s.ic.access s.pc .read).1 == .miss) (fetched s)
    exact ⟨l, ic, p, k, hr⟩

/-- A core that does not run refuses a step (R377). -/
theorem step_of_not_running {s : State} (h : s.mode ≠ .running) : step s = .refused .notRunning :=
  if_neg fun hr => h hr.1

section
variable {s s1 s2 s3 s4 : State} {r : Refusal} (hm : s.mode = .running) (hf : s.finalized = false)
  (hd : s.dMissRemaining = 0)
include hm hf hd

/-- A running core with no D-miss pending does its stages one after another (R327, R329). -/
theorem step_eq_tick : step s = tick s := by
  unfold step advance
  rw [if_pos ⟨hm, hf⟩, if_neg (by omega)]

theorem step_of_memory_refused (h1 : wbStage (beginTick s) = .next s1) (h2 : memStage (hazardStage s1) = .refused r) :
    step s = .refused r := by
  simp only [step_eq_tick hm hf hd, tick, h1, h2, andThen]

theorem step_of_execute_refused (h1 : wbStage (beginTick s) = .next s1) (h2 : memStage (hazardStage s1) = .next s2)
    (h3 : exStage s2 = .refused r) : step s = .refused r := by
  simp only [step_eq_tick hm hf hd, tick, h1, h2, h3, andThen]

theorem step_of_decode_refused (h1 : wbStage (beginTick s) = .next s1) (h2 : memStage (hazardStage s1) = .next s2)
    (h3 : exStage s2 = .next s3) (h4 : idStage s3 = .refused r) : step s = .refused r := by
  simp only [step_eq_tick hm hf hd, tick, h1, h2, h3, h4, andThen]

theorem step_of_fetch_refused (h1 : wbStage (beginTick s) = .next s1) (h2 : memStage (hazardStage s1) = .next s2)
    (h3 : exStage s2 = .next s3) (h4 : idStage s3 = .next s4) (h5 : ifStage s4 = .refused r) :
    step s = .refused r := by
  simp only [step_eq_tick hm hf hd, tick, h1, h2, h3, h4, h5, andThen]

end

/-! ## What the state holds after ID -/

/-- The annotation of the exception that a tick from `s` raises (R287). -/
def State.raisedNote (s : State) : ErrorNote :=
  if s.memRaises = true then
    { cause := .memoryException, epc := s.latches.EX.pc, badaddr := some s.latches.EX.memAddr }
  else { cause := .illegalInstruction, epc := s.latches.IF.pc, badaddr := none }

/-- The working state `t` after the WB, MEM, EX and ID work of a tick from `s`, as far as IF and trap entry read it. -/
structure State.AfterDecode (s t : State) : Prop where
  latches : t.latches = s.latches
  pc : t.pc = s.pc
  iMiss : t.iMissRemaining = s.iMissRemaining
  icache : t.ic = s.ic
  loadStalls : t.loadStallCount = s.loadStallCount
  errorNote : t.errorNote = s.errorNote
  memorySize : t.memory.size = s.memory.size
  stall : t.work.stall = s.stalls
  memExc : t.work.memExc = s.memRaises
  illegal : t.work.illegal = s.illegalRaises
  writeback : t.work.new.WB = s.latches.MEM
  access : t.work.new.MEM.pc = s.latches.EX.pc ∧ t.work.new.MEM.memAddr = s.latches.EX.memAddr ∧
    t.work.new.MEM.status = if s.memRaises then .squashed else s.latches.EX.status
  execute : s.stalls = false → t.work.new.EX.status = s.latches.ID.status
  decode : s.decodesLive = true → t.work.new.ID.pc = s.latches.IF.pc
  precise : s.memRaises = true → t.memory = s.memory ∧ t.dc = s.dc

/-- A word is decoded live only in a tick that does not stall, waits for no fetch, and raises no `MemoryException`. -/
theorem State.decodesLive_iff {s : State} :
    s.decodesLive = true ↔ s.stalls = false ∧ s.iMissRemaining = 0 ∧ s.latches.IF.status ≠ .squashed ∧
      s.takes = false ∧ s.memRaises = false := by
  simp [State.decodesLive, and_assoc]

theorem State.illegalRaises_iff {s : State} :
    s.illegalRaises = true ↔ s.decodesLive = true ∧ decodeWord s.latches.IF.raw = .illegal := by
  simp [State.illegalRaises]

/-- The latch that ID makes of a live word keeps the address of `IF'`. -/
theorem pc_baseID_of_decodesLive {s : State} (h : s.decodesLive = true) (t : State) :
    (baseID s t).pc = s.latches.IF.pc := by
  obtain ⟨hst, him, -⟩ := State.decodesLive_iff.mp h
  rw [baseID, hst, if_neg (by simp), if_neg (by omega)]
  exact (apply_ite Latch.pc _ _ _).trans (by simp)

/-- What MEM leaves of memory, its size and the D-cache, and the address and status of its latch (R284, R288, R340). -/
theorem memStage_precise {s s1 s2 : State} (hI : s.Inv) (h1 : wbStage (beginTick s) = .next s1)
    (h2 : memStage (hazardStage s1) = .next s2) :
    s2.memory.size = s.memory.size ∧
      (s2.work.new.MEM.pc = s.latches.EX.pc ∧ s2.work.new.MEM.memAddr = s.latches.EX.memAddr ∧
        s2.work.new.MEM.status = if s.memRaises then .squashed else s.latches.EX.status) ∧
      (s.memRaises = true → s2.memory = s.memory ∧ s2.dc = s.dc) := by
  obtain ⟨_, _, _, lM, dc, m, _, rfl, -, hM⟩ := tick_through_memory hI h1 h2
  clear h1 h2
  dsimp only at hM ⊢
  by_cases hacc : s.accesses = false
  · rw [if_pos hacc] at hM
    obtain ⟨rfl, rfl, rfl, -⟩ := hM
    simp [State.memRaises, hacc]
  rw [if_neg hacc] at hM
  by_cases hraise : s.memRaises = true
  · rw [if_pos hraise] at hM
    obtain ⟨rfl, rfl, rfl, -⟩ := hM
    simp [hraise]
  · rw [if_neg hraise] at hM
    obtain ⟨-, -, rfl, rfl⟩ := hM
    refine ⟨?_, ?_, fun h => absurd h hraise⟩
    · rw [apply_ite Memory.size, Memory.size_write, ite_self]
    · rw [if_neg hraise]
      split <;> simp

/-- The latch that EX makes of `ID'` in a tick without a stall has its status. -/
theorem status_of_execute {s : State} {l : Latch} (hst : s.stalls = false)
    (h : if s.stalls = true then l = bubbleLatch
      else if s.latches.ID.live = false then l = s.latches.ID
      else l = executed s.forwarded s.resolves) : l.status = s.latches.ID.status := by
  rw [hst, if_neg (by simp)] at h
  split at h <;> subst h <;> rfl

/-- From a state with the invariant, the four stages before IF lead to a state as `State.AfterDecode` says. -/
theorem afterDecode {s s1 s2 s3 s4 : State} (hI : s.Inv) (h1 : wbStage (beginTick s) = .next s1)
    (h2 : memStage (hazardStage s1) = .next s2) (h3 : exStage s2 = .next s3) (h4 : idStage s3 = .next s4) :
    s.AfterDecode s4 := by
  obtain ⟨hsize, haccess, hprecise⟩ := memStage_precise hI h1 h2
  obtain ⟨_, _, _, _, _, _, _, rfl, rfl, -⟩ := tick_through_memory hI h1 h2
  obtain ⟨_, _, rfl, -, hE⟩ := tick_execute hI h3 rfl rfl rfl rfl
  obtain ⟨_, rfl⟩ := tick_decode (s := s) h4 rfl rfl rfl rfl rfl rfl
  exact {
    latches := rfl, pc := rfl, iMiss := rfl, icache := rfl, loadStalls := rfl, errorNote := rfl
    memorySize := hsize
    stall := rfl, memExc := rfl, illegal := rfl, writeback := rfl
    access := haccess
    execute := fun hst => status_of_execute hst hE
    decode := fun h => pc_baseID_of_decodesLive h _
    precise := hprecise }

/-! ## Trap entry (R284 to R288) -/

namespace State.AfterDecode
variable {s t : State} (h : s.AfterDecode t)
include h

theorem exc : t.work.exc = s.raises := by
  rw [Work.exc, h.memExc, h.illegal, State.raises]

/-- A tick raises at most one exception: `MemoryException` squashes the word that ID decodes (R285). -/
theorem not_both : ¬ (t.work.memExc = true ∧ t.work.illegal = true) := by
  rw [h.memExc, h.illegal]
  rintro ⟨hmem, hill⟩
  obtain ⟨-, -, -, -, hno⟩ := State.decodesLive_iff.mp (State.illegalRaises_iff.mp hill).1
  exact absurd (hno.symm.trans hmem) nofun

/-- The annotation that trap entry writes is the one read from the state at the start of the tick (R287). -/
theorem note (hr : s.raises = true) : t.work.note = s.raisedNote := by
  obtain ⟨hpc, haddr, -⟩ := h.access
  unfold Work.note State.raisedNote
  rw [h.memExc, hpc, haddr]
  split
  next => rfl
  next hmem =>
    have hill : s.illegalRaises = true := (Bool.or_eq_true_iff.mp hr).resolve_left hmem
    rw [h.decode (State.illegalRaises_iff.mp hill).1]

/-- IF takes the exception that was raised (R286). -/
theorem ifStage_of_raises (hr : s.raises = true) : ifStage t = .next (takeException t) := by
  rw [ifStage, h.exc, if_pos hr]

/-- Trap entry of a `MemoryException` leaves the stall count (R286). -/
theorem loadStallCount_of_memRaises (hmem : s.memRaises = true) :
    (endTick (takeException t)).loadStallCount = s.loadStallCount := by
  show t.loadStallCount + (if t.work.memExc then 0 else t.work.count) = _
  rw [h.memExc, if_pos hmem, h.loadStalls, Nat.add_zero]

/-- Trap entry squashes the latch of EX when the older instruction in MEM raised; an illegal word is decoded in no
stall, so it leaves `ID'` in EX (R284). -/
theorem executeStatus_of_raises (hr : s.raises = true) :
    (endTick (takeException t)).latches.EX.status = if s.memRaises then .squashed else s.latches.ID.status := by
  show (if t.work.memExc then t.work.new.EX.squash else t.work.new.EX).status = _
  rw [h.memExc]
  split
  next => rfl
  next hmem =>
    have hill : s.illegalRaises = true := (Bool.or_eq_true_iff.mp hr).resolve_left hmem
    exact h.execute (State.decodesLive_iff.mp (State.illegalRaises_iff.mp hill).1).1

end State.AfterDecode

/-- A non-freeze tick, cut before IF. -/
theorem step_cases_afterDecode {s s' : State} (hI : s.Inv) (hd : s.dMissRemaining = 0) (h : step s = .next s') :
    ∃ t, s.AfterDecode t ∧
      (s.raises = true ∧ s' = endTick (takeException t) ∨
       s.raises = false ∧ ∃ u, ifStage t = .next u ∧ s' = endTick u) := by
  obtain ⟨-, -, ⟨h0, -⟩ | ⟨-, _, _, _, t, u, h1, h2, h3, h4, h5, rfl⟩⟩ := step_eq_next.mp h
  · omega
  have ht := afterDecode hI h1 h2 h3 h4
  refine ⟨t, ht, ?_⟩
  cases hr : s.raises with
  | false => exact .inr ⟨rfl, u, h5, rfl⟩
  | true =>
    rw [ht.ifStage_of_raises hr] at h5
    cases h5
    exact .inl ⟨rfl, rfl⟩

/-- A tick that raises an exception ends with trap entry. -/
theorem step_of_raises {s s' : State} (hI : s.Inv) (hd : s.dMissRemaining = 0) (h : step s = .next s')
    (hr : s.raises = true) : ∃ t, s.AfterDecode t ∧ s' = endTick (takeException t) := by
  obtain ⟨t, ht, ⟨-, he⟩ | ⟨hno, -⟩⟩ := step_cases_afterDecode hI hd h
  · exact ⟨t, ht, he⟩
  · exact absurd (hno.symm.trans hr) nofun

/-- Settles O60: trap entry writes the annotation, and nothing else does. -/
theorem annotationAfterATick : Obligations.AnnotationAfterATick := by
  intro s s' hI h
  by_cases hd : s.dMissRemaining = 0
  · obtain ⟨t, ht, ⟨hr, rfl⟩ | ⟨hr, u, hu, rfl⟩⟩ := step_cases_afterDecode hI hd h
    · rw [if_neg (by simp [hd, hr])]
      exact (congrArg some (ht.note hr)).trans (apply_ite some _ _ _)
    · rw [if_pos (.inr hr)]
      obtain ⟨hexc, -⟩ | ⟨-, _, _, _, _, rfl⟩ := ifStage_changes hu
      · exact absurd (ht.exc.symm.trans hexc) (by simp [hr])
      · exact ht.errorNote
  · obtain ⟨-, -, ⟨-, rfl⟩ | ⟨h0, -⟩⟩ := step_eq_next.mp h
    · rw [if_pos (.inl (Nat.pos_of_ne_zero hd))]
      rfl
    · exact absurd h0 hd

/-- Settles O42: what the stages raise is what `State.AfterDecode` says, and trap entry completes the tick and stops the
core. -/
theorem exceptionTickIsTheLast : Obligations.ExceptionTickIsTheLast := by
  intro s s1 s2 s3 s4 hI hd h1 h2 h3 h4
  have ht := afterDecode hI h1 h2 h3 h4
  refine ⟨ht.not_both, ht.memExc, ht.illegal, fun hexc hm hf => ?_⟩
  have h5 : ifStage s4 = .next (takeException s4) := ht.ifStage_of_raises (ht.exc.symm.trans hexc)
  have hstop : (endTick (takeException s4)).mode ≠ .running := modeAfter_ne_running hexc _ _
  exact ⟨_, step_eq_next.mpr ⟨hm, hf, .inr ⟨hd, s1, s2, s3, s4, _, h1, h2, h3, h4, h5, rfl⟩⟩, hstop,
    step_of_not_running hstop⟩

/-! ## The commit of a tick (R33, R331 to R334) -/

/-- The registers and the commit count after a non-freeze tick are those that WB leaves. -/
theorem registers_step {s s' : State} (hd : s.dMissRemaining = 0) (h : step s = .next s') :
    ∃ t, wbStage (beginTick s) = .next t ∧ s'.regs = t.regs ∧ s'.dynamicInstructions = t.dynamicInstructions := by
  obtain ⟨-, -, ⟨h0, -⟩ | ⟨-, s1, s2, s3, s4, s5, h1, h2, h3, h4, h5, rfl⟩⟩ := step_eq_next.mp h
  · omega
  obtain ⟨_, _, _, _, _, rfl, -⟩ := memStage_frame h2
  obtain ⟨_, _, _, rfl, -⟩ := exStage_frame h3
  obtain ⟨_, _, _, rfl, -⟩ := idStage_frame h4
  refine ⟨s1, h1, ?_⟩
  obtain ⟨-, rfl⟩ | ⟨-, _, _, _, _, rfl⟩ := ifStage_changes h5
  · exact ⟨rfl, rfl⟩
  · exact ⟨rfl, rfl⟩

/-- A register read after a commit: the committed latch's value where it writes, and what it was elsewhere. -/
theorem readReg_commit (s : State) (r : Reg) :
    (commit s).readReg r =
      if s.work.new.WB.writesRd = true ∧ s.work.new.WB.rd ≠ 0 ∧ r = s.work.new.WB.rd then s.work.new.WB.writeValue
      else s.readReg r := by
  have hregs : (commit s).regs = committedRegs s := by rw [commit_eq]
  cases hw : s.work.new.WB.writesRd with
  | true =>
    rw [readReg_congr (hregs.trans (committedRegs_of_write hw rfl rfl)), readReg_writeReg]
    simp [and_comm]
  | false =>
    rw [readReg_congr (hregs.trans (committedRegs_of_no_write hw)), writeReg_zero]
    simp

/-- WB commits the latch leaving MEM when it is NORMAL: it counts, and writes the register that the latch writes. -/
theorem wbStage_commits {s t : State} (h : wbStage s = .next t) :
    t.dynamicInstructions = s.dynamicInstructions + (if s.latches.MEM.status = .normal then 1 else 0) ∧
    ∀ r, t.readReg r =
      if s.latches.MEM.status = .normal ∧ s.latches.MEM.writesRd = true ∧ s.latches.MEM.rd ≠ 0 ∧ r = s.latches.MEM.rd
      then s.latches.MEM.writeValue else s.readReg r := by
  rcases wbStage_cases h with ⟨hl, rfl⟩ | ⟨hl, _, -, -, rfl⟩
  · have hn : s.latches.MEM.status ≠ .normal := fun hn => absurd (hl.symm.trans (Latch.live_iff.mpr hn)) nofun
    simp only [hn, false_and, if_false]
    exact ⟨rfl, fun _ => rfl⟩
  · simp only [Latch.live_iff.mp hl, true_and, if_true]
    exact ⟨by rw [commit_eq]; rfl, readReg_commit _⟩

/-- What a non-freeze tick does to the commit count and to each register. -/
theorem step_commits {s s' : State} (hd : s.dMissRemaining = 0) (h : step s = .next s') :
    s'.dynamicInstructions = s.dynamicInstructions + (if s.latches.MEM.status = .normal then 1 else 0) ∧
    ∀ r, s'.readReg r =
      if s.latches.MEM.status = .normal ∧ s.latches.MEM.writesRd = true ∧ s.latches.MEM.rd ≠ 0 ∧ r = s.latches.MEM.rd
      then s.latches.MEM.writeValue else s.readReg r := by
  obtain ⟨t, ht, hregs, hcount⟩ := registers_step hd h
  obtain ⟨hcount', hread⟩ := wbStage_commits ht
  exact ⟨hcount.trans hcount', fun r => (readReg_congr hregs r).trans (hread r)⟩

/-- Settles O41: the raising access is not made, IF takes the exception instead of fetching, and only WB writes. -/
theorem memoryExceptionIsPrecise : Obligations.MemoryExceptionIsPrecise := by
  intro s s' hI hd h hmem
  obtain ⟨-, hread⟩ := step_commits hd h
  have hr : s.raises = true := Bool.or_eq_true_iff.mpr (.inl hmem)
  obtain ⟨t, ht, rfl⟩ := step_of_raises hI hd h hr
  obtain ⟨hmemory, hdcache⟩ := ht.precise hmem
  refine ⟨hmemory, hdcache, ht.icache, ?_, fun r hne => ?_⟩
  · exact ht.loadStallCount_of_memRaises hmem
  · rw [hread r] at hne
    split at hne
    next hwrite =>
      obtain ⟨hn, -, -, hrd⟩ := hwrite
      exact ⟨hn, hrd.symm⟩
    next => exact absurd rfl hne

/-- Settles O40: each part of the state that trap entry leaves, in either cause. -/
theorem trapEntry : Obligations.TrapEntry := by
  intro s s' hI hd h hr
  obtain ⟨hcount, -⟩ := step_commits hd h
  obtain ⟨n, hmode⟩ := mode_step hI hd h
  have hnote := annotationAfterATick s s' hI h
  rw [if_neg (by simp [hd, hr])] at hnote
  obtain ⟨t, ht, rfl⟩ := step_of_raises hI hd h hr
  obtain ⟨-, -, haccess⟩ := ht.access
  have hexecute := ht.executeStatus_of_raises hr
  refine ⟨rfl, rfl, rfl, rfl, rfl, rfl, ?_, ?_, ht.icache, ht.writeback, fun hn => ?_,
    ht.loadStallCount_of_memRaises, fun hmem => ⟨?_, ?_, fun _ => ?_⟩, fun hmem => ⟨?_, ?_, fun _ => ?_⟩⟩
  · exact hmode ▸ modeAfter_ne_running hr _ _
  · intro hh
    rw [hmode, hr, hh]
    rfl
  · rw [hcount, if_pos hn]
  · exact haccess.trans (if_pos hmem)
  · exact hexecute.trans (if_pos hmem)
  · rw [hnote, if_pos hmem]
  · exact haccess.trans (if_neg (by simp [hmem]))
  · exact hexecute.trans (if_neg (by simp [hmem]))
  · rw [hnote, if_neg (by simp [hmem])]

/-! ## When a tick is refused (R297) -/

/-- A live load or store that passes the bound check is at an address that is no multiple of its width (R86). -/
def State.DataMisaligned (s : State) : Prop :=
  s.accesses = true ∧ s.memRaises = false ∧ s.latches.EX.memAddr.toNat % accessWidth s.latches.EX.kind ≠ 0

/-- A taken target is no multiple of 4 (R222, R351). -/
def State.TargetMisaligned (s : State) : Prop := s.takes = true ∧ (resolve s.forwarded).toNat % 4 ≠ 0

/-- A RESERVED word is decoded live (R149). -/
def State.DecodesReserved (s : State) : Prop := s.decodesLive = true ∧ ∃ c, decodeWord s.latches.IF.raw = .reserved c

/-- A SYSTEM word is decoded live (R262). -/
def State.DecodesSystem (s : State) : Prop :=
  s.decodesLive = true ∧ ∃ imm rs1 f3 rd, decodeWord s.latches.IF.raw = .instr (.system imm rs1 f3 rd)

/-- The tick fetches beyond memory (R89). -/
def State.FetchesOutside (s : State) : Prop := s.fetches = true ∧ s.memory.size < s.pc.toNat + 4

/-- WB completes. -/
theorem wbStage_completes {s : State} (hI : s.Inv) : ∃ s1, wbStage (beginTick s) = .next s1 :=
  ⟨_, wbStage_eq (s := beginTick s) hI.access⟩

/-- WB changes nothing that MEM's checks read. -/
theorem hazardStage_frame {s s1 : State} (h1 : wbStage (beginTick s) = .next s1) :
    (hazardStage s1).latches = s.latches ∧ (hazardStage s1).memory = s.memory := by
  obtain ⟨_, _, _, rfl, -⟩ := wbStage_frame h1
  exact ⟨rfl, rfl⟩

/-- MEM is refused exactly on misaligned data. -/
theorem memStage_outcome {s s1 : State} (hI : s.Inv) (h1 : wbStage (beginTick s) = .next s1) :
    (s.DataMisaligned → memStage (hazardStage s1) = .refused .misalignedData) ∧
    (¬ s.DataMisaligned → ∃ s2, memStage (hazardStage s1) = .next s2) := by
  obtain ⟨hl, hm⟩ := hazardStage_frame h1
  have hacc : (hazardStage s1).accesses = s.accesses := by simp only [State.accesses, hl]
  have hraise : (hazardStage s1).memRaises = s.memRaises := by simp only [State.memRaises, hacc, hl, hm]
  rw [memStage_eq (hl ▸ hI.execute), hacc, hraise, hl]
  simp only [memAddr_storeDataForward, kind_storeDataForward]
  refine ⟨fun ⟨ha, hr, hal⟩ => ?_, fun hno => ?_⟩
  · rw [if_neg (by simp [ha]), if_neg (by simp [hr]), if_pos hal]
  · split_ifs with ha hr hal
    · exact ⟨_, rfl⟩
    · exact ⟨_, rfl⟩
    · exact absurd ⟨by simpa using ha, by simpa using hr, hal⟩ hno
    · exact ⟨_, rfl⟩

/-- A taken resolution is of a live control instruction in EX, whose target is not the next address (R350 to R353). -/
theorem State.takes_iff {s : State} :
    s.takes = true ↔ s.stalls = false ∧ s.latches.ID.live = true ∧
      (s.forwarded.isControl && !s.memRaises) = true ∧ resolve s.forwarded ≠ s.forwarded.pc + 4 := by
  have hc : s.forwarded.isControl = s.latches.ID.isControl := rfl
  have hp : s.forwarded.pc = s.latches.ID.pc := rfl
  simp [State.takes, State.resolves, hc, hp, and_assoc]

/-- EX is refused exactly on a misaligned target. -/
theorem exStage_outcome {s s2 : State} (hI : s.Inv) (hl : s2.latches = s.latches) (hst : s2.work.stall = s.stalls)
    (hme : s2.work.memExc = s.memRaises) :
    (s.TargetMisaligned → exStage s2 = .refused .misalignedTarget) ∧
    (¬ s.TargetMisaligned → ∃ s3, exStage s2 = .next s3) := by
  have hf : s2.forwarded = s.forwarded := by simp only [State.forwarded, hl]
  have live (hs : s.stalls = false) (hlive : s.latches.ID.live = true) :=
    exStage_live (hl ▸ hI.decode) (hst.trans hs) (hl ▸ hlive)
  rw [hf, hme] at live
  refine ⟨fun ⟨ht, h4⟩ => ?_, fun hno => ?_⟩
  · obtain ⟨hs, hlive, hc, hne⟩ := State.takes_iff.mp ht
    exact (live hs hlive).1 ⟨hc, hne, h4⟩
  · cases hs : s.stalls with
    | true => exact ⟨_, if_pos (hst.trans hs)⟩
    | false =>
      cases hlive : s.latches.ID.live with
      | false => exact ⟨_, (if_neg (by simp [hst, hs])).trans (if_neg (by simp [hl, hlive]))⟩
      | true =>
        exact ⟨_, (live hs hlive).2 fun ⟨hc, hne, h4⟩ => hno ⟨State.takes_iff.mpr ⟨hs, hlive, hc, hne⟩, h4⟩⟩

/-- The instructions of class SYSTEM. -/
theorem opClass_eq_system_iff {i : Instr} :
    i.opClass = .system ↔ ∃ imm rs1 f3 rd, i = .system imm rs1 f3 rd := by
  cases i <;> simp [Instr.opClass]

/-- The word in `IF'` enters ID live exactly when nothing squashes it (R359). -/
theorem decodeStatus_eq_normal_iff (s : State) :
    decodeStatus s = .normal ↔
      s.latches.IF.status ≠ .squashed ∧ s.work.taken.isSome = false ∧ s.work.memExc = false := by
  simp [decodeStatus, and_assoc]

/-- ID is refused exactly on a live RESERVED or SYSTEM word. -/
theorem idStage_outcome {s s3 : State} (hl : s3.latches = s.latches) (him : s3.iMissRemaining = s.iMissRemaining)
    (hst : s3.work.stall = s.stalls) (hme : s3.work.memExc = s.memRaises) (htk : s3.work.taken.isSome = s.takes) :
    (s.DecodesReserved → idStage s3 = .refused .reservedEncoding) ∧
    (s.DecodesSystem → idStage s3 = .refused .systemInstruction) ∧
    (¬ s.DecodesReserved → ¬ s.DecodesSystem → ∃ s4, idStage s3 = .next s4) := by
  have decodes (hs : s.stalls = false) (h0 : s.iMissRemaining = 0) : idStage s3 = decodeInto s3 :=
    (if_neg (by simp [hst, hs])).trans (if_neg (by omega))
  have live (hs : s.stalls = false) (h0 : s.iMissRemaining = 0) :
      decodeStatus s3 = .normal ↔ s.decodesLive = true := by
    rw [decodeStatus_eq_normal_iff, hl, htk, hme, State.decodesLive_iff]
    simp [hs, h0]
  have instr := decodeInto_eq s3
  rw [hl] at instr
  refine ⟨fun ⟨hlive, c, hc⟩ => ?reserved, fun ⟨hlive, imm, rs1, f3, rd, hi⟩ => ?system, fun hnr hns => ?completes⟩
  case reserved =>
    obtain ⟨hs, h0, -⟩ := State.decodesLive_iff.mp hlive
    rw [decodes hs h0, instr, hc]
    exact if_pos ((live hs h0).mpr hlive)
  case system =>
    obtain ⟨hs, h0, -⟩ := State.decodesLive_iff.mp hlive
    rw [decodes hs h0, instr, hi]
    exact if_pos ⟨rfl, (live hs h0).mpr hlive⟩
  case completes =>
    cases hs : s.stalls with
    | true => exact ⟨_, if_pos (hst.trans hs)⟩
    | false =>
      by_cases h0 : s.iMissRemaining = 0
      · rw [decodes hs h0, instr]
        cases hw : decodeWord s.latches.IF.raw with
        | instr i =>
          refine ⟨_, if_neg fun ⟨hsys, hn⟩ => hns ⟨(live hs h0).mp hn, ?_⟩⟩
          obtain ⟨imm, rs1, f3, rd, rfl⟩ := opClass_eq_system_iff.mp hsys
          exact ⟨imm, rs1, f3, rd, hw⟩
        | reserved c => exact ⟨_, if_neg fun hn => hnr ⟨(live hs h0).mp hn, c, hw⟩⟩
        | illegal =>
          dsimp only
          split
          · exact ⟨_, rfl⟩
          · exact ⟨_, rfl⟩
      · exact ⟨_, (if_neg (by simp [hst, hs])).trans (if_pos (by omega))⟩

/-- A tick fetches when it raises nothing, does not stall and waits for no fetch. -/
theorem State.fetches_iff {s : State} :
    s.fetches = true ↔ s.raises = false ∧ s.stalls = false ∧ s.iMissRemaining = 0 := by
  simp [State.fetches, and_assoc]

/-- IF is refused exactly on a fetch beyond memory; the re-fetch of a stall is at an address that was fetched. -/
theorem ifStage_outcome {s t : State} (hI : s.Inv) (hm : s.mode = .running) (ht : s.AfterDecode t) :
    (s.FetchesOutside → ifStage t = .refused .fetchOutOfRange) ∧
    (¬ s.FetchesOutside → ∃ u, ifStage t = .next u) := by
  have hinside := hI.fetchedInside hm
  rw [ifStage, ht.exc, ht.stall, ht.iMiss]
  refine ⟨fun ⟨hf, hout⟩ => ?_, fun hno => ?_⟩
  · obtain ⟨hr, hs, h0⟩ := State.fetches_iff.mp hf
    rw [hr, hs, h0, fetchStage, ht.memorySize, ht.pc]
    exact if_pos hout
  · split_ifs with hr hs h0
    · exact ⟨_, rfl⟩
    · unfold refetchStage
      dsimp only
      split_ifs with h0 hout
      · rw [memory_setNewIF, ht.memorySize, ht.latches] at hout
        omega
      · exact ⟨_, rfl⟩
      · exact ⟨_, rfl⟩
    · exact ⟨_, rfl⟩
    · have hf : s.fetches = true := State.fetches_iff.mpr ⟨by simpa using hr, by simpa using hs, by omega⟩
      rw [fetchStage, ht.memorySize, ht.pc]
      exact ⟨_, if_neg fun hout => hno ⟨hf, hout⟩⟩

/-! A tick reaches each stage when no stage before it refuses, and there is refused on that stage's condition alone. -/

theorem reaches_execute {s : State} (hI : s.Inv) (hdata : ¬ s.DataMisaligned) :
    ∃ s1 s2, wbStage (beginTick s) = .next s1 ∧ memStage (hazardStage s1) = .next s2 ∧
      (s.TargetMisaligned → exStage s2 = .refused .misalignedTarget) ∧
      (¬ s.TargetMisaligned → ∃ s3, exStage s2 = .next s3) := by
  obtain ⟨s1, h1⟩ := wbStage_completes hI
  obtain ⟨s2, h2⟩ := (memStage_outcome hI h1).2 hdata
  refine ⟨s1, s2, h1, h2, ?_⟩
  obtain ⟨_, _, _, _, _, _, _, rfl, -, -⟩ := tick_through_memory hI h1 h2
  exact exStage_outcome hI rfl rfl rfl

theorem reaches_decode {s : State} (hI : s.Inv) (hdata : ¬ s.DataMisaligned) (htarget : ¬ s.TargetMisaligned) :
    ∃ s1 s2 s3, wbStage (beginTick s) = .next s1 ∧ memStage (hazardStage s1) = .next s2 ∧ exStage s2 = .next s3 ∧
      (s.DecodesReserved → idStage s3 = .refused .reservedEncoding) ∧
      (s.DecodesSystem → idStage s3 = .refused .systemInstruction) ∧
      (¬ s.DecodesReserved → ¬ s.DecodesSystem → ∃ s4, idStage s3 = .next s4) := by
  obtain ⟨s1, s2, h1, h2, -, hex⟩ := reaches_execute hI hdata
  obtain ⟨s3, h3⟩ := hex htarget
  refine ⟨s1, s2, s3, h1, h2, h3, ?_⟩
  obtain ⟨_, _, _, _, _, _, _, rfl, -, -⟩ := tick_through_memory hI h1 h2
  obtain ⟨_, _, rfl, -, -⟩ := tick_execute hI h3 rfl rfl rfl rfl
  exact idStage_outcome rfl rfl rfl rfl (by cases s.takes <;> rfl)

theorem reaches_fetch {s : State} (hI : s.Inv) (hm : s.mode = .running) (hdata : ¬ s.DataMisaligned)
    (htarget : ¬ s.TargetMisaligned) (hreserved : ¬ s.DecodesReserved) (hsystem : ¬ s.DecodesSystem) :
    ∃ s1 s2 s3 s4, wbStage (beginTick s) = .next s1 ∧ memStage (hazardStage s1) = .next s2 ∧
      exStage s2 = .next s3 ∧ idStage s3 = .next s4 ∧
      (s.FetchesOutside → ifStage s4 = .refused .fetchOutOfRange) ∧
      (¬ s.FetchesOutside → ∃ s5, ifStage s4 = .next s5) := by
  obtain ⟨s1, s2, s3, h1, h2, h3, -, -, hid⟩ := reaches_decode hI hdata htarget
  obtain ⟨s4, h4⟩ := hid hreserved hsystem
  exact ⟨s1, s2, s3, s4, h1, h2, h3, h4, ifStage_outcome hI hm (afterDecode hI h1 h2 h3 h4)⟩

/-- Settles O26: the stages are reached in the tick's order, and each is refused exactly on its own condition. -/
theorem tickCompletesUnlessRefused : Obligations.TickCompletesUnlessRefused := by
  intro s hI hm hf hd
  refine ⟨fun hdata => ?data, fun hdata htarget => ?target, fun hdata htarget hreserved => ?reserved,
    fun hdata htarget hsystem => ?system, fun hdata htarget hreserved hsystem hfetch => ?fetch,
    fun hdata htarget hreserved hsystem hfetch => ?completes⟩
  case data =>
    obtain ⟨s1, h1⟩ := wbStage_completes hI
    exact step_of_memory_refused hm hf hd h1 ((memStage_outcome hI h1).1 hdata)
  case target =>
    obtain ⟨s1, s2, h1, h2, hex, -⟩ := reaches_execute hI hdata
    exact step_of_execute_refused hm hf hd h1 h2 (hex htarget)
  case reserved =>
    obtain ⟨s1, s2, s3, h1, h2, h3, hid, -, -⟩ := reaches_decode hI hdata htarget
    exact step_of_decode_refused hm hf hd h1 h2 h3 (hid hreserved)
  case system =>
    obtain ⟨s1, s2, s3, h1, h2, h3, -, hid, -⟩ := reaches_decode hI hdata htarget
    exact step_of_decode_refused hm hf hd h1 h2 h3 (hid hsystem)
  case fetch =>
    obtain ⟨s1, s2, s3, s4, h1, h2, h3, h4, hif, -⟩ := reaches_fetch hI hm hdata htarget hreserved hsystem
    exact step_of_fetch_refused hm hf hd h1 h2 h3 h4 (hif hfetch)
  case completes =>
    obtain ⟨s1, s2, s3, s4, h1, h2, h3, h4, -, hif⟩ := reaches_fetch hI hm hdata htarget hreserved hsystem
    obtain ⟨s5, h5⟩ := hif hfetch
    exact ⟨_, step_eq_next.mpr ⟨hm, hf, .inr ⟨hd, s1, s2, s3, s4, s5, h1, h2, h3, h4, h5, rfl⟩⟩⟩

end Sys2Proof.Machine
end

section
/-! The proofs of the reset and hazards family: the frame of EX, freeze ticks, what each stage of a tick publishes, the
hazards, the host's operations, and the agreement of a run with sequential execution. -/

namespace Sys2Proof.Machine

/-! ## The frame of EX (R343, R349) -/

/-- Only the EX latch and the taken target may differ, and of the latch only value fields. -/
def State.SameButExecute (s s' : State) : Prop :=
  ∃ l t, s' = { s with work := { s.work with taken := t, new := { s.work.new with EX := l } } } ∧
    l.decoded = s.work.new.EX.decoded

theorem sameButExecute_refl (s : State) : s.SameButExecute s := ⟨_, _, rfl, rfl⟩

/-- The EX work of a branch, whatever the latch holds: a resolution. -/
theorem exec_at_execute_branch_resolves {i : Instr} {s : State} (hs : s.work.stage = .execute)
    (hc : i.opClass = .branch) : ∃ a, exec i s = resolveTo a s := by
  cases i <;> simp [Instr.opClass] at hc
  all_goals
    simp only [exec, execBeq, execBne, execBlt, execBge, execBltu, execBgeu, branching, hs]
    exact ⟨_, rfl⟩

/-- The EX work of a jump, whatever the latch holds: a resolution, then the link. -/
theorem exec_at_execute_jump_resolves {i : Instr} {s : State} (hs : s.work.stage = .execute)
    (hc : i.opClass = .jal ∨ i.opClass = .jalr) :
    ∃ a, exec i s = andThen (resolveTo a s) fun s => .next (setAluResult (s.work.new.EX.pc + 4) s) := by
  cases i <;> simp [Instr.opClass] at hc
  all_goals
    simp only [exec, execJal, execJalr, jumping, hs]
    exact ⟨_, rfl⟩

/-- SYSTEM has no EX work: it is refused (R262). -/
theorem exec_at_execute_system {i : Instr} {s : State} (hs : s.work.stage = .execute) (hc : i.opClass = .system) :
    exec i s = .refused .systemInstruction := by
  obtain ⟨imm, rs1, f3, rd, rfl⟩ := opClass_eq_system_iff.mp hc
  simp only [exec, execSystem, hs]

theorem sameButExecute_resolveTo {a : Word} {s s' : State} (h : resolveTo a s = .next s') : s.SameButExecute s' := by
  rcases resolveTo_eq_next h with ⟨-, rfl⟩ | ⟨-, -, rfl⟩ | ⟨-, -, -, rfl⟩
  · exact sameButExecute_refl _
  · exact ⟨_, _, rfl, rfl⟩
  · exact ⟨_, _, rfl, rfl⟩

/-- Setting the ALU result after EX work is EX work. -/
theorem sameButExecute_setAluResult {s s' : State} (h : s.SameButExecute s') (v : Word) :
    s.SameButExecute (setAluResult v s') := by
  obtain ⟨l, t, rfl, hl⟩ := h
  exact ⟨_, _, rfl, hl⟩

/-- Settles O21: by the class of the instruction, EX work is a resolution, an ALU result, an address, or nothing. -/
theorem executeChangesOnlyItsLatch : Obligations.ExecuteChangesOnlyItsLatch := by
  intro i s s' hs h
  show s.SameButExecute s'
  cases hc : i.opClass with
  | branch =>
    obtain ⟨a, ha⟩ := exec_at_execute_branch_resolves hs hc
    exact sameButExecute_resolveTo (ha.symm.trans h)
  | jal | jalr =>
    obtain ⟨a, ha⟩ := exec_at_execute_jump_resolves hs (i := i) (by simp [hc])
    obtain ⟨t, ht, hlink⟩ := andThen_eq_next.mp (ha.symm.trans h)
    cases hlink
    exact sameButExecute_setAluResult (sameButExecute_resolveTo ht) _
  | load | store =>
    rw [exec_at_execute_memory hs (by simp [hc])] at h
    cases h
    exact ⟨_, _, rfl, rfl⟩
  | op | opImm | lui | auipc =>
    obtain ⟨v, hv⟩ := exec_at_execute_compute hs (i := i) (by simp [hc])
    cases hv.symm.trans h
    exact sameButExecute_setAluResult (sameButExecute_refl s) v
  | halt =>
    cases i <;> simp [Instr.opClass] at hc
    cases (exec_at_execute_halt hs).symm.trans h
    exact sameButExecute_refl _
  | system => cases (exec_at_execute_system hs hc).symm.trans h
  | none => cases i <;> simp [Instr.opClass] at hc

/-! ## The step and its refusal (R327, R329, R377) -/

/-- The MEM work of a live latch is its instruction's, on the latch after store-data forwarding (R339). -/
theorem memStage_of_kind {s : State} {i : Instr} (hl : s.latches.EX.live = true) (hk : s.latches.EX.kind = .instr i) :
    memStage s = exec i ((s.setNewMEM (storeDataForward s.latches.EX s.latches.MEM)).atStage .memory) := by
  simp only [memStage, live_storeDataForward, kind_storeDataForward, hl, hk, if_true, execKind]

/-- Settles O22: the tick is its stages in order, and each stage gives a live latch to `exec`. -/
theorem stepRunsTheDecodedInstructions : Obligations.StepRunsTheDecodedInstructions := by
  intro s hm hf hd
  refine ⟨step_eq_tick hm hf hd, fun i hl hk => ?writeback, fun i hl hk => memStage_of_kind hl hk,
    fun i hst hl hk => ?execute, fun i hst h0 hi => ?decode⟩
  case writeback => simp only [wbStage, hl, hk, if_true, execKind]
  case execute => simp only [exStage, hst, hl, hk, Bool.false_eq_true, if_false, if_true, execKind]
  case decode =>
    simp only [idStage, hst, h0, Bool.false_eq_true, if_false, gt_iff_lt, lt_irrefl, decodeInto, hi]

/-- A part of a tick is not refused as a host operation is. -/
def Tickable (o : Result) : Prop := o ≠ .refused .notRunning

theorem tickable_next (s : State) : Tickable (.next s) := nofun

theorem tickable_andThen {o : Result} {f : State → Result} (ho : Tickable o) (hf : ∀ s, Tickable (f s)) :
    Tickable (andThen o f) := by
  cases o with
  | next s => exact hf s
  | fault r => cases r
  | refused r => exact ho

theorem tickable_ite {c : Prop} [Decidable c] {a b : Result} (ha : Tickable a) (hb : Tickable b) :
    Tickable (if c then a else b) := by
  split
  · exact ha
  · exact hb

theorem tickable_resolveTo (a : Word) (s : State) : Tickable (resolveTo a s) := by
  rw [resolveTo_eq]
  exact tickable_ite (tickable_next _) (tickable_ite (tickable_next _) nofun)

theorem tickable_accessMemory (n : Nat) (op : CacheOp) (perform : Nat → State → State) (s : State) :
    Tickable (accessMemory n op perform s) := by
  rw [accessMemory_eq]
  exact tickable_ite (tickable_next _) (tickable_ite nofun (tickable_next _))

theorem tickable_exec_execute (i : Instr) {s : State} (hs : s.work.stage = .execute) : Tickable (exec i s) := by
  cases hc : i.opClass with
  | branch =>
    obtain ⟨a, ha⟩ := exec_at_execute_branch_resolves hs hc
    exact ha ▸ tickable_resolveTo a s
  | jal | jalr =>
    obtain ⟨a, ha⟩ := exec_at_execute_jump_resolves hs (i := i) (by simp [hc])
    exact ha ▸ tickable_andThen (tickable_resolveTo a s) fun _ => tickable_next _
  | load | store => exact exec_at_execute_memory hs (i := i) (by simp [hc]) ▸ tickable_next _
  | op | opImm | lui | auipc =>
    obtain ⟨v, hv⟩ := exec_at_execute_compute hs (i := i) (by simp [hc])
    exact hv ▸ tickable_next _
  | halt =>
    cases i <;> simp [Instr.opClass] at hc
    exact exec_at_execute_halt hs ▸ tickable_next _
  | system => rw [exec_at_execute_system hs hc]; nofun
  | none => cases i <;> simp [Instr.opClass] at hc

theorem tickable_exec_memory (i : Instr) {s : State} (hs : s.work.stage = .memory) : Tickable (exec i s) := by
  by_cases hl : i.opClass = .load
  · exact exec_at_memory_load hs hl ▸ tickable_accessMemory _ _ _ _
  by_cases ht : i.opClass = .store
  · exact exec_at_memory_store hs ht ▸ tickable_accessMemory _ _ _ _
  by_cases hy : i.opClass = .system
  · obtain ⟨imm, rs1, f3, rd, rfl⟩ := opClass_eq_system_iff.mp hy
    simp only [exec, execSystem, hs]
    nofun
  · exact exec_at_memory_other hs hl ht hy ▸ tickable_next _

/-- No instruction's work in any stage is refused as a host operation is. -/
theorem tickable_exec (i : Instr) (s : State) : Tickable (exec i s) := by
  cases hs : s.work.stage with
  | decode => exact exec_at_decode i hs ▸ tickable_ite nofun (tickable_next _)
  | execute => exact tickable_exec_execute i hs
  | memory => exact tickable_exec_memory i hs
  | writeback => exact exec_at_writeback i hs ▸ tickable_ite nofun (tickable_next _)

theorem tickable_execKind (k : Kind) (s : State) : Tickable (execKind k s) := by
  cases k with
  | instr i => exact tickable_exec i s
  | reserved => nofun

theorem tickable_decodeInto (s : State) : Tickable (decodeInto s) := by
  rw [decodeInto_eq]
  split
  · exact tickable_ite nofun (tickable_next _)
  · exact tickable_ite nofun (tickable_next _)
  · exact tickable_ite (tickable_next _) (tickable_next _)

theorem tickable_ifStage (s : State) : Tickable (ifStage s) :=
  tickable_ite (tickable_next _) <| tickable_ite
    (tickable_ite (tickable_ite nofun (tickable_next _)) (tickable_next _)) <|
    tickable_ite (tickable_next _) (tickable_ite nofun (tickable_next _))

theorem tickable_tick (s : State) : Tickable (tick s) :=
  tickable_andThen (tickable_ite (tickable_execKind _ _) (tickable_next _)) fun _ =>
  tickable_andThen (tickable_ite (tickable_execKind _ _) (tickable_next _)) fun _ =>
  tickable_andThen
    (tickable_ite (tickable_next _) (tickable_ite (tickable_execKind _ _) (tickable_next _))) fun _ =>
  tickable_andThen
    (tickable_ite (tickable_next _) (tickable_ite (tickable_next _) (tickable_decodeInto _))) fun _ =>
  tickable_andThen (tickable_ifStage _) fun _ => tickable_next _

/-- Settles O25: only the check of `advance` answers `notRunning`, since no stage of a tick does. -/
theorem stepIsRefusedUnlessRunning : Obligations.StepIsRefusedUnlessRunning := by
  intro s
  by_cases hr : s.mode = .running ∧ s.finalized = false
  · obtain ⟨hm, hf⟩ := hr
    have hstep : Tickable (step s) := by
      unfold step advance
      rw [if_pos ⟨hm, hf⟩]
      exact tickable_ite (tickable_next _) (tickable_tick s)
    exact iff_of_false hstep (by simp [hm, hf])
  · refine iff_of_true (if_neg hr) ?_
    rwa [not_and_or, Bool.not_eq_false] at hr

/-! ## Freeze ticks (R328, R341) -/

theorem step_of_pending {s : State} (hm : s.mode = .running) (hf : s.finalized = false) (hd : 0 < s.dMissRemaining) :
    step s = .next (freezeTick s) :=
  step_eq_next.mpr ⟨hm, hf, .inl ⟨hd, rfl⟩⟩

/-- Settles O24: a freeze tick by its definition, and `k` of them by induction on `k`. -/
theorem freezeTicksHaveNoOtherEffect : Obligations.FreezeTicksHaveNoOtherEffect := by
  refine ⟨fun s hm hf hd => step_of_pending hm hf hd, fun k s hm hf hd hk => ?_⟩
  induction k, hk using Nat.le_induction generalizing s with
  | base =>
    have hstep := step_of_pending hm hf (by omega)
    refine ⟨freezeTick s, ?_, ?_, rfl⟩
    · simp only [Host.Core.run, Host.Check.core_step, hstep]
    · simp only [freezeTick, emitSnapshot, hd]
      rfl
  | succ k hk ih =>
    have hstep := step_of_pending hm hf (by omega)
    have hd' : (freezeTick s).dMissRemaining = k := by
      show s.dMissRemaining - 1 = k
      omega
    obtain ⟨s', hrun, hs', hcount⟩ := ih (freezeTick s) hm hf hd'
    refine ⟨s', ?_, ?_, ?_⟩
    · simp only [Host.Core.run, Host.Check.core_step, hstep]
      exact hrun
    · rw [hs']
      simp only [freezeTick, emitSnapshot, Nat.sub_sub, Nat.add_assoc, Nat.add_comm 1 k]
      rfl
    · rw [hcount]
      show snapshotCount s.sink + 1 + k = _
      omega

/-! ## Forwarding (R339, R346) -/

theorem feeds_iff {l : Latch} {r : Reg} :
    l.feeds r = true ↔ l.status = .normal ∧ l.writesRd = true ∧ l.rd = r := by
  simp [Latch.feeds, Latch.live, and_assoc]

/-- Settles O28: the conditions of the definition one by one; the MEM work finds the forwarded latch. -/
theorem storeDataForwarding : Obligations.StoreDataForwarding := by
  refine ⟨fun e m => if_congr ?_ rfl rfl, fun s i hl hk => memStage_of_kind hl hk⟩
  simp only [Bool.and_eq_true, Latch.live_iff, feeds_iff, Bool.not_eq_true', bne_iff_ne]
  tauto

/-- Settles O30: each operand is decided by the same conditions in the same order. -/
theorem forwardingPriorities : Obligations.ForwardingPriorities := by
  intro d ex mem operand
  have same (reads : Bool) (r : Reg) (captured : Word) :
      forwardOperand reads r captured ex mem = operand reads r captured := by
    unfold forwardOperand
    simp only [operand, Bool.and_eq_true, bne_iff_ne, feeds_iff, and_assoc]
    cases reads <;> by_cases hr : r = 0 <;> simp [hr]
  unfold forward
  rw [same, same]

end Sys2Proof.Machine
end

section
/-! The proofs of the reset and hazards family, on the host's operations. -/

namespace Sys2Proof.Machine

/-! ## Runs of ticks (R375) -/

theorem runCycles_of_running {s : State} (hm : s.mode = .running) (hf : s.finalized = false) (n : Nat) :
    runCycles n s = runTicks n s := if_pos ⟨hm, hf⟩

theorem runTicks_succ_eq_next {n : Nat} {s s' : State} :
    runTicks (n + 1) s = .next s' ↔
      ∃ t, step s = .next t ∧ (t.mode = .running ∧ runTicks n t = .next s' ∨ t.mode ≠ .running ∧ t = s') := by
  rw [runTicks, andThen_eq_next]
  refine exists_congr fun t => and_congr_right fun _ => ?_
  by_cases ht : t.mode = .running <;> simp [ht]

/-- One cycle is one step. -/
theorem runTicks_one (s : State) : runTicks 1 s = step s := by
  rw [runTicks]
  cases step s with
  | next t => exact ite_self _
  | fault r => rfl
  | refused r => rfl

/-- `run_cycles` goes on from a step after which the core still runs. -/
theorem runCycles_succ_of_step {s t : State} (hm : s.mode = .running) (hf : s.finalized = false)
    (hstep : step s = .next t) (ht : t.mode = .running) (n : Nat) : runCycles (n + 1) s = runCycles n t := by
  have hft : t.finalized = false := (noTickChangesTheConfiguration s t hstep).2.2.2
  rw [runCycles_of_running hm hf, runCycles_of_running ht hft, runTicks, hstep, andThen_next, if_pos ht]

/-- `run_cycles` of a positive budget answers what its first step answers, when the core does not run after it. -/
theorem runCycles_succ_of_stop {s : State} (hm : s.mode = .running) (hf : s.finalized = false)
    (hstop : ∀ t, step s = .next t → t.mode ≠ .running) (n : Nat) : runCycles (n + 1) s = step s := by
  rw [runCycles_of_running hm hf, runTicks]
  cases hstep : step s with
  | next t => exact if_neg (hstop t hstep)
  | fault r => rfl
  | refused r => rfl

/-- A tick returned SUCCESS when the core runs after it (R373). -/
theorem status_eq_success_iff {s : State} : s.status = .success ↔ s.mode = .running := by
  cases h : s.mode <;> simp [State.status, h]

/-- Settles O56: by induction on the fuel; both loops make the same first step, and stop or go on alike. -/
theorem runTillHaltIsRunUntilStop : Obligations.RunTillHaltIsRunUntilStop := by
  intro fuel s hm hf
  induction fuel generalizing s with
  | zero =>
    rw [runUntilStop, runCycles_of_running hm hf]
    exact (if_pos hm).symm
  | succ n ih =>
    have hone : runCycles 1 s = step s := (runCycles_of_running hm hf 1).trans (runTicks_one s)
    by_cases hgo : ∃ t, step s = .next t ∧ t.mode = .running
    · obtain ⟨t, hstep, ht⟩ := hgo
      have hft : t.finalized = false := (noTickChangesTheConfiguration s t hstep).2.2.2
      calc runTillHalt (n + 1) s
        _ = runTillHalt n t := by
          rw [runTillHalt, hone, hstep]
          exact if_pos (status_eq_success_iff.mpr ht)
        _ = runUntilStop n t := ih t ht hft
        _ = runUntilStop (n + 1) s := by rw [runUntilStop, runUntilStop, runCycles_succ_of_step hm hf hstep ht]
    · have hstop : ∀ t, step s = .next t → t.mode ≠ .running := fun t ht hr => hgo ⟨t, ht, hr⟩
      rw [runTillHalt, hone, runUntilStop, runCycles_succ_of_stop hm hf hstop]
      cases hstep : step s with
      | next t =>
        have ht := hstop t hstep
        exact (if_neg fun h => ht (status_eq_success_iff.mp h)).trans (if_neg ht).symm
      | fault r => rfl
      | refused r => rfl

/-- Between zero and `n` ticks are made, all `n` when the core runs after them, and each emits one snapshot. -/
theorem runTicks_counts {n : Nat} {s s' : State} (h : runTicks n s = .next s') :
    s.cycleCount ≤ s'.cycleCount ∧ s'.cycleCount ≤ s.cycleCount + n ∧
      (s'.mode = .running → s'.cycleCount = s.cycleCount + n) ∧
      s'.sink.length + s.cycleCount = s.sink.length + s'.cycleCount := by
  induction n generalizing s with
  | zero => cases h; simp
  | succ n ih =>
    obtain ⟨t, hstep, hcase⟩ := runTicks_succ_eq_next.mp h
    obtain ⟨hcycle, hsink⟩ := everyTickEmitsItsSnapshot s t hstep
    have hlength : t.sink.length = s.sink.length + 1 := by rw [hsink, List.length_cons]
    obtain ⟨-, hrest⟩ | ⟨hstop, rfl⟩ := hcase
    · obtain ⟨hmin, hmax, hall, hrecords⟩ := ih hrest
      exact ⟨by omega, by omega, fun hr => by have := hall hr; omega, by omega⟩
    · exact ⟨by omega, by omega, fun hr => absurd hr hstop, by omega⟩

/-- Settles O57: the first tick counts, and `runTicks_counts` says the rest of those after it. -/
theorem runCyclesRunsUpToItsBudget : Obligations.RunCyclesRunsUpToItsBudget := by
  intro n s s' hn h
  obtain ⟨n, rfl⟩ := Nat.exists_eq_succ_of_ne_zero hn.ne'
  by_cases hr : s.mode = .running ∧ s.finalized = false
  · rw [runCycles_of_running hr.1 hr.2] at h
    obtain ⟨-, hmax, hall, hrecords⟩ := runTicks_counts h
    obtain ⟨t, hstep, hcase⟩ := runTicks_succ_eq_next.mp h
    have hcycle : t.cycleCount = s.cycleCount + 1 := (everyTickEmitsItsSnapshot s t hstep).1
    have hmin : t.cycleCount ≤ s'.cycleCount := by
      obtain ⟨-, hrest⟩ | ⟨-, rfl⟩ := hcase
      · exact (runTicks_counts hrest).1
      · exact le_rfl
    exact ⟨by omega, hmax, hall, hrecords⟩
  · cases (if_neg hr).symm.trans h

/-! ## The end of a core (R376, R377) -/

/-- A core that does not run or is finalized refuses every operation that would make a tick (R377). -/
theorem refuses_ticks {s : State} (h : ¬ (s.mode = .running ∧ s.finalized = false)) (fuel : Nat) :
    step s = .refused .notRunning ∧
      (∀ n, hostOp fuel (some s) (.runCycles n) = some (.refused .notRunning)) ∧
      hostOp (fuel + 1) (some s) .runTillHalt = some (.refused .notRunning) := by
  have hcycles (n : Nat) : runCycles n s = .refused .notRunning := if_neg h
  refine ⟨if_neg h, fun n => ?_, ?_⟩
  · cases n with
    | zero => rw [hostOp, runUntilStop, hcycles]
    | succ n => rw [hostOp, hcycles]
  · rw [hostOp, runTillHalt, hcycles]

/-- Settles O58: `finalize` by its definition, and the refusals after it because the core is finalized. -/
theorem finalizeEndsTheCore : Obligations.FinalizeEndsTheCore := by
  intro fuel s hf
  refine ⟨fun hm => ?stopped, ⟨_, if_neg (by simp [hf]), rfl, ?finalized⟩⟩
  case stopped =>
    obtain ⟨hstep, hcycles, -⟩ := refuses_ticks (fun h => hm h.1) fuel
    exact ⟨hstep, hcycles⟩
  case finalized =>
    obtain ⟨hstep, hcycles, htill⟩ := refuses_ticks
      (s := { s with sink := .statistics s.statistics :: s.sink, finalized := true }) (fun h => absurd h.2 nofun) fuel
    exact ⟨hstep, rfl, hcycles, htill, fun _ => rfl, rfl, rfl⟩

end Sys2Proof.Machine
end

section
/-! The proofs of the reset and hazards family, on what each stage of a tick publishes. -/

namespace Sys2Proof.Machine

/-! ## What a tick publishes (R372) -/

/-- What the MEM work of a tick from `s` leaves of its latch, memory, the D-cache and the next D-miss (R339 to R341). -/
def State.MemoryWork (s : State) (l : Latch) (m : Memory) (dc : Cache) (wait : Nat) : Prop :=
  let e := storeDataForward s.latches.EX s.latches.MEM
  let access := s.dc.access e.memAddr (if e.readsMem then .read else .write)
  if s.accesses = false then l = e ∧ m = s.memory ∧ dc = s.dc ∧ wait = 0
  else if s.memRaises = true then l = e.squash ∧ m = s.memory ∧ dc = s.dc ∧ wait = 0
  else dc = access.2 ∧ wait = (if access.1 = .miss then s.dc.config.missLatency else 0) ∧
    l = (if e.readsMem then { e with memResult := loadValue e.kind s.memory e.memAddr.toNat } else e) ∧
    m = (if e.writesMem then s.memory.write e.memAddr.toNat (accessWidth e.kind) e.op2Val else s.memory)

/-- The latch that the EX work of a tick from `s` leaves (R344 to R353). -/
def State.executeWork (s : State) : Latch :=
  if s.stalls = true then bubbleLatch
  else if s.latches.ID.live = false then s.latches.ID
  else executed s.forwarded s.resolves

/-- The working state `t` after the WB, MEM, EX and ID work of a tick from `s`, as far as IF and the end of the tick read
it. -/
structure State.AfterWork (s t : State) : Prop where
  latches : t.latches = s.latches
  pc : t.pc = s.pc
  iMiss : t.iMissRemaining = s.iMissRemaining
  icache : t.ic = s.ic
  stallCount : t.loadStallCount = s.loadStallCount
  stall : t.work.stall = s.stalls
  exc : t.work.exc = s.raises
  memExc : t.work.memExc = s.memRaises
  taken : t.work.taken = if s.takes then some (resolve s.forwarded) else none
  pending : t.work.pcNext = s.pc ∧ t.work.iNext = s.iMissRemaining
  hazards : t.work.lbeNext = (hazard s.latches.ID s.latches.EX s.loadBranchExtra).lbeNext ∧
    t.work.count = (hazard s.latches.ID s.latches.EX s.loadBranchExtra).count
  memory : s.MemoryWork t.work.new.MEM t.memory t.dc t.work.dNext
  execute : t.work.new.EX = s.executeWork
  decode : t.work.new.ID = baseID s t

/-- The end `s'` of a tick from `s` whose working state after ID was `t`: trap entry squashes and clears (R284, R286), and
IF leaves alone what it does not fetch. -/
structure State.Publishes (s t s' : State) : Prop where
  regs : s'.regs = t.regs
  memory : s'.memory = t.memory
  dcache : s'.dc = t.dc
  access : s'.latches.MEM = t.work.new.MEM
  execute : s'.latches.EX = if s.memRaises then t.work.new.EX.squash else t.work.new.EX
  decode : s'.latches.ID = if s.raises then t.work.new.ID.squash else t.work.new.ID
  dMiss : s'.dMissRemaining = if s.raises then 0 else t.work.dNext
  loadBranchExtra : s'.loadBranchExtra = if s.raises then 0 else t.work.lbeNext
  loadStallCount : s'.loadStallCount = s.loadStallCount + if s.memRaises then 0 else t.work.count

/-- A tick that raises no exception raises no `MemoryException`. -/
theorem memRaises_of_not_raises {s : State} (h : s.raises = false) : s.memRaises = false :=
  (Bool.or_eq_false_iff.mp h).1

/-- A non-freeze tick from a state with the invariant, cut before IF. -/
theorem step_afterWork {s s' : State} (hI : s.Inv) (hd : s.dMissRemaining = 0) (h : step s = .next s') :
    ∃ t u, s.AfterWork t ∧ ifStage t = .next u ∧ s' = endTick u := by
  obtain ⟨t, u, r, d, lM, dc, m, dn, lE, g, hif, hs', -, -, rfl, -, hM, hE⟩ := tick_before_fetch hI hd h
  refine ⟨_, u, ?_, hif, hs'⟩
  exact {
    latches := rfl, pc := rfl, iMiss := rfl, icache := rfl, stallCount := rfl, stall := rfl, exc := rfl
    memExc := rfl, taken := rfl, pending := ⟨rfl, rfl⟩, hazards := ⟨rfl, rfl⟩
    memory := hM
    execute := by
      show lE = s.executeWork
      rw [State.executeWork]
      split_ifs at hE ⊢ <;> exact hE
    decode := rfl }

/-- What the rest of a tick leaves of the work of the stages before IF. -/
theorem State.AfterWork.publishes {s t u : State} (h : s.AfterWork t) (hif : ifStage t = .next u) :
    s.Publishes t (endTick u) := by
  obtain ⟨hexc, rfl⟩ | ⟨hexc, _, _, _, _, rfl⟩ := ifStage_changes hif
  · have hr : s.raises = true := h.exc.symm.trans hexc
    refine { regs := rfl, memory := rfl, dcache := rfl, access := rfl, execute := ?_, decode := ?_, dMiss := ?_
             loadBranchExtra := ?_, loadStallCount := ?_ }
    · rw [← h.memExc]; rfl
    · rw [hr]; rfl
    · rw [hr]; rfl
    · rw [hr]; rfl
    · rw [← h.memExc, ← h.stallCount]; rfl
  · have hr : s.raises = false := h.exc.symm.trans hexc
    have hm := memRaises_of_not_raises hr
    refine { regs := rfl, memory := rfl, dcache := rfl, access := rfl, execute := ?_, decode := ?_, dMiss := ?_
             loadBranchExtra := ?_, loadStallCount := ?_ }
    · rw [hm]; rfl
    · rw [hr]; rfl
    · rw [hr]; rfl
    · rw [hr]; rfl
    · rw [hm, ← h.stallCount]; rfl

/-- A non-freeze tick from a state with the invariant. -/
theorem step_publishes {s s' : State} (hI : s.Inv) (hd : s.dMissRemaining = 0) (h : step s = .next s') :
    ∃ t, s.AfterWork t ∧ s.Publishes t s' := by
  obtain ⟨t, u, ht, hif, rfl⟩ := step_afterWork hI hd h
  exact ⟨t, ht, ht.publishes hif⟩

/-! ## WB and MEM (R331 to R341) -/

/-- The latch that leaves MEM enters WB whatever its status (R331). -/
theorem writebackLatch_step {s s' : State} (hd : s.dMissRemaining = 0) (h : step s = .next s') :
    s'.latches.WB = s.latches.MEM := by
  obtain ⟨-, -, ⟨h0, -⟩ | ⟨-, s1, s2, s3, s4, s5, h1, h2, h3, h4, h5, rfl⟩⟩ := step_eq_next.mp h
  · omega
  obtain ⟨_, _, _, rfl, -⟩ := wbStage_frame h1
  obtain ⟨_, _, _, _, _, rfl, -⟩ := memStage_frame h2
  obtain ⟨_, _, _, rfl, -⟩ := exStage_frame h3
  obtain ⟨_, _, _, rfl, -⟩ := idStage_frame h4
  obtain ⟨-, rfl⟩ | ⟨-, _, _, _, _, rfl⟩ := ifStage_changes h5 <;> rfl

/-- Settles O27: what WB does, and that the later stages keep the registers and the count. -/
theorem writebackCommitsTheNormalLatch : Obligations.WritebackCommitsTheNormalLatch := by
  intro s s' hd h
  obtain ⟨hcount, hread⟩ := step_commits hd h
  exact ⟨writebackLatch_step hd h, hcount, hread⟩

/-- Settles O29: the MEM work as `State.MemoryWork` says; an exception of the same tick clears the wait. -/
theorem memoryStepOfATick : Obligations.MemoryStepOfATick := by
  intro s s' hI hd h e access
  obtain ⟨t, ht, hp⟩ := step_publishes hI hd h
  have hwork := ht.memory
  rw [← hp.access, ← hp.memory, ← hp.dcache, State.MemoryWork] at hwork
  by_cases hacc : s.accesses = false
  · rw [if_pos hacc] at hwork ⊢
    obtain ⟨hl, hm, hdc, hwait⟩ := hwork
    exact ⟨hl, hm, hdc, by rw [hp.dMiss, hwait, ite_self]⟩
  rw [if_neg hacc] at hwork ⊢
  by_cases hraise : s.memRaises = true
  · rw [if_pos hraise] at hwork ⊢
    obtain ⟨hl, hm, hdc, hwait⟩ := hwork
    exact ⟨hl, hm, hdc, by rw [hp.dMiss, hwait, ite_self]⟩
  · rw [if_neg hraise] at hwork ⊢
    obtain ⟨hdc, hwait, hl, hm⟩ := hwork
    refine ⟨hdc, ?_, hl, hm⟩
    rw [hp.dMiss, hwait]
    cases s.raises <;> simp [access, e]

/-! ## EX and ID (R344 to R361) -/

/-- Settles O31: the latch of `State.executeWork`, squashed by a `MemoryException`. -/
theorem executeStepOfATick : Obligations.ExecuteStepOfATick := by
  intro s s' hI hd h d squashed
  obtain ⟨t, ht, hp⟩ := step_publishes hI hd h
  have hEX : s'.latches.EX = squashed s.executeWork := hp.execute.trans (by rw [ht.execute]; rfl)
  rw [hEX, State.executeWork]
  by_cases hst : s.stalls = true
  · rw [if_pos hst, if_pos hst]
  rw [if_neg hst, if_neg hst]
  by_cases hl : s.latches.ID.live = false
  · rw [if_pos hl, if_pos hl]
  · rw [if_neg hl, if_neg hl]
    rfl

/-- A capture depends on the register file alone. -/
theorem capture_congr {s t : State} (h : s.regs = t.regs) (l : Latch) : s.capture l = t.capture l := by
  simp only [State.capture, readReg_congr h]

/-- Settles O32: the latch of `baseID`, squashed by an exception; the capture is after the register write of WB. -/
theorem decodeStepOfATick : Obligations.DecodeStepOfATick := by
  intro s s' hI hd h captured squashedIf
  obtain ⟨t, ht, hp⟩ := step_publishes hI hd h
  have hcaptured (l : Latch) : (if l.live then t.capture l else l) = captured l := by
    rw [capture_congr hp.regs.symm]
    exact if_congr Latch.live_iff rfl rfl
  rw [hp.decode, ht.decode, baseID]
  simp only [hcaptured]
  rfl

/-! ## IF (R362 to R371) -/

/-- A redirection when nothing was taken, and when a resolution was (R353, R368, R369). -/
theorem redirect_of_not_taken {b : Bool} {s : State} (h : s.work.taken = none) : redirect b s = s := by
  rw [redirect, h]

theorem redirect_of_taken {b : Bool} {s : State} {target : Word} (h : s.work.taken = some target) :
    redirect b s = { s.setNewIF s.work.new.IF.squash with
      ic := if b then s.ic.invalidate s.work.new.IF.pc else s.ic
      work := { (s.setNewIF s.work.new.IF.squash).work with iNext := 0, pcNext := target } } := by
  rw [redirect, h]
  rfl

/-- What IF publishes: the latch, the I-cache, the I-miss and `pc`. -/
structure State.Fetches (s' : State) (l : Latch) (ic : Cache) (wait : Nat) (pc : Word) : Prop where
  latch : s'.latches.IF = l
  icache : s'.ic = ic
  iMiss : s'.iMissRemaining = wait
  pc : s'.pc = pc

/-- The end of a tick whose IF step was `w` and then the redirection of the resolution that was taken, if one was. -/
theorem fetches_redirect {w : State} {takes : Bool} {target : Word} (b : Bool)
    (h : w.work.taken = if takes then some target else none) :
    (endTick (redirect b w)).Fetches (if takes then w.work.new.IF.squash else w.work.new.IF)
      (if takes && b then w.ic.invalidate w.work.new.IF.pc else w.ic)
      (if takes then 0 else w.work.iNext) (if takes then target else w.work.pcNext) := by
  cases takes with
  | false => rw [redirect_of_not_taken h]; exact ⟨rfl, rfl, rfl, rfl⟩
  | true => rw [redirect_of_taken h]; exact ⟨rfl, by rw [Bool.true_and]; rfl, rfl, rfl⟩

/-- IF in the four cases of a tick: trap entry, a stall, a wait for a fetch, and a fetch (R286, R362 to R371). -/
theorem step_fetches {s s' : State} (hI : s.Inv) (hd : s.dMissRemaining = 0) (h : step s = .next s') :
    let held := s.latches.IF
    let new := decodeLatch (s'.memory.read32 s.pc.toNat) s.pc
      (if s'.latches.ID.live = true ∧ s'.latches.ID.isControl = true then .speculative else .normal)
    let access := s.ic.access s.pc .read
    let target := resolve s.forwarded
    s.raises = true ∧ s'.Fetches handlerLatch s.ic 0 Config.handler ∨
    s.raises = false ∧ s.stalls = true ∧
      s'.Fetches held (if s.iMissRemaining = 0 then (s.ic.access held.pc .read).2 else s.ic) (s.iMissRemaining - 1)
        s.pc ∨
    s.raises = false ∧ s.stalls = false ∧ 0 < s.iMissRemaining ∧
      s'.Fetches (if s.takes then held.squash else held) (if s.takes then s.ic.invalidate held.pc else s.ic)
        (if s.takes then 0 else s.iMissRemaining - 1) (if s.takes then target else s.pc) ∨
    s.raises = false ∧ s.stalls = false ∧ s.iMissRemaining = 0 ∧
      s'.Fetches (if s.takes then new.squash else new)
        (if s.takes && access.1 == .miss then access.2.invalidate s.pc else access.2)
        (if s.takes then 0 else if access.1 = .miss then s.ic.config.missLatency else 0)
        (if s.takes then target else s.pc + 4) := by
  obtain ⟨t, u, ht, hif, rfl⟩ := step_afterWork hI hd h
  have hp := ht.publishes hif
  obtain ⟨hpc, hwait⟩ := ht.pending
  intro held new access target
  have hheld : t.latches.IF = held := congrArg Latches.IF ht.latches
  rcases ifStage_cases hif with
    ⟨he, rfl⟩ | ⟨he, hst, h0, -, rfl⟩ | ⟨he, hst, h0, rfl⟩ | ⟨he, hst, h0, rfl⟩ | ⟨he, hst, h0, -, rfl⟩ <;>
    rw [ht.exc] at he
  · exact .inl ⟨he, rfl, ht.icache, rfl, rfl⟩
  · rw [ht.stall] at hst
    rw [ht.iMiss] at h0
    refine .inr (.inl ⟨he, hst, hheld, ?_, ?_, hpc⟩)
    · rw [if_pos h0, ← ht.icache, ← hheld]
      rfl
    · rw [h0]
      exact hwait.trans h0
  · rw [ht.stall] at hst
    rw [ht.iMiss] at h0
    refine .inr (.inl ⟨he, hst, hheld, ?_, ?_, hpc⟩)
    · rw [if_neg (by omega)]
      exact ht.icache
    · rw [← ht.iMiss]
      rfl
  · rw [ht.stall] at hst
    rw [ht.iMiss] at h0
    refine .inr (.inr (.inl ⟨he, hst, h0, ?_⟩))
    have hf := fetches_redirect (w := { t.setNewIF t.latches.IF with
      work := { (t.setNewIF t.latches.IF).work with iNext := t.iMissRemaining - 1 } }) true ht.taken
    rw [waitStage_eq]
    simpa [hheld, ht.icache, ht.iMiss, hpc] using hf
  · rw [ht.stall] at hst
    rw [ht.iMiss] at h0
    refine .inr (.inr (.inr ⟨he, hst, h0, ?_⟩))
    have hf := fetches_redirect (w := fetched t) ((t.ic.access t.pc .read).1 == .miss) ht.taken
    have hID : (endTick (redirect ((t.ic.access t.pc .read).1 == .miss) (fetched t))).latches.ID = t.work.new.ID := by
      rw [hp.decode, he]; rfl
    have hnew : (fetched t).work.new.IF = new := by
      show decodeLatch (t.memory.read32 t.pc.toNat) t.pc (fetchStatus t) = _
      rw [ht.pc, ← hp.memory, fetchStatus, ← hID]
      exact congrArg _ (if_congr (by rw [Bool.and_eq_true]) rfl rfl)
    have hic : (fetched t).ic = access.2 := by
      show (t.ic.access t.pc .read).2 = _
      rw [ht.icache, ht.pc]
    have hiNext : (fetched t).work.iNext = if access.1 = .miss then s.ic.config.missLatency else 0 := by
      show (if (t.ic.access t.pc .read).1 = .miss then (t.ic.access t.pc .read).2.config.missLatency
        else t.work.iNext) = _
      rw [ht.icache, ht.pc, hwait, h0, Cache.config_access]
    have hpcNext : (fetched t).work.pcNext = s.pc + 4 := congrArg (· + 4) ht.pc
    rw [hnew, hic, hiNext, hpcNext, pc_decodeLatch] at hf
    rw [ht.icache, ht.pc] at hf ⊢
    exact hf

/-- A resolution is taken in no stall. -/
theorem takes_of_stalls {s : State} (h : s.stalls = true) : s.takes = false := by
  simp [State.takes, State.resolves, h]

/-- Settles O33: the cases of `step_fetches`, in the statement's order. -/
theorem fetchStepOfATick : Obligations.FetchStepOfATick := by
  intro s s' hI hd h held new access
  rcases step_fetches hI hd h with
    ⟨hr, hf⟩ | ⟨hr, hst, hf⟩ | ⟨hr, hst, h0, hf⟩ | ⟨hr, hst, h0, hf⟩
  · rw [if_pos hr]
    exact ⟨hf.latch, hf.icache, hf.iMiss⟩
  · rw [if_neg (by simp [hr]), if_pos hst]
    exact ⟨hf.latch, hf.icache, hf.iMiss⟩
  · rw [if_neg (by simp [hr]), if_neg (by simp [hst]), if_pos h0]
    cases ht : s.takes <;> rw [ht] at hf <;> exact ⟨hf.latch, hf.icache, hf.iMiss⟩
  · rw [if_neg (by simp [hr]), if_neg (by simp [hst]), if_neg (by omega)]
    cases ht : s.takes <;> rw [ht] at hf
    · exact ⟨hf.latch, hf.icache, hf.iMiss⟩
    · refine ⟨hf.latch, ?_, hf.iMiss⟩
      rw [hf.icache]
      exact if_congr (by rw [Bool.true_and, beq_iff_eq]) rfl rfl

/-- Settles O34: a freeze tick keeps `pc`, and any other tick leaves it as `step_fetches` says. -/
theorem programCounterAfterATick : Obligations.ProgramCounterAfterATick := by
  intro s s' hI h
  by_cases hd : s.dMissRemaining = 0
  · rw [if_neg (by omega)]
    rcases step_fetches hI hd h with
      ⟨hr, hf⟩ | ⟨hr, hst, hf⟩ | ⟨hr, hst, h0, hf⟩ | ⟨hr, hst, h0, hf⟩ <;> rw [hf.pc]
    · rw [if_pos hr]
      rfl
    · simp [hr, takes_of_stalls hst, State.fetches, hst]
    · have hno : s.fetches = false := by simp [State.fetches, h0.ne']
      simp [hr, hno]
    · have hyes : s.fetches = true := State.fetches_iff.mpr ⟨hr, hst, h0⟩
      simp [hr, hyes]
  · obtain ⟨-, -, ⟨h0, rfl⟩ | ⟨h0, -⟩⟩ := step_eq_next.mp h
    · rw [if_pos h0]
      rfl
    · exact absurd h0 hd

end Sys2Proof.Machine
end

section
/-! The proofs of the reset and hazards family, on the hazards. -/

namespace Sys2Proof.Machine

/-! ## The hazard table (R335 to R337) -/

/-! Whether both latches are live and the row's condition holds between them (R337). -/

def loadBranchRow (id ex : Latch) : Bool := id.live && ex.live && loadBranchHazard id ex
def loadUseRow (id ex : Latch) : Bool := id.live && ex.live && loadUseHazard id ex
def arithBranchRow (id ex : Latch) : Bool := id.live && ex.live && arithBranchHazard id ex

/-- What hazard detection answers, by its rows. -/
theorem hazard_by_rows {lbe : Nat} (h : lbe ≤ 1) (id ex : Latch) :
    ((hazard id ex lbe).stall = true ↔
      0 < lbe ∨ loadBranchRow id ex = true ∨ loadUseRow id ex = true ∨ arithBranchRow id ex = true) ∧
    (hazard id ex lbe).lbeNext = (if lbe = 0 ∧ loadBranchRow id ex = true then 1 else 0) ∧
    (hazard id ex lbe).count =
      if lbe = 0 ∧ (loadBranchRow id ex = true ∨ loadUseRow id ex = true) then 1 else 0 := by
  unfold hazard loadBranchRow loadUseRow arithBranchRow
  obtain rfl | rfl : lbe = 0 ∨ lbe = 1 := by omega
  · cases id.live && ex.live
    · simp
    · cases loadBranchHazard id ex <;> cases loadUseHazard id ex <;> cases arithBranchHazard id ex <;> simp
  · simp

/-- A live good control latch is no NOP, whose class is OP_IMM. -/
theorem idIsBranch_iff {l : Latch} (h : l.Good) (hl : l.live = true) :
    idIsBranch l = true ↔ l.opcode = .branch ∨ l.opcode = .jal ∨ l.opcode = .jalr := by
  obtain ⟨i, -, -, ho, -, -, hnop, -⟩ := h.instr hl
  have hc := isControl_of_opcode ho
  rw [idIsBranch, Bool.and_eq_true, hc, ho, hnop]
  refine and_iff_left_of_imp fun hi => ?_
  cases i <;> simp_all [Instr.opClass]

/-- A live good latch that writes memory does not read it (R145). -/
theorem readsMem_of_writesMem {l : Latch} (h : l.Good) (hl : l.live = true) (hw : l.writesMem = true) :
    l.readsMem = false := by
  obtain ⟨i, -, -, -, -, -, -, hr, hw'⟩ := h.instr hl
  obtain ⟨hload, hstore⟩ := controlFlags_memory i.opClass (i == .nop)
  rw [hr, Bool.eq_false_iff, ne_eq, hload, hstore.mp (hw'.symm.trans hw)]
  nofun

theorem idIsStore_eq_writesMem {l : Latch} (h : l.Good) (hl : l.live = true) : idIsStore l = l.writesMem := by
  rw [idIsStore]
  cases hw : l.writesMem with
  | false => rfl
  | true => rw [readsMem_of_writesMem h hl hw]; rfl

section rows
variable {d e : Latch} (h : d.Good)
include h

/-! The rows as the statement writes them out. -/

theorem loadBranchRow_iff :
    loadBranchRow d e = true ↔ (d.status = .normal ∧ e.status = .normal) ∧
      (e.readsMem = true ∧ e.writesRd = true ∧ e.rd ≠ 0) ∧
      (d.opcode = .branch ∨ d.opcode = .jal ∨ d.opcode = .jalr) ∧
      (d.readsRs1 = true ∧ d.rs1 = e.rd ∨ d.readsRs2 = true ∧ d.rs2 = e.rd) := by
  rw [loadBranchRow, Bool.and_eq_true, Bool.and_eq_true, ← Latch.live_iff, ← Latch.live_iff]
  refine and_congr_right fun ⟨hl, _⟩ => ?_
  rw [← idIsBranch_iff h hl]
  simp [loadBranchHazard, exIsLoad, exWrites, haz1, haz2, and_assoc]

theorem loadUseRow_iff :
    loadUseRow d e = true ↔ (d.status = .normal ∧ e.status = .normal) ∧
      (e.readsMem = true ∧ e.writesRd = true ∧ e.rd ≠ 0) ∧
      ¬ (d.opcode = .branch ∨ d.opcode = .jal ∨ d.opcode = .jalr) ∧
      (d.readsRs1 = true ∧ d.rs1 = e.rd ∨ (d.readsRs2 = true ∧ d.rs2 = e.rd) ∧ d.writesMem = false) := by
  rw [loadUseRow, Bool.and_eq_true, Bool.and_eq_true, ← Latch.live_iff, ← Latch.live_iff]
  refine and_congr_right fun ⟨hl, _⟩ => ?_
  rw [← idIsBranch_iff h hl, ← idIsStore_eq_writesMem h hl]
  simp [loadUseHazard, exIsLoad, exWrites, haz1, haz2, and_assoc]

theorem arithBranchRow_iff :
    arithBranchRow d e = true ↔ (d.status = .normal ∧ e.status = .normal) ∧
      (e.doesArith = true ∧ e.writesRd = true ∧ e.rd ≠ 0) ∧
      (d.opcode = .branch ∨ d.opcode = .jal ∨ d.opcode = .jalr) ∧
      (d.readsRs1 = true ∧ d.rs1 = e.rd ∨ d.readsRs2 = true ∧ d.rs2 = e.rd) := by
  rw [arithBranchRow, Bool.and_eq_true, Bool.and_eq_true, ← Latch.live_iff, ← Latch.live_iff]
  refine and_congr_right fun ⟨hl, _⟩ => ?_
  rw [← idIsBranch_iff h hl]
  simp [arithBranchHazard, exIsArith, exWrites, haz1, haz2, and_assoc]

end rows

/-- Settles O35: the table by its rows; an exception of the tick clears the second cycle, and a `MemoryException` the
count. -/
theorem hazardTableOfATick : Obligations.HazardTableOfATick := by
  intro s s' hI hd h d e both control haz1 haz2 loads computes loadBranch loadUse arithBranch
  obtain ⟨t, ht, hp⟩ := step_publishes hI hd h
  obtain ⟨hlbe, hcount⟩ := ht.hazards
  obtain ⟨hstall, hlbeNext, hcountNext⟩ := hazard_by_rows hI.stalls.1 d e
  have hextra := hp.loadBranchExtra
  have hstalls := hp.loadStallCount
  rw [hlbe, hlbeNext] at hextra
  rw [hcount, hcountNext] at hstalls
  have hLB : loadBranchRow d e = true ↔ loadBranch := loadBranchRow_iff hI.decode
  have hLU : loadUseRow d e = true ↔ loadUse := loadUseRow_iff hI.decode
  have hAB : arithBranchRow d e = true ↔ arithBranch := arithBranchRow_iff hI.decode
  rw [hLB, hLU, hAB] at hstall
  refine ⟨hstall, fun hno => ?_, fun hr h0 hrow => ?_, fun hr h0 hrow => ?_, fun hno => ?_⟩
  · rw [hextra]
    rcases hno with hr | hpos | hrow
    · rw [if_pos hr]
    · rw [if_neg (c := _ ∧ _) fun hc => hpos.ne' hc.1, ite_self]
    · rw [if_neg (c := _ ∧ _) fun hc => hrow (hLB.mp hc.2), ite_self]
  · rw [hextra, hr, if_pos (c := _ ∧ _) ⟨h0, hLB.mpr hrow⟩]
    rfl
  · rw [hstalls, hr, if_pos (c := _ ∧ _) ⟨h0, hrow.imp hLB.mpr hLU.mpr⟩]
    rfl
  · rw [hstalls]
    rcases hno with hr | hpos | hrow
    · rw [if_pos hr, Nat.add_zero]
    · rw [if_neg (c := _ ∧ _) fun hc => hpos.ne' hc.1, ite_self, Nat.add_zero]
    · rw [if_neg (c := _ ∧ _) fun hc => hrow (hc.2.imp hLB.mp hLU.mp), ite_self, Nat.add_zero]

/-! ## How long a stall lasts (R338, R387) -/

/-- Without a live latch in EX only the second cycle of a load-branch stall is a stall. -/
theorem stalls_of_execute_not_live {s : State} (h : s.latches.EX.live = false) (hs : s.stalls = true) :
    0 < s.loadBranchExtra := by
  by_contra h0
  simp [State.stalls, hazard, h0, h] at hs

/-- Settles O36: a stall tick puts a bubble in EX, so that the next is the second cycle of a load-branch stall if it is a
stall; a tick that is itself such a second cycle leaves none to come. -/
theorem hazardStallLastsAtMostTwoTicks : Obligations.HazardStallLastsAtMostTwoTicks := by
  intro s s' hI h
  refine ⟨fun hd => ?freeze, fun hd hst => ?stall⟩
  case freeze =>
    obtain ⟨-, -, ⟨-, rfl⟩ | ⟨h0, -⟩⟩ := step_eq_next.mp h
    · exact ⟨rfl, rfl⟩
    · omega
  case stall =>
    obtain ⟨t, ht, hp⟩ := step_publishes hI hd h
    obtain ⟨-, hclears, -⟩ := hazardTableOfATick s s' hI hd h
    have hmax := (everyStepKeepsTheInvariant s s' hI h).stalls.1
    have hlive : s'.latches.EX.live = false := by
      rw [hp.execute, ht.execute, State.executeWork, if_pos hst]
      split
      · exact live_squash _
      · exact live_bubbleLatch
    refine ⟨hlive, fun hst' => ?_⟩
    have hpos := stalls_of_execute_not_live hlive hst'
    refine ⟨?_, by omega⟩
    by_contra h0
    exact hpos.ne' (hclears (.inr (.inl (Nat.pos_of_ne_zero h0))))

end Sys2Proof.Machine
end

section
/-! The proofs of the reset and hazards family, on one step of sequential execution. -/

namespace Sys2Proof.Machine

/-! ## What an instruction leaves behind (R240, R331 to R334) -/

/-- The latch `e` after its MEM work on the memory `m`: a load holds the value it read (R242). -/
def Latch.completed (e : Latch) (m : Memory) : Latch :=
  if e.readsMem then { e with memResult := loadValue e.kind m e.memAddr.toNat } else e

/-- The memory `m` after the MEM work of the latch `e`: a store has written its bytes (R242, R250). -/
def Latch.stored (e : Latch) (m : Memory) : Memory :=
  if e.writesMem then m.write e.memAddr.toNat (accessWidth e.kind) e.op2Val else m

/-- The registers of `s` after the latch `l` has passed WB (R331 to R334). -/
def State.retire (s : State) (l : Latch) : Vector Word 32 :=
  if l.live && l.writesRd then (s.writeReg l.rd l.writeValue).regs else s.regs

/-- A load or store in the latch is within memory and at a multiple of its width (R86, R88). -/
def Latch.InBounds (l : Latch) (m : Memory) : Prop :=
  l.readsMem = true ∨ l.writesMem = true → l.memAddr.toNat < m.size ∧ l.memAddr.toNat % accessWidth l.kind = 0

@[simp] theorem live_completed (e : Latch) (m : Memory) : (e.completed m).live = e.live := by
  unfold Latch.completed; split <;> rfl
@[simp] theorem writesRd_completed (e : Latch) (m : Memory) : (e.completed m).writesRd = e.writesRd := by
  unfold Latch.completed; split <;> rfl
@[simp] theorem rd_completed (e : Latch) (m : Memory) : (e.completed m).rd = e.rd := by
  unfold Latch.completed; split <;> rfl
@[simp] theorem readsMem_completed (e : Latch) (m : Memory) : (e.completed m).readsMem = e.readsMem := by
  unfold Latch.completed; split <;> rfl
@[simp] theorem aluResult_completed (e : Latch) (m : Memory) : (e.completed m).aluResult = e.aluResult := by
  unfold Latch.completed; split <;> rfl
@[simp] theorem isHalt_completed (e : Latch) (m : Memory) : (e.completed m).isHalt = e.isHalt := by
  unfold Latch.completed; split <;> rfl

theorem completed_of_no_access {e : Latch} (hr : e.readsMem = false) (m : Memory) : e.completed m = e := by
  simp [Latch.completed, hr]

theorem stored_of_no_store {e : Latch} (hw : e.writesMem = false) (m : Memory) : e.stored m = m := by
  simp [Latch.stored, hw]

@[simp] theorem size_stored (e : Latch) (m : Memory) : (e.stored m).size = m.size := by
  unfold Latch.stored; split <;> simp

/-- What passing WB leaves depends on the register file alone. -/
theorem retire_congr {s t : State} (h : s.regs = t.regs) (l : Latch) : s.retire l = t.retire l := by
  unfold State.retire State.writeReg
  split_ifs <;> simp [h]

/-- Passing WB, as the commit of the latch in WB. -/
theorem committedRegs_eq_retire {s : State} (hl : s.work.new.WB.live = true) :
    committedRegs s = s.retire s.work.new.WB := by
  simp [committedRegs, State.retire, hl]

/-- A register read after a latch has passed WB. -/
theorem readReg_of_retire {s t : State} {l : Latch} (h : t.regs = s.retire l) (r : Reg) :
    t.readReg r = if l.feeds r = true ∧ r ≠ 0 then l.writeValue else s.readReg r := by
  unfold State.retire at h
  unfold Latch.feeds
  split at h
  next hw =>
    rw [readReg_congr h, readReg_writeReg]
    refine if_congr ?_ rfl rfl
    rw [hw, Bool.true_and, beq_iff_eq]
    exact ⟨fun ⟨hr, h0⟩ => ⟨hr.symm, hr ▸ h0⟩, fun ⟨hr, h0⟩ => ⟨hr.symm, hr ▸ h0⟩⟩
  next hw =>
    rw [Bool.not_eq_true] at hw
    rw [readReg_congr h, hw]
    simp

/-! ## EX and MEM work of a good live latch, as one equation each -/

/-- EX work that raises no refusal makes the latch `executed` (R349 to R353). -/
theorem exec_at_execute_eq {i : Instr} {s : State} (hs : s.work.stage = .execute) (h : s.work.new.EX.Good)
    (hl : s.work.new.EX.live = true) (hk : s.work.new.EX.kind = .instr i) (hm : s.work.memExc = false)
    (ht : s.work.new.EX.isControl = true →
      resolve s.work.new.EX = s.work.new.EX.pc + 4 ∨ (resolve s.work.new.EX).toNat % 4 = 0) :
    ∃ s', exec i s = .next s' ∧ s'.regs = s.regs ∧ s'.memory = s.memory ∧ s'.work.memExc = s.work.memExc ∧
      s'.work.new.EX = executed s.work.new.EX s.work.new.EX.isControl := by
  obtain ⟨j, hj, -, ho, hy, -, -, hr, hw⟩ := h.instr hl
  cases hj.symm.trans hk
  obtain ⟨hload, hstore⟩ := controlFlags_memory i.opClass (i == .nop)
  rw [← hr] at hload
  rw [← hw] at hstore
  have hctl := isControl_of_opcode ho
  by_cases hmem : i.opClass = .load ∨ i.opClass = .store
  · have hc : s.work.new.EX.isControl = false := by
      rw [Bool.eq_false_iff, ne_eq, hctl]
      rcases hmem with h | h <;> simp [h]
    have ha : s.work.new.EX.readsMem = true ∨ s.work.new.EX.writesMem = true := hmem.imp hload.mpr hstore.mpr
    have hv := (aluValue_of_kind hk).1 (.inr (hmem.imp_right .inl))
    refine ⟨_, exec_at_execute_memory hs hmem, rfl, rfl, rfl, ?_⟩
    rw [hc, executed, if_pos ha, hv]
    rfl
  -- an instruction that makes no access keeps its address
  have hno : ¬ (s.work.new.EX.readsMem = true ∨ s.work.new.EX.writesMem = true) := fun ha =>
    hmem (ha.imp hload.mp hstore.mp)
  by_cases hcontrol : isControlClass i.opClass
  · have hc := hctl.mpr hcontrol
    have hexec := exec_at_execute_control hs hcontrol hk
    rw [if_neg (by simp [hm]), if_pos (ht hc)] at hexec
    refine ⟨_, hexec, rfl, rfl, rfl, ?_⟩
    rw [hc, executed, if_neg hno]
    rfl
  · have hc : s.work.new.EX.isControl = false := Bool.eq_false_iff.mpr fun hx => hcontrol (hctl.mp hx)
    have hset : exec i s = .next (setAluResult (aluValue s.work.new.EX) s) := by
      by_cases hhalt : i = .halt
      · exact exec_at_execute_halt_or_nop (.inl hhalt) hs hk
      · refine exec_at_execute_value hs ?_ hk
        cases i <;> simp_all [Instr.opClass, isControlClass]
    refine ⟨_, hset, rfl, rfl, rfl, ?_⟩
    rw [hc, executed, if_neg hno]
    rfl

/-- MEM work within memory and aligned (R242, R340). -/
theorem exec_at_memory_eq {i : Instr} {s : State} (hs : s.work.stage = .memory) (h : s.work.new.MEM.Good)
    (hl : s.work.new.MEM.live = true) (hk : s.work.new.MEM.kind = .instr i)
    (hin : s.work.new.MEM.InBounds s.memory) :
    ∃ s', exec i s = .next s' ∧ s'.regs = s.regs ∧ s'.memory = s.work.new.MEM.stored s.memory ∧
      s'.work.memExc = s.work.memExc ∧ s'.work.new.EX = s.work.new.EX ∧
      s'.work.new.MEM = s.work.new.MEM.completed s.memory := by
  obtain ⟨j, hj, -, -, hy, -, -, hr, hw⟩ := h.instr hl
  cases hj.symm.trans hk
  obtain ⟨hload, hstore⟩ := controlFlags_memory i.opClass (i == .nop)
  rw [← hr] at hload
  rw [← hw] at hstore
  by_cases hld : i.opClass = .load
  · have hwrites : s.work.new.MEM.writesMem = false := by rw [Bool.eq_false_iff, ne_eq, hstore, hld]; nofun
    obtain ⟨hb, ha⟩ := hin (.inl (hload.mpr hld))
    rw [exec_at_memory_load hs hld, ← hk, accessMemory_in_bounds hb ha, stored_of_no_store hwrites, Latch.completed,
      if_pos (hload.mpr hld)]
    exact ⟨_, rfl, rfl, rfl, rfl, rfl, rfl⟩
  have hreads : s.work.new.MEM.readsMem = false := by rw [Bool.eq_false_iff, ne_eq, hload]; exact hld
  rw [completed_of_no_access hreads]
  by_cases hst : i.opClass = .store
  · obtain ⟨hb, ha⟩ := hin (.inr (hstore.mpr hst))
    rw [exec_at_memory_store hs hst, ← hk, accessMemory_in_bounds hb ha, Latch.stored, if_pos (hstore.mpr hst)]
    exact ⟨_, rfl, rfl, rfl, rfl, rfl, rfl⟩
  · have hwrites : s.work.new.MEM.writesMem = false := by rw [Bool.eq_false_iff, ne_eq, hstore]; exact hst
    rw [exec_at_memory_other hs hld hst hy, stored_of_no_store hwrites]
    exact ⟨_, rfl, rfl, rfl, rfl, rfl, rfl⟩

/-! ## One sequential step (R385) -/

/-- The latch of the word `raw` at `q.pc` after ID and EX, alone, with the registers of `q`. -/
def State.seqExecuted (q : State) (raw : Word) : Latch :=
  let d := q.capture (decodeLatch raw q.pc .normal)
  executed d d.isControl

/-- A word that is an instruction other than SYSTEM makes a good latch. -/
theorem good_captured {raw : Word} {i : Instr} (hi : decodeWord raw = .instr i) (hy : i.opClass ≠ .system)
    (q : State) (pc : Word) : (q.capture (decodeLatch raw pc .normal)).Good := by
  refine Latch.Good.of_decoded (m := decodeLatch raw pc .normal) ?_ rfl
  refine ⟨decoded_decodeLatch_coherent _ _ _, by simp, fun _ => ?_⟩
  rw [decodeLatch_instr hi]
  exact ⟨rfl, nofun, hy⟩

/-- The mode after a tick that raised nothing. -/
theorem modeAfter_of_not_exc (halt : Bool) (n : Nat) :
    modeAfter false halt n = if halt then .halted else .running := by
  cases halt <;> rfl

section
variable {q : State} {raw : Word} {i : Instr} (hi : decodeWord raw = .instr i)
include hi

theorem decodedAlone_eq (q : State) : q.decodedAlone i raw = q.capture (decodeLatch raw q.pc .normal) := by
  rw [decodeLatch_instr hi]
  rfl

theorem live_seqExecuted : (q.seqExecuted raw).live = true := by
  rw [State.seqExecuted, decodeLatch_instr hi]
  rfl

theorem kind_seqExecuted : (q.seqExecuted raw).kind = .instr i := by
  rw [State.seqExecuted, decodeLatch_instr hi]
  rfl

variable (hy : i.opClass ≠ .system) (hb : (q.seqExecuted raw).InBounds q.memory)
  (ht : (q.seqExecuted raw).nextPc.toNat % 4 = 0)
include hy hb ht

/-- The four stages of an instruction alone, when it is neither SYSTEM nor refused nor out of bounds. -/
theorem runAlone_eq :
    ∃ u, runAlone i raw q = .next (commit u) ∧ u.work.memExc = false ∧ u.regs = q.regs ∧
      u.memory = (q.seqExecuted raw).stored q.memory ∧ u.work.new.EX = q.seqExecuted raw ∧
      u.work.new.WB = (q.seqExecuted raw).completed q.memory := by
  have hl := live_seqExecuted (q := q) hi
  have hk := kind_seqExecuted (q := q) hi
  have hg := good_captured hi hy q q.pc
  have h1 := exec_alone (i := i) raw q hy
  rw [decodedAlone_eq hi] at h1
  obtain ⟨s2, h2, hr2, hm2, hx2, hE2⟩ := exec_at_execute_eq (i := i)
    (s := ((q.alone raw).setNewID (q.capture (decodeLatch raw q.pc .normal))).toExecute) rfl hg hl hk rfl
    fun hc => .inr ((if_pos hc : (q.seqExecuted raw).nextPc = _) ▸ ht)
  have hE : s2.work.new.EX = q.seqExecuted raw := hE2
  have hm : s2.memory = q.memory := hm2
  obtain ⟨s3, h3, hr3, hm3, hx3, hE3, hM3⟩ := exec_at_memory_eq (i := i) (s := s2.toMemory) rfl
    (hE.symm ▸ hg.of_decoded rfl : s2.work.new.EX.Good) ((congrArg Latch.live hE).trans hl)
    ((congrArg Latch.kind hE).trans hk) (hE.symm ▸ hm.symm ▸ hb : s2.work.new.EX.InBounds s2.memory)
  have hquiet : s3.work.memExc = false := hx3.trans hx2
  refine ⟨s3.toWriteback, ?_, hquiet, hr3.trans hr2, ?_, hE3.trans hE, ?_⟩
  · rw [runAlone, h1, andThen_next, h2, andThen_next, h3, andThen_next, if_neg (by simp [hquiet]),
      exec_at_writeback i rfl, if_neg hy]
  · exact hm3.trans (congrArg₂ Latch.stored hE hm)
  · exact hM3.trans (congrArg₂ Latch.completed hE hm)

/-- One sequential step, when the instruction at `pc` is neither SYSTEM nor refused nor out of bounds: it leaves what its
latch after EX says. -/
theorem seqStep_eq (hm : q.mode = .running) (hin : q.pc.toNat + 4 ≤ q.memory.size)
    (hraw : q.memory.read32 q.pc.toNat = raw) :
    ∃ q', seqStep q = .next q' ∧ q'.pc = (q.seqExecuted raw).nextPc ∧
      q'.memory = (q.seqExecuted raw).stored q.memory ∧
      q'.regs = q.retire ((q.seqExecuted raw).completed q.memory) ∧
      q'.mode = if (q.seqExecuted raw).isHalt then .halted else .running := by
  obtain ⟨u, hrun, hquiet, hregs, hmemory, hEX, hWB⟩ := runAlone_eq hi hy hb ht
  have hlive : u.work.new.WB.live = true := by rw [hWB, live_completed, live_seqExecuted hi]
  have hstep : seqStep q = .next { commit u with
      pc := (commit u).work.new.EX.nextPc
      mode := modeAfter (commit u).work.memExc (commit u).work.haltNow (commit u).drawIndex
      work := .rest } := by
    unfold seqStep
    rw [if_neg (by simp [hm]), if_neg (by omega)]
    simp only [hraw, hi, hrun, andThen_next]
  refine ⟨_, hstep, ?_⟩
  rw [commit_eq]
  refine ⟨congrArg Latch.nextPc hEX, hmemory, ?_, ?_⟩
  · show committedRegs u = _
    rw [committedRegs_eq_retire hlive, hWB]
    exact retire_congr hregs _
  · show modeAfter u.work.memExc u.work.new.WB.isHalt u.drawIndex = _
    rw [hquiet, modeAfter_of_not_exc, hWB, isHalt_completed]

end

end Sys2Proof.Machine
end

section
/-! The proofs of the reset and hazards family, on the operands of a pipelined instruction: after forwarding they are the
registers that sequential execution reads. -/

namespace Sys2Proof.Machine

/-! ## Sources of forwarding (R333, R346) -/

@[simp] theorem feeds_storeDataForward (e m : Latch) (r : Reg) : (storeDataForward e m).feeds r = e.feeds r := by
  simp [Latch.feeds]
@[simp] theorem feeds_completed (e : Latch) (m : Memory) (r : Reg) : (e.completed m).feeds r = e.feeds r := by
  simp [Latch.feeds]

theorem live_of_feeds {l : Latch} {r : Reg} (h : l.feeds r = true) : l.live = true :=
  Latch.live_iff.mpr (feeds_iff.mp h).1

/-- What writes a register is a load or computes (R145). -/
theorem controlFlags_doesArith {c : OpClass} {b : Bool} (hw : (controlFlags c b).writesRd = true)
    (hr : (controlFlags c b).readsMem = false) : (controlFlags c b).doesArith = true := by
  cases c <;> cases b <;> simp_all [controlFlags]

theorem doesArith_of_feeds {l : Latch} {r : Reg} (h : l.Good) (hf : l.feeds r = true) (hr : l.readsMem = false) :
    l.doesArith = true := by
  obtain ⟨i, -, hi, -⟩ := h.instr (live_of_feeds hf)
  have hflag {α : Type} (g : Latch → α) : g l.decoded = g (decodeLatch l.raw l.pc l.status).decoded :=
    congrArg g h.coherent
  rw [decodeLatch_instr hi] at hflag
  have hd : l.doesArith = (controlFlags i.opClass (i == .nop)).doesArith := hflag Latch.doesArith
  rw [hd]
  exact controlFlags_doesArith ((hflag Latch.writesRd).symm.trans (feeds_iff.mp hf).2.1)
    ((hflag Latch.readsMem).symm.trans hr)

/-- The registers that the instruction after `ex` and `mem` reads, `ex` leaving `v`, and `s` not yet having what they
write. -/
def ReadsThrough (s q : State) (ex mem : Latch) (v : Word) : Prop :=
  ∀ r, q.readReg r =
    if ex.feeds r = true ∧ r ≠ 0 then v
    else if mem.feeds r = true ∧ r ≠ 0 then mem.writeValue
    else s.readReg r

/-- One operand, captured and forwarded, is the register that sequential execution reads, unless a load that has not
read yet feeds it. -/
theorem forwardOperand_eq {s q : State} {ex mem : Latch} {v : Word} (hq : ReadsThrough s q ex mem v) (hex : ex.Good)
    (hmem : mem.Good) (hv : ex.readsMem = false → v = ex.aluResult) {reads : Bool} {r : Reg}
    (hload : reads = true → r ≠ 0 → ex.feeds r = true → ex.readsMem = false) :
    forwardOperand reads r (if reads then s.readReg r else 0) ex mem = if reads then q.readReg r else 0 := by
  unfold forwardOperand
  cases reads with
  | false => rfl
  | true =>
    by_cases hr : r = 0
    · subst hr
      exact (readReg_zero s).trans (readReg_zero q).symm
    have hr' : (r != 0) = true := bne_iff_ne.mpr hr
    simp only [Bool.true_and, hr', if_true, hq r, ne_eq, hr, not_false_eq_true, and_true]
    cases hfx : ex.feeds r with
    | true =>
      have hno := hload rfl hr hfx
      simp [doesArith_of_feeds hex hfx hno, hv hno]
    | false =>
      cases hfm : mem.feeds r with
      | false => simp
      | true =>
        cases hread : mem.readsMem with
        | true => simp [Latch.writeValue, hread]
        | false => simp [Latch.writeValue, hread, doesArith_of_feeds hmem hfm hread]

/-! ## A tick that does not stall (R337) -/

/-- In a tick that does not stall, what a load in EX feeds is no operand of the live latch in ID but the data of a store. -/
theorem not_reads_load_of_not_stalls {s : State} (hI : s.Inv) (hst : s.stalls = false) (hl : s.latches.ID.live = true)
    {r : Reg} (hr : r ≠ 0) (hf : s.latches.EX.feeds r = true) (hload : s.latches.EX.readsMem = true) :
    ¬ (s.latches.ID.readsRs1 = true ∧ s.latches.ID.rs1 = r) ∧
      (s.latches.ID.readsRs2 = true → s.latches.ID.rs2 = r → s.latches.ID.writesMem = true) := by
  obtain ⟨hstall, -⟩ := hazard_by_rows hI.stalls.1 s.latches.ID s.latches.EX
  rw [loadBranchRow_iff hI.decode, loadUseRow_iff hI.decode] at hstall
  obtain ⟨hn, hw, rfl⟩ := feeds_iff.mp hf
  have hboth := And.intro (Latch.live_iff.mp hl) hn
  have hreads := And.intro hload (And.intro hw hr)
  have hno : ¬ (hazard s.latches.ID s.latches.EX s.loadBranchExtra).stall = true := by
    rw [Bool.not_eq_true]
    exact hst
  by_cases hc : s.latches.ID.opcode = .branch ∨ s.latches.ID.opcode = .jal ∨ s.latches.ID.opcode = .jalr
  · exact ⟨fun h1 => absurd (hstall.mpr (.inr (.inl ⟨hboth, hreads, hc, .inl h1⟩))) hno,
      fun h2 h3 => absurd (hstall.mpr (.inr (.inl ⟨hboth, hreads, hc, .inr ⟨h2, h3⟩⟩))) hno⟩
  · refine ⟨fun h1 => hno (hstall.mpr (.inr (.inr (.inl ⟨hboth, hreads, hc, .inl h1⟩)))), fun h2 h3 => ?_⟩
    by_contra hw'
    rw [Bool.not_eq_true] at hw'
    exact hno (hstall.mpr (.inr (.inr (.inl ⟨hboth, hreads, hc, .inr ⟨⟨h2, h3⟩, hw'⟩⟩))))

/-! ## Store data (R339) -/

/-- The latch with its store data changed. -/
def Latch.setData (l : Latch) (v : Word) : Latch := { l with op2Val := v }

@[simp] theorem setData_setData (l : Latch) (v w : Word) : (l.setData v).setData w = l.setData w := rfl

theorem setData_self {l : Latch} {v : Word} (h : l.op2Val = v) : l.setData v = l := by
  subst h
  rfl

/-- A store-data forwarding needs a source that the store's data reads. -/
theorem storeDataForward_of_not_fed {e m : Latch}
    (h : ¬ (e.readsRs2 = true ∧ e.rs2 ≠ 0 ∧ m.feeds e.rs2 = true ∧ m.readsMem = true)) :
    storeDataForward e m = e := by
  refine if_neg fun hc => h ?_
  simp only [Bool.and_eq_true, bne_iff_ne] at hc
  tauto

theorem storeDataForward_of_fed {e m : Latch} (hl : e.live = true) (hw : e.writesMem = true) (hr : e.readsMem = false)
    (hreads : e.readsRs2 = true) (h0 : e.rs2 ≠ 0) (hf : m.feeds e.rs2 = true) (hm : m.readsMem = true) :
    storeDataForward e m = e.setData m.memResult :=
  if_pos (by simpa [hl, hw, hr, hreads, hf, hm] using h0)

/-- The EX work of a store does not read its data. -/
theorem executed_of_store {l : Latch} {i : Instr} (hk : l.kind = .instr i) (hc : i.opClass = .store) (v : Word) :
    executed (l.setData v) false = (executed l false).setData v := by
  have h1 : aluValue l = l.aluResult := (aluValue_of_kind hk).1 (by simp [hc])
  have h2 : aluValue (l.setData v) = l.aluResult := (aluValue_of_kind (d := l.setData v) hk).1 (by simp [hc])
  unfold executed
  rw [h1, h2]
  rfl

section
variable {s q : State} {D : Latch} {v : Word} (hI : s.Inv) (hID : s.latches.ID = s.capture D)
  (hq : ReadsThrough s q s.latches.EX s.latches.MEM v)
  (hv : s.latches.EX.readsMem = false → v = s.latches.EX.aluResult)
include hI hID hq hv

/-- Forwarding into ID' gives the operands that sequential execution captures, but for the data of a store, as long as no
load in EX feeds the first. -/
theorem forwarded_eq_setData
    (hload : D.readsRs1 = true → D.rs1 ≠ 0 → s.latches.EX.feeds D.rs1 = true → s.latches.EX.readsMem = false) :
    s.forwarded = (q.capture D).setData
      (forwardOperand D.readsRs2 D.rs2 (if D.readsRs2 then s.readReg D.rs2 else 0) s.latches.EX s.latches.MEM) := by
  rw [State.forwarded, hID]
  unfold forward State.capture Latch.setData
  rw [← forwardOperand_eq hq hI.execute hI.access hv hload]

/-- Forwarding gives both operands when no load in EX feeds either. -/
theorem forwarded_eq_capture
    (hload1 : D.readsRs1 = true → D.rs1 ≠ 0 → s.latches.EX.feeds D.rs1 = true → s.latches.EX.readsMem = false)
    (hload2 : D.readsRs2 = true → D.rs2 ≠ 0 → s.latches.EX.feeds D.rs2 = true → s.latches.EX.readsMem = false) :
    s.forwarded = q.capture D := by
  rw [forwarded_eq_setData hI hID hq hv hload1, forwardOperand_eq hq hI.execute hI.access hv hload2]
  exact setData_self rfl

end

/-- The latch that EX makes in a tick without a stall is, once its store data is forwarded, that of sequential execution:
`m` is the latch that EX' leaves in MEM. -/
theorem executed_forwarded_eq {s q : State} {m : Latch} (hI : s.Inv) (hst : s.stalls = false)
    (hl : s.latches.ID.live = true)
    (hID : s.latches.ID = s.capture (decodeLatch s.latches.ID.raw s.latches.ID.pc .normal))
    (hpc : q.pc = s.latches.ID.pc) (hq : ReadsThrough s q s.latches.EX s.latches.MEM m.writeValue)
    (hfeeds : ∀ r, m.feeds r = s.latches.EX.feeds r) (hreads : m.readsMem = s.latches.EX.readsMem)
    (halu : m.aluResult = s.latches.EX.aluResult) :
    storeDataForward (executed s.forwarded s.forwarded.isControl) m = q.seqExecuted s.latches.ID.raw := by
  have hv : s.latches.EX.readsMem = false → m.writeValue = s.latches.EX.aluResult := by
    intro h
    rw [Latch.writeValue, hreads, h]
    exact halu
  have hload := fun {r : Reg} => not_reads_load_of_not_stalls (r := r) hI hst hl
  obtain ⟨i, hk, -, ho, -, -, -, -, hw⟩ := hI.decode.instr hl
  have hstore := (controlFlags_memory i.opClass (i == .nop)).2
  rw [← hw] at hstore
  have hnoread := readsMem_of_writesMem hI.decode hl
  unfold State.seqExecuted
  rw [hpc]
  generalize decodeLatch s.latches.ID.raw s.latches.ID.pc .normal = D at hID ⊢
  rw [hID] at hload hk ho hstore hnoread hl
  have hload1 : D.readsRs1 = true → D.rs1 ≠ 0 → s.latches.EX.feeds D.rs1 = true → s.latches.EX.readsMem = false :=
    fun h h0 hf => Bool.eq_false_iff.mpr fun hm => (hload h0 hf hm).1 ⟨h, rfl⟩
  by_cases hstale : D.readsRs2 = true ∧ D.rs2 ≠ 0 ∧ s.latches.EX.feeds D.rs2 = true ∧ s.latches.EX.readsMem = true
  -- a store whose data a load in EX is still to read: the data comes by store-data forwarding
  · obtain ⟨hreads2, h0, hf, hm⟩ := hstale
    have hwrites : D.writesMem = true := (hload h0 hf hm).2 hreads2 rfl
    have hclass := hstore.mp hwrites
    have hno : (q.capture D).isControl = false := by
      rw [Bool.eq_false_iff, ne_eq, isControl_of_opcode (l := q.capture D) ho, hclass]
      nofun
    have hdata : (executed (q.capture D) false).op2Val = m.memResult := by
      refine (if_pos hreads2).trans ?_
      rw [hq D.rs2, if_pos ⟨hf, h0⟩, Latch.writeValue, hreads, if_pos hm]
    have hF := forwarded_eq_setData hI hID hq hv hload1
    have hctl : s.forwarded.isControl = false := by rw [hF]; exact hno
    rw [hctl, hF, executed_of_store (l := q.capture D) hk hclass]
    refine (storeDataForward_of_fed (e := (executed (q.capture D) false).setData _) hl hwrites (hnoread hwrites) hreads2
      h0 ((hfeeds _).trans hf) (hreads.trans hm)).trans ?_
    rw [setData_setData, setData_self hdata]
    show _ = executed (q.capture D) (q.capture D).isControl
    rw [hno]
  · have hload2 : D.readsRs2 = true → D.rs2 ≠ 0 → s.latches.EX.feeds D.rs2 = true → s.latches.EX.readsMem = false :=
      fun h h0 hf => Bool.eq_false_iff.mpr fun hm => hstale ⟨h, h0, hf, hm⟩
    rw [forwarded_eq_capture hI hID hq hv hload1 hload2]
    refine storeDataForward_of_not_fed fun ⟨h, h0, hf, hm⟩ => hstale ⟨h, h0, ?_, hreads.symm.trans hm⟩
    exact (hfeeds _).symm.trans hf

end Sys2Proof.Machine
end

section
/-! The proofs of the reset and hazards family, on the pipeline and sequential execution: a relation between a state of the
pipeline and one of sequential execution, which every tick of a clear run keeps (R385). -/

namespace Sys2Proof.Machine

/-! ## A state of the pipeline and one of sequential execution

The sequential state stands after the instruction in MEM, whose register write is the only part of it still to come. -/

/-- The address of the instruction after the live ones up to EX, ID and IF, when `pc` is that of the one after MEM and no
resolution is taken. -/
def State.executeCursor (s : State) (pc : Word) : Word := if s.latches.EX.live then s.latches.EX.nextPc else pc
def State.decodeCursor (s : State) (pc : Word) : Word :=
  if s.latches.ID.live then s.latches.ID.pc + 4 else s.executeCursor pc
def State.fetchCursor (s : State) (pc : Word) : Word :=
  if s.latches.IF.liveInFetch then s.latches.IF.pc + 4 else s.decodeCursor pc

/-- The latch holds the word that stands in memory at its address. -/
structure State.HoldsWord (s : State) (l : Latch) : Prop where
  inside : l.pc.toNat + 4 ≤ s.memory.size
  aligned : l.pc.toNat % 4 = 0
  word : s.memory.read32 l.pc.toNat = l.raw

/-- The latch in EX is that of the instruction that `q` executes next, but for store data still to be forwarded. -/
structure State.ExecuteFollows (s q : State) : Prop where
  pc : s.latches.EX.pc = q.pc
  word : s.HoldsWord s.latches.EX
  aligned : s.latches.EX.nextPc.toNat % 4 = 0
  latch : storeDataForward s.latches.EX s.latches.MEM = q.seqExecuted s.latches.EX.raw

/-- The latch in ID holds the word at the address after EX, and captured its operands. -/
structure State.DecodeFollows (s q : State) : Prop where
  pc : s.latches.ID.pc = s.executeCursor q.pc
  word : s.HoldsWord s.latches.ID
  latch : s.latches.ID = s.capture (decodeLatch s.latches.ID.raw s.latches.ID.pc .normal)

/-- The latch in IF holds the word at the address after ID. -/
structure State.FetchFollows (s q : State) : Prop where
  pc : s.latches.IF.pc = s.decodeCursor q.pc
  word : s.HoldsWord s.latches.IF

/-- The live latches before MEM hold the instructions that follow `q`, one after another. -/
structure State.Follows (s q : State) : Prop where
  execute : s.latches.EX.live = true → s.ExecuteFollows q
  decode : s.latches.ID.live = true → s.DecodeFollows q
  fetch : s.latches.IF.liveInFetch = true → s.FetchFollows q
  pc : s.pc = s.fetchCursor q.pc

/-- The pipeline stands at `s` when sequential execution stands at `q`. After a halt nothing follows. -/
structure State.Simulates (s q : State) : Prop where
  regs : q.regs = s.retire s.latches.MEM
  memory : q.memory = s.memory
  mode : q.mode = if s.halts then .halted else .running
  follows : s.halts = false → s.Follows q

/-! ## A tick that raises no exception -/

theorem retire_of_not_live {s : State} {l : Latch} (h : l.live = false) : s.retire l = s.regs := by
  simp [State.retire, h]

/-- The registers after a tick are those after the latch in MEM. -/
theorem regs_step {s s' : State} (hd : s.dMissRemaining = 0) (h : step s = .next s') :
    s'.regs = s.retire s.latches.MEM := by
  obtain ⟨t, ht, hregs, -⟩ := registers_step hd h
  rw [hregs]
  rcases wbStage_cases ht with ⟨hl, rfl⟩ | ⟨hl, _, -, -, rfl⟩
  · exact (retire_of_not_live (s := s) hl).symm
  · rw [commit_eq]
    have hsame : (((beginTick s).setNewWB s.latches.MEM).atStage .writeback).retire s.latches.MEM =
        s.retire s.latches.MEM := retire_congr (by rfl) _
    exact (committedRegs_eq_retire hl).trans hsame

section tick
variable {s s' : State} (hI : s.Inv) (hd : s.dMissRemaining = 0) (h : step s = .next s')
include hI hd h

theorem not_misaligned : ¬ s.DataMisaligned ∧ ¬ s.TargetMisaligned := by
  obtain ⟨hm, hf, -⟩ := step_eq_next.mp h
  obtain ⟨hdata, htarget, -⟩ := tickCompletesUnlessRefused s hI hm hf hd
  have hno : ¬ s.DataMisaligned := fun hx => by cases h.symm.trans (hdata hx)
  exact ⟨hno, fun hx => by cases h.symm.trans (htarget hno hx)⟩

variable (hr : s.raises = false)
include hr

/-- A live load or store that enters MEM is within memory and aligned. -/
theorem inBounds_of_not_raises (hl : s.latches.EX.live = true) :
    (storeDataForward s.latches.EX s.latches.MEM).InBounds s.memory := by
  obtain ⟨hno, -⟩ := not_misaligned hI hd h
  have hm := memRaises_of_not_raises hr
  unfold Latch.InBounds
  simp only [readsMem_storeDataForward, writesMem_storeDataForward, memAddr_storeDataForward, kind_storeDataForward]
  intro ha
  have hacc : s.accesses = true := by simpa [State.accesses, hl] using ha
  refine ⟨?_, by_contra fun hx => hno ⟨hacc, hm, hx⟩⟩
  simpa [State.memRaises, hacc] using hm

/-- What MEM publishes when its latch is live. -/
theorem access_step_of_live (hl : s.latches.EX.live = true) :
    let e := storeDataForward s.latches.EX s.latches.MEM
    s'.latches.MEM = e.completed s.memory ∧ s'.memory = e.stored s.memory := by
  have hM := memoryStepOfATick s s' hI hd h
  by_cases hacc : s.accesses = false
  · rw [if_pos hacc] at hM
    obtain ⟨hlatch, hmem, -⟩ := hM
    have hno : s.latches.EX.readsMem = false ∧ s.latches.EX.writesMem = false := by
      simpa [State.accesses, hl] using hacc
    intro e
    rw [completed_of_no_access (by simpa [e] using hno.1), stored_of_no_store (by simpa [e] using hno.2)]
    exact ⟨hlatch, hmem⟩
  · rw [if_neg hacc, if_neg (by simp [memRaises_of_not_raises hr])] at hM
    obtain ⟨-, -, hlatch, hmem⟩ := hM
    exact ⟨hlatch, hmem⟩

omit hr in
/-- What MEM publishes when its latch is not live. -/
theorem access_step_of_not_live (hl : s.latches.EX.live = false) :
    s'.latches.MEM = storeDataForward s.latches.EX s.latches.MEM ∧ s'.memory = s.memory := by
  have hM := memoryStepOfATick s s' hI hd h
  rw [if_pos (by simp [State.accesses, hl])] at hM
  obtain ⟨hlatch, hmem, -⟩ := hM
  exact ⟨hlatch, hmem⟩

/-- The latch in MEM feeds what the latch in EX did. -/
theorem feeds_step : (∀ r, s'.latches.MEM.feeds r = s.latches.EX.feeds r) ∧
    s'.latches.MEM.readsMem = s.latches.EX.readsMem ∧ s'.latches.MEM.aluResult = s.latches.EX.aluResult := by
  cases hl : s.latches.EX.live with
  | true => rw [(access_step_of_live hI hd h hr hl).1]; simp
  | false => rw [(access_step_of_not_live hI hd h hl).1]; simp

theorem executeLatch_step : s'.latches.EX = s.executeWork := by
  obtain ⟨t, ht, hp⟩ := step_publishes hI hd h
  rw [hp.execute, memRaises_of_not_raises hr, ht.execute]
  rfl

theorem decodeLatch_step : s'.latches.ID = baseID s s' := by
  obtain ⟨t, ht, hp⟩ := step_publishes hI hd h
  rw [hp.decode, hr, ht.decode, baseID, baseID]
  simp only [capture_congr hp.regs]
  rfl

end tick

/-! ## The sequential step of a tick -/

/-- What a tick from `s` to `s'` makes of the sequential state: the instruction in EX, if there is one, is executed. -/
structure State.Advances (s s' q q' : State) : Prop where
  reach : q' = q ∨ seqStep q = .next q'
  regs : q'.regs = s'.retire s'.latches.MEM
  memory : q'.memory = s'.memory
  mode : q'.mode = if s'.halts then .halted else .running
  pc : q'.pc = s.executeCursor q.pc

theorem step_advances {s s' q : State} (hI : s.Inv) (hd : s.dMissRemaining = 0) (h : step s = .next s')
    (hr : s.raises = false) (hh : s.halts = false) (hq : s.Simulates q) : ∃ q', s.Advances s' q q' := by
  have hm : q.mode = .running := by rw [hq.mode, hh]; rfl
  have hregs : q.regs = s'.regs := hq.regs.trans (regs_step hd h).symm
  cases hl : s.latches.EX.live with
  | false =>
    obtain ⟨hMEM, hmem⟩ := access_step_of_not_live hI hd h hl
    have hdead : s'.latches.MEM.live = false := by rw [hMEM, live_storeDataForward, hl]
    refine ⟨q, .inl rfl, ?_, hq.memory.trans hmem.symm, ?_, ?_⟩
    · rw [retire_of_not_live hdead, hregs]
    · rw [State.halts, hdead, hm]
      rfl
    · rw [State.executeCursor, hl]
      rfl
  | true =>
    obtain ⟨hpc, hword, haligned, hlatch⟩ := (hq.follows hh).execute hl
    obtain ⟨hMEM, hmem⟩ := access_step_of_live hI hd h hr hl
    have hin := inBounds_of_not_raises hI hd h hr hl
    obtain ⟨i, -, hi, -, hy, -⟩ := hI.execute.instr hl
    have hnext : (q.seqExecuted s.latches.EX.raw).nextPc = s.latches.EX.nextPc := by
      rw [← hlatch, nextPc_storeDataForward]
    rw [hlatch] at hMEM hmem hin
    rw [← hq.memory] at hMEM hmem hin
    obtain ⟨q', hstep, hpc', hmem', hregs', hmode'⟩ := seqStep_eq hi hy hin (hnext ▸ haligned) hm
      (hpc ▸ hq.memory ▸ hword.inside) (hpc ▸ hq.memory ▸ hword.word)
    refine ⟨q', .inr hstep, ?_, hmem'.trans hmem.symm, ?_, ?_⟩
    · rw [hregs', hMEM]
      exact retire_congr hregs _
    · rw [hmode', State.halts, hMEM, live_completed, live_seqExecuted hi, isHalt_completed, Bool.true_and]
    · rw [hpc', hnext, State.executeCursor, hl]
      rfl

end Sys2Proof.Machine
end

section
/-! The proofs of the reset and hazards family, on the latches that follow a sequential state: a tick that raises no
exception moves them on (R385). -/

namespace Sys2Proof.Machine

/-! ## The words in the pipeline -/

/-- An aligned store of at most one word leaves every other word alone. -/
theorem read32_write_of_other_word {m : Memory} (hm : m.wf = true) {a b n : Nat} (v : Word)
    (hn : n = 1 ∨ n = 2 ∨ n = 4) (ha : a % n = 0) (hb : b % 4 = 0) (hne : a / 4 ≠ b / 4) :
    (m.write a n v).read32 b = m.read32 b := by
  refine Memory.read32_congr fun k hk => Memory.byteAt_write_of_outside hm a n v ?_
  rcases hn with rfl | rfl | rfl <;> omega

theorem State.HoldsWord.congr {s t : State} {l l' : Latch} (h : s.HoldsWord l) (hm : t.memory = s.memory)
    (hpc : l'.pc = l.pc) (hraw : l'.raw = l.raw) : t.HoldsWord l' where
  inside := by rw [hpc, hm]; exact h.inside
  aligned := by rw [hpc]; exact h.aligned
  word := by rw [hpc, hm, hraw]; exact h.word

section tick
variable {s s' : State} (hI : s.Inv) (hd : s.dMissRemaining = 0) (h : step s = .next s') (hr : s.raises = false)
include hI hd h hr

/-- A word in the pipeline stays that of memory, when the store that enters MEM is clear of it. -/
theorem holdsWord_step {l : Latch} (hword : s.HoldsWord l)
    (hclear : s.latches.EX.live = true → s.latches.EX.writesMem = true →
      s.latches.EX.memAddr.toNat / 4 ≠ l.pc.toNat / 4) : s'.HoldsWord l := by
  cases hl : s.latches.EX.live with
  | false => exact hword.congr (access_step_of_not_live hI hd h hl).2 rfl rfl
  | true =>
    have hmem := (access_step_of_live hI hd h hr hl).2
    cases hw : s.latches.EX.writesMem with
    | false => exact hword.congr (hmem.trans (stored_of_no_store (by simpa using hw) _)) rfl rfl
    | true =>
      obtain ⟨-, haligned⟩ := inBounds_of_not_raises hI hd h hr hl (.inr (by simpa using hw))
      refine ⟨by rw [hmem, size_stored]; exact hword.inside, hword.aligned, ?_⟩
      rw [hmem, Latch.stored, if_pos (by simpa using hw),
        read32_write_of_other_word hI.memory.1 _ (accessWidth_eq_or _) haligned hword.aligned
          (by simpa using hclear hl hw)]
      exact hword.word

/-- The registers that the instruction in ID reads in sequential execution. -/
theorem readsThrough_step {q' : State} (hregs : q'.regs = s'.retire s'.latches.MEM) :
    ReadsThrough s q' s.latches.EX s.latches.MEM s'.latches.MEM.writeValue := fun r => by
  rw [readReg_of_retire hregs, readReg_of_retire (regs_step hd h), (feeds_step hI hd h hr).1 r]

end tick

/-! ## EX -/

/-- The EX work of a live latch in a tick that raises no exception. -/
theorem executeWork_of_live {s : State} (hr : s.raises = false) (hst : s.stalls = false)
    (hl : s.latches.ID.live = true) : s.executeWork = executed s.forwarded s.forwarded.isControl := by
  have hres : s.resolves = s.forwarded.isControl := by
    rw [State.resolves, hst, hl, memRaises_of_not_raises hr]
    exact Bool.and_true _
  rw [State.executeWork, if_neg (by simp [hst]), if_neg (by simp [hl]), hres]

theorem live_executeWork {s : State} (hl : s.executeWork.live = true) :
    s.stalls = false ∧ s.latches.ID.live = true := by
  unfold State.executeWork at hl
  split_ifs at hl with hst hlive
  · simp at hl
  · exact absurd (hl.symm.trans hlive) (by decide)
  · exact ⟨by simpa using hst, by simpa using hlive⟩

/-- A resolution that is not taken leaves the next address. -/
theorem nextPc_executeWork {s : State} (hst : s.stalls = false) (hl : s.latches.ID.live = true)
    (hnext : s.latches.ID.nextPc = s.latches.ID.pc + 4) :
    s.executeWork.nextPc = if s.takes then resolve s.forwarded else s.latches.ID.pc + 4 := by
  rw [State.executeWork, if_neg (by simp [hst]), if_neg (by simp [hl])]
  show (if s.resolves then resolve s.forwarded else s.latches.ID.nextPc) = _
  rw [hnext, State.takes]
  cases s.resolves with
  | false => rfl
  | true =>
    by_cases hx : resolve s.forwarded = s.latches.ID.pc + 4 <;> simp [hx]

theorem State.DecodeFollows.nextPc {s q : State} (h : s.DecodeFollows q) :
    s.latches.ID.nextPc = s.latches.ID.pc + 4 := by
  rw [h.latch]
  simp

/-! ## ID -/

/-- What takes a resolution is live in ID, in no stall. -/
theorem stalls_and_live_of_takes {s : State} (h : s.takes = true) : s.stalls = false ∧ s.latches.ID.live = true := by
  simp only [State.takes, State.resolves, Bool.and_eq_true, Bool.not_eq_true'] at h
  exact ⟨h.1.1.1.1, h.1.1.1.2⟩

/-- A word in IF is live unless it is squashed (R42). -/
theorem liveInFetch_iff {l : Latch} (h : l.GoodFetch) : l.liveInFetch = true ↔ l.status ≠ .squashed := by
  rcases h.status with h | h | h <;> simp [Latch.liveInFetch, h]

/-- ID publishes no live latch after a taken resolution (R359), nor while a fetch is pending (R356). -/
theorem live_baseID_of_takes {s : State} (t : State) (ht : s.takes = true) : (baseID s t).live = false := by
  obtain ⟨hst, -⟩ := stalls_and_live_of_takes ht
  rw [baseID, if_neg (by simp [hst])]
  split
  · exact live_squash _
  · simp [ht, Latch.live]

theorem live_baseID_of_waits {s : State} (t : State) (hst : s.stalls = false) (h0 : 0 < s.iMissRemaining) :
    (baseID s t).live = false := by
  rw [baseID, if_neg (by simp [hst]), if_pos h0]
  split_ifs <;> simp

/-- ID decodes what IF fetched (R357). -/
theorem baseID_of_fetched {s : State} (t : State) (hf : s.latches.IF.GoodFetch) (hst : s.stalls = false)
    (h0 : s.iMissRemaining = 0) (ht : s.takes = false) (hm : s.memRaises = false) :
    baseID s t =
      if s.latches.IF.liveInFetch then t.capture (decodeLatch s.latches.IF.raw s.latches.IF.pc .normal)
      else decodeLatch s.latches.IF.raw s.latches.IF.pc .squashed := by
  rw [baseID, if_neg (by simp [hst]), if_neg (by omega)]
  by_cases hl : s.latches.IF.liveInFetch = true
  · have hs := (liveInFetch_iff hf).mp hl
    simp [hl, hs, ht, hm, Latch.live]
  · have hs : s.latches.IF.status = .squashed := by_contra fun hx => hl ((liveInFetch_iff hf).mpr hx)
    simp [hl, hs, Latch.live]

/-! ## A tick -/

/-- What IF and `pc` become in a tick that raises no exception, and the latches that ID then follows (R362 to R371). -/
inductive State.Moves (s s' : State) : Prop
  | held (latch : s'.latches.IF = s.latches.IF) (pc : s'.pc = s.pc) (taken : s.takes = false)
      (wait : s.stalls = true ∨ 0 < s.iMissRemaining)
  | taken (dead : s'.latches.IF.liveInFetch = false) (pc : s'.pc = resolve s.forwarded) (taken : s.takes = true)
  | fetched (live : s'.latches.IF.liveInFetch = true) (at_pc : s'.latches.IF.pc = s.pc)
      (word : s'.memory.read32 s.pc.toNat = s'.latches.IF.raw) (pc : s'.pc = s.pc + 4) (taken : s.takes = false)
      (stall : s.stalls = false) (wait : s.iMissRemaining = 0)

theorem liveInFetch_squash (l : Latch) : l.squash.liveInFetch = false := by
  simp [Latch.liveInFetch]

section tick
variable {s s' : State} (hI : s.Inv) (hd : s.dMissRemaining = 0) (h : step s = .next s') (hr : s.raises = false)
include hI hd h hr

theorem step_moves : s.Moves s' := by
  rcases step_fetches hI hd h with ⟨hr', -⟩ | ⟨-, hst, hf⟩ | ⟨-, hst, h0, hf⟩ | ⟨-, hst, h0, hf⟩
  · exact absurd (hr.symm.trans hr') (by decide)
  · exact .held hf.latch hf.pc (takes_of_stalls hst) (.inl hst)
  · cases ht : s.takes with
    | false =>
      rw [ht] at hf
      exact .held hf.latch hf.pc ht (.inr h0)
    | true =>
      rw [ht] at hf
      exact .taken (by rw [hf.latch]; exact liveInFetch_squash _) hf.pc ht
  · cases ht : s.takes with
    | false =>
      rw [ht] at hf
      have hlatch := hf.latch
      rw [if_neg (by decide)] at hlatch
      refine .fetched ?_ ?_ ?_ hf.pc ht hst h0 <;> rw [hlatch]
      · unfold Latch.liveInFetch
        rw [status_decodeLatch]
        split <;> rfl
      · exact pc_decodeLatch _ _ _
      · exact (raw_decodeLatch _ _ _).symm
    | true =>
      rw [ht] at hf
      exact .taken (by rw [hf.latch]; exact liveInFetch_squash _) hf.pc ht

variable {q q' : State} (hF : s.Follows q) (hpc : q'.pc = s.executeCursor q.pc)
include hF hpc

/-- The address after EX. -/
theorem executeCursor_step :
    s'.executeCursor q'.pc =
      if s.stalls then s.executeCursor q.pc else if s.takes then resolve s.forwarded else s.decodeCursor q.pc := by
  rw [State.executeCursor, executeLatch_step hI hd h hr, hpc]
  cases hst : s.stalls with
  | true =>
    rw [State.executeWork, if_pos hst, live_bubbleLatch]
    rfl
  | false =>
    cases hl : s.latches.ID.live with
    | true =>
      have hlive : s.executeWork.live = true := by rw [executeWork_of_live hr hst hl]; exact hl
      rw [if_pos hlive, nextPc_executeWork hst hl (hF.decode hl).nextPc, State.decodeCursor, if_pos hl]
      rfl
    | false =>
      have hdead : s.executeWork = s.latches.ID := by rw [State.executeWork, if_neg (by simp [hst]), if_pos hl]
      have hno : s.takes = false := Bool.eq_false_iff.mpr fun ht => by
        simp [(stalls_and_live_of_takes ht).2] at hl
      rw [hdead, hl, hno, State.decodeCursor, hl]
      rfl

/-- The latch in EX follows. -/
theorem executeFollows_step (hregs : q'.regs = s'.retire s'.latches.MEM)
    (hclear : s.storeClear) (hl' : s'.latches.EX.live = true) : s'.ExecuteFollows q' := by
  have hEX := executeLatch_step hI hd h hr
  rw [hEX] at hl'
  obtain ⟨hst, hl⟩ := live_executeWork hl'
  have hD := hF.decode hl
  have hat : s.latches.ID.pc = q'.pc := hD.pc.trans hpc.symm
  obtain ⟨hfeeds, hreads, halu⟩ := feeds_step hI hd h hr
  have hlatch := executed_forwarded_eq hI hst hl hD.latch hat.symm (readsThrough_step hI hd h hr hregs) hfeeds hreads halu
  have hword := holdsWord_step hI hd h hr hD.word fun h1 h2 => (hclear h1 h2).1 hl
  have hwork := executeWork_of_live hr hst hl
  have hpcraw : s'.latches.EX.pc = s.latches.ID.pc ∧ s'.latches.EX.raw = s.latches.ID.raw := by
    rw [hEX, hwork]
    exact ⟨rfl, rfl⟩
  refine ⟨hpcraw.1.trans hat, hword.congr rfl hpcraw.1 hpcraw.2, ?_, ?_⟩
  · rw [hEX, nextPc_executeWork hst hl hD.nextPc]
    split
    next ht => exact by_contra fun hx => (not_misaligned hI hd h).2 ⟨ht, hx⟩
    next => exact add_four_aligned hD.word.aligned
  · rw [hpcraw.2, ← hlatch, hEX, hwork]

/-- The latch in ID follows. -/
theorem decodeFollows_step (hclear : s.storeClear) (hl' : s'.latches.ID.live = true) : s'.DecodeFollows q' := by
  have hcursor := executeCursor_step hI hd h hr hF hpc
  have hID := decodeLatch_step hI hd h hr
  have hno : s.takes = false := Bool.eq_false_iff.mpr fun ht => by
    simp [hID, live_baseID_of_takes s' ht] at hl'
  cases hst : s.stalls with
  | true =>
    rw [hst, if_pos rfl] at hcursor
    rw [baseID, if_pos hst] at hID
    have hl : s.latches.ID.live = true := by
      rw [hID] at hl'
      split at hl' <;> exact hl'
    have hD := hF.decode hl
    rw [if_pos hl] at hID
    have hword := holdsWord_step hI hd h hr hD.word fun h1 h2 => (hclear h1 h2).1 hl
    refine ⟨?_, ?_, ?_⟩
    · rw [hcursor, hID]
      exact hD.pc
    · exact hword.congr rfl (by rw [hID]; rfl) (by rw [hID]; rfl)
    · rw [hID]
      calc s'.capture s.latches.ID
        _ = s'.capture (s.capture (decodeLatch s.latches.ID.raw s.latches.ID.pc .normal)) :=
          congrArg s'.capture hD.latch
        _ = s'.capture (decodeLatch s.latches.ID.raw s.latches.ID.pc .normal) := rfl
  | false =>
    rw [hst, hno] at hcursor
    have h0 : s.iMissRemaining = 0 := Nat.eq_zero_of_not_pos fun h0 => by
      simp [hID, live_baseID_of_waits s' hst h0] at hl'
    rw [baseID_of_fetched s' hI.fetch hst h0 hno (memRaises_of_not_raises hr)] at hID
    have hl : s.latches.IF.liveInFetch = true := by
      by_contra hx
      rw [hID, if_neg hx] at hl'
      simp [Latch.live] at hl'
    have hE := hF.fetch hl
    rw [if_pos hl] at hID
    have hword := holdsWord_step hI hd h hr hE.word fun h1 h2 => (hclear h1 h2).2 hl
    refine ⟨?_, ?_, ?_⟩
    · rw [hcursor, hID]
      exact (pc_decodeLatch _ _ _).trans hE.pc
    · exact hword.congr rfl (by rw [hID]; exact pc_decodeLatch _ _ _) (by rw [hID]; exact raw_decodeLatch _ _ _)
    · rw [hID]
      simp

/-- The address after ID, when no resolution is taken. -/
theorem decodeCursor_step (hno : s.takes = false) :
    s'.decodeCursor q'.pc =
      if s.stalls = true ∨ 0 < s.iMissRemaining then s.decodeCursor q.pc else s.pc := by
  have hcursor := executeCursor_step hI hd h hr hF hpc
  have hID := decodeLatch_step hI hd h hr
  rw [hno, if_neg Bool.false_ne_true] at hcursor
  by_cases hst : s.stalls = true
  · rw [if_pos hst] at hcursor
    rw [baseID, if_pos hst] at hID
    rw [if_pos (.inl hst : s.stalls = true ∨ _), State.decodeCursor, State.decodeCursor, hcursor, hID]
    split
    next hl => exact if_pos hl
    next => rfl
  rw [if_neg hst] at hcursor
  rw [Bool.not_eq_true] at hst
  by_cases h0 : 0 < s.iMissRemaining
  · rw [if_pos (.inr h0 : _ ∨ 0 < s.iMissRemaining), State.decodeCursor, hID, live_baseID_of_waits s' hst h0, hcursor]
    rfl
  · rw [baseID_of_fetched s' hI.fetch hst (by omega) hno (memRaises_of_not_raises hr)] at hID
    rw [if_neg (by simp [hst, h0]), hF.pc, State.fetchCursor, State.decodeCursor, hcursor, hID]
    by_cases hl : s.latches.IF.liveInFetch = true
    · rw [if_pos hl, if_pos hl, if_pos (by simp [Latch.live]), pc_capture, pc_decodeLatch]
    · rw [if_neg hl, if_neg hl, if_neg (by simp [Latch.live])]

/-- Every latch before MEM follows, and `pc` comes after them. -/
theorem follows_step (hregs : q'.regs = s'.retire s'.latches.MEM) (hclear : s.storeClear)
    (hm' : s'.mode = .running) : s'.Follows q' := by
  have hI' := everyStepKeepsTheInvariant s s' hI h
  have hexecute := executeFollows_step hI hd h hr hF hpc hregs hclear
  have hdecode := decodeFollows_step hI hd h hr hF hpc hclear
  cases step_moves hI hd h hr with
  | held hlatch hp hno hwait =>
    have hcursor := decodeCursor_step hI hd h hr hF hpc hno
    rw [if_pos hwait] at hcursor
    refine ⟨hexecute, hdecode, fun hl' => ?_, ?_⟩
    · rw [hlatch] at hl'
      have hE := hF.fetch hl'
      have hword := holdsWord_step hI hd h hr hE.word fun h1 h2 => (hclear h1 h2).2 hl'
      refine ⟨?_, by rw [hlatch]; exact hword⟩
      rw [hlatch, hcursor]
      exact hE.pc
    · rw [hp, hF.pc, State.fetchCursor, State.fetchCursor, hlatch, hcursor]
  | taken hdead hp ht =>
    refine ⟨hexecute, hdecode, fun hl' => absurd (hl'.symm.trans hdead) (by decide), ?_⟩
    have hcursor := executeCursor_step hI hd h hr hF hpc
    rw [(stalls_and_live_of_takes ht).1, ht] at hcursor
    rw [hp, State.fetchCursor, hdead, State.decodeCursor, decodeLatch_step hI hd h hr, live_baseID_of_takes s' ht]
    exact hcursor.symm
  | fetched hl' hat hword hp hno hst h0 =>
    have hcursor := decodeCursor_step hI hd h hr hF hpc hno
    rw [if_neg (by simp [hst, h0])] at hcursor
    refine ⟨hexecute, hdecode, fun _ => ⟨?_, hI'.fetchedInside hm', hI'.fetch.aligned, ?_⟩, ?_⟩
    · rw [hcursor, hat]
    · rw [hat, hword]
    · rw [hp, State.fetchCursor, if_pos hl', hat]

end tick

end Sys2Proof.Machine
end

section
/-! The proofs of the reset and hazards family, on whole runs: a clear run from `init` follows sequential execution from
address 0 (R385). -/

namespace Sys2Proof.Machine

/-! ## One tick -/

theorem of_modeAfter_running {exc halt : Bool} {n : Nat} (h : modeAfter exc halt n = .running) :
    exc = false ∧ halt = false := by
  unfold modeAfter at h
  split_ifs at h with hboth htie hexc hhalt
  exact ⟨Bool.eq_false_iff.mpr hexc, Bool.eq_false_iff.mpr hhalt⟩

/-- A tick after which the core still runs raised no exception and committed no halt (R373). -/
theorem of_running_step {s s' : State} (hI : s.Inv) (hd : s.dMissRemaining = 0) (h : step s = .next s')
    (hm : s'.mode = .running) : s.raises = false ∧ s.halts = false := by
  obtain ⟨n, hmode⟩ := mode_step hI hd h
  exact of_modeAfter_running (hmode.symm.trans hm)

/-- A freeze tick leaves the latches that follow where they are (R328). -/
theorem simulates_freezeTick {s q : State} (hq : s.Simulates q) : (freezeTick s).Simulates q := by
  refine ⟨hq.regs.trans (retire_congr (by rfl) _), hq.memory, hq.mode, fun hh => ?_⟩
  obtain ⟨hexecute, hdecode, hfetch, hpc⟩ := hq.follows hh
  refine ⟨fun hl => ?_, fun hl => ?_, fun hl => ?_, hpc⟩
  · obtain ⟨hat, hword, haligned, hlatch⟩ := hexecute hl
    exact ⟨hat, hword.congr rfl rfl rfl, haligned, hlatch⟩
  · obtain ⟨hat, hword, hlatch⟩ := hdecode hl
    exact ⟨hat, hword.congr rfl rfl rfl, hlatch⟩
  · obtain ⟨hat, hword⟩ := hfetch hl
    exact ⟨hat, hword.congr rfl rfl rfl⟩

/-- A tick after which the core still runs executes at most one instruction of sequential execution. -/
theorem simulates_step {s s' q : State} (hI : s.Inv) (h : step s = .next s') (hclear : s.storeClear)
    (hm : s'.mode = .running) (hq : s.Simulates q) :
    ∃ q', (q' = q ∨ seqStep q = .next q') ∧ s'.Simulates q' := by
  by_cases hd : s.dMissRemaining = 0
  · obtain ⟨hr, hh⟩ := of_running_step hI hd h hm
    obtain ⟨q', ha⟩ := step_advances hI hd h hr hh hq
    exact ⟨q', ha.reach, ha.regs, ha.memory, ha.mode,
      fun _ => follows_step hI hd h hr (hq.follows hh) ha.pc ha.regs hclear hm⟩
  · obtain ⟨-, -, ⟨-, rfl⟩ | ⟨h0, -⟩⟩ := step_eq_next.mp h
    · exact ⟨q, .inl rfl, simulates_freezeTick hq⟩
    · exact absurd h0 hd

/-! ## Runs -/

theorem running_of_seqStep {q q' : State} (h : seqStep q = .next q') : q.mode = .running := by
  by_contra hm
  rw [seqStep, if_pos hm] at h
  cases h

/-- A sequential run goes on for one more step while the machine runs. -/
theorem seqRun_succ {k : Nat} {q0 q q' : State} (h : seqRun k q0 = .next q) (hs : seqStep q = .next q') :
    seqRun (k + 1) q0 = .next q' := by
  induction k generalizing q0 with
  | zero =>
    cases h
    rw [seqRun, hs, andThen_next]
    exact ite_self _
  | succ k ih =>
    obtain ⟨q1, hq1, hrest⟩ := andThen_eq_next.mp h
    rw [seqRun, hq1, andThen_next]
    by_cases hm : q1.mode = .running
    · rw [if_pos hm] at hrest ⊢
      exact ih hrest
    · rw [if_neg hm] at hrest
      cases hrest
      exact absurd (running_of_seqStep hs) hm

theorem simulates_of_clearRun {n : Nat} {s u q0 : State} (hI : s.Inv) (hq : s.Simulates q0) (hrun : ClearRun n s u)
    (hm : u.mode = .running) : u.Inv ∧ ∃ k q, seqRun k q0 = .next q ∧ u.Simulates q := by
  induction n generalizing u with
  | zero =>
    cases hrun
    exact ⟨hI, 0, q0, rfl, hq⟩
  | succ n ih =>
    obtain ⟨v, hv, hclear, hstep⟩ := hrun
    obtain ⟨hvI, k, q, hk, hvq⟩ := ih hv (step_eq_next.mp hstep).1
    obtain ⟨q', hreach, huq⟩ := simulates_step hvI hstep hclear hm hvq
    refine ⟨everyStepKeepsTheInvariant v u hvI hstep, ?_⟩
    rcases hreach with rfl | hs
    · exact ⟨k, q', hk, huq⟩
    · exact ⟨k + 1, q', seqRun_succ hk hs, huq⟩

/-- After `init` the pipeline stands at the start of sequential execution from address 0 (R322). -/
theorem simulates_initialState {icfg dcfg : CacheConfig} {image : List Byte} (hI : (initialState icfg dcfg image).Inv) :
    (initialState icfg dcfg image).Simulates { initialState icfg dcfg image with pc := 0 } := by
  have hidle : (initialState icfg dcfg image).latches.EX.live = false := live_idleLatch
  have hpc : (initialState icfg dcfg image).latches.IF.pc = 0 := pc_decodeLatch _ _ _
  have hlive : (initialState icfg dcfg image).latches.IF.liveInFetch = true := by
    have hstatus : (initialState icfg dcfg image).latches.IF.status = .speculative := status_decodeLatch _ _ _
    rw [Latch.liveInFetch, hstatus]
    rfl
  refine ⟨(retire_of_not_live hidle).symm, rfl, rfl, fun _ => ⟨?_, ?_, fun _ => ⟨hpc, ?_⟩, ?_⟩⟩
  · exact fun hl => absurd (hl.symm.trans hidle) (by decide)
  · exact fun hl => absurd (hl.symm.trans hidle) (by decide)
  · refine ⟨hI.fetchedInside rfl, hI.fetch.aligned, ?_⟩
    rw [hpc]
    exact (raw_decodeLatch _ _ _).symm
  · rw [State.fetchCursor, if_pos hlive, hpc]
    rfl

/-! ## The halt -/

/-- A tick that halts without an exception commits a halt (R261, R373). -/
theorem of_halted_step {s s' : State} (hI : s.Inv) (h : step s = .next s') (hm : s'.mode = .halted)
    (hnote : s'.errorNote = none) : s.dMissRemaining = 0 ∧ s.raises = false ∧ s.halts = true := by
  obtain ⟨hrun, -, hfreeze⟩ := step_eq_next.mp h
  have hd : s.dMissRemaining = 0 := by
    rcases hfreeze with ⟨-, rfl⟩ | ⟨hd, -⟩
    · cases hm.symm.trans hrun
    · exact hd
  have hr : s.raises = false := by
    by_contra hx
    rw [annotationAfterATick s s' hI h, if_neg (by simp [hd, hx])] at hnote
    split at hnote <;> cases hnote
  obtain ⟨n, hmode⟩ := mode_step hI hd h
  rw [hm, hr, modeAfter_of_not_exc] at hmode
  refine ⟨hd, hr, by_contra fun hh => ?_⟩
  rw [if_neg hh] at hmode
  cases hmode

/-- A tick without a live store in EX keeps memory. -/
theorem memory_step_of_no_store {s s' : State} (hI : s.Inv) (hd : s.dMissRemaining = 0) (h : step s = .next s')
    (hr : s.raises = false) (hw : ¬ (s.latches.EX.live = true ∧ s.latches.EX.writesMem = true)) :
    s'.memory = s.memory := by
  cases hl : s.latches.EX.live with
  | false => exact (access_step_of_not_live hI hd h hl).2
  | true =>
    rw [(access_step_of_live hI hd h hr hl).2]
    exact stored_of_no_store (by simpa [hl] using hw) _

/-- Settles O59: the run keeps `State.Simulates`, so when the halt commits, sequential execution has just halted. -/
theorem sequentialEquivalence : Obligations.SequentialEquivalence := by
  intro icfg dcfg size image n s0 u s' hinit hrun _ h hm hnote
  obtain ⟨hvalid, rfl⟩ := init_eq_next.mp hinit
  have hI0 := initialState_inv hvalid
  obtain ⟨hI, k, q, hk, hq⟩ :=
    simulates_of_clearRun hI0 (simulates_initialState hI0) hrun (step_eq_next.mp h).1
  obtain ⟨hd, hr, hh⟩ := of_halted_step hI h hm hnote
  refine ⟨k, q, hk, by rw [hq.mode, hh]; rfl, hq.regs.trans (regs_step hd h).symm, hq.memory, fun hw => ?_⟩
  exact hq.memory.trans (memory_step_of_no_store hI hd h hr hw).symm

end Sys2Proof.Machine
end

section
/-! The proofs of the remaining statements: the canonical form of memory, and the word that the host places. -/

namespace Sys2Proof.Machine

/-- Settles O48: a byte read outside a canonical memory is 0 in its list of cells too, so the lists read alike, and
canonical lists that read alike are equal. -/
theorem canonicalMemoriesThatReadAlikeAreEqual : Obligations.CanonicalMemoriesThatReadAlikeAreEqual :=
  fun _ _ h h' hsize hbytes => Memory.eq_of_byteAt h h' hsize hbytes

/-! ## The word that `withFetchWord` places -/

/-- A word of 32 bits is placed whole: it is stored at the address of the IF latch, which holds it SPECULATIVE. -/
theorem State.withFetchWord_toNat (s : State) (w : Word) :
    s.withFetchWord 32 w.toNat =
      { s with
        memory := s.memory.write s.latches.IF.pc.toNat 4 w
        latches := { s.latches with
          IF := decodeLatch w s.latches.IF.pc .speculative, ID := bubbleLatch, EX := bubbleLatch }
        iMissRemaining := 0, dMissRemaining := 0, loadBranchExtra := 0 } := by
  have hw : BitVec.ofNat 32 (w.toNat % 2 ^ 32) = w := by
    rw [Nat.mod_eq_of_lt w.isLt, BitVec.ofNat_toNat, BitVec.setWidth_eq]
  rw [State.withFetchWord, hw]

/-- Settles O23: the stored word reads back, the other bytes stay, and behind a bubble in EX nothing stalls (R337). -/
theorem fetchWordIsPlaced : Obligations.FetchWordIsPlaced := by
  intro s w hwf hin
  rw [State.withFetchWord_toNat]
  refine ⟨Memory.read32_write hwf _ w hin, rfl, Bool.eq_false_iff.mpr fun hstall => ?_, rfl, rfl,
    fun _ ho => Memory.byteAt_write_of_outside hwf _ 4 w ho⟩
  exact absurd (stalls_of_execute_not_live live_bubbleLatch hstall) (Nat.lt_irrefl 0)

end Sys2Proof.Machine
end
